-- ==== Sys2Proof/Word.lean ====
section
/-! DEFINITION. The word types of the display engine: 32-bit command and response words (`30_encoding.md` R71,
R76), bytes, and the one-bit pixel value (`20_memory.md` R41). -/

namespace Sys2Proof

/-- One 32-bit word of a command packet, or a response word (`30_encoding.md` R71, R76). -/
abbrev Word := BitVec 32

/-- One byte: a byte of the packed frame buffer, of the Transport, or an 8-bit operand. -/
abbrev Byte := BitVec 8

/-- A pixel value, 0 (`false`) or 1 (`true`) (`20_memory.md` R41). -/
abbrev Pixel := Bool

end Sys2Proof
end

