-- ==== Sys2Proof/Config.lean ====
section
/-! DEFINITION. The configuration of the engine (`00_scope.md` R5), and the free values: what the environment and
the power-on decide and no rule fixes. A free value is an opaque constant without a body, so no proof can see it. -/

namespace Sys2Proof

/-! Parameters fixed by `00_scope.md` R5. -/

/-- `FB_W`. -/
abbrev fbWidth : Nat := 128
/-- `FB_H`. -/
abbrev fbHeight : Nat := 64
/-- `FB_BYTES`. -/
abbrev fbBytes : Nat := 1024
/-- Bytes of one row of the packed view (`20_memory.md` R42). -/
abbrev rowBytes : Nat := 16
/-- `GD_ROWS`. -/
abbrev gdRows : Nat := 32
/-- `SYNC_BASE`. -/
abbrev syncBase : Byte := 0xF8
/-- `CMD_BASIC`. -/
abbrev cmdBasic : Byte := 0x30

/-- A glyph of the GlyphSource (`60_exceptions.md` R205): advance in whole pixels, width, height, and the coverage
bytes, row-major, top row first. The port's framing delivers exactly `w * h` bytes, which the last field says. -/
structure Glyph where
  adv : BitVec 16
  w : Byte
  h : Byte
  cov : List Byte
  cov_length : cov.length = w.toNat * h.toNat
  deriving DecidableEq, Repr

/-- The GlyphSource's answer to one query (`60_exceptions.md` R205). -/
inductive GlyphAnswer where
  /-- A character with no renderable glyph in the active font. -/
  | unsupported
  | glyph (g : Glyph)
  deriving DecidableEq, Repr, Inhabited

/-- The parameters of `00_scope.md` R5 that are open or rest on general knowledge. They are plain data, so that a
state carries its configuration and a claim can quantify over it; no step changes it. -/
structure Config where
  /-- `H_BOTTOM`, the horizontal word address where the bottom half starts (4 bits, as `ga_h`, R26). -/
  hBottom : BitVec 4
  cmdClear : Byte
  cmdEntry : Byte
  cmdDisplayOn : Byte
  cmdGfxOn : Byte
  cmdGfxOff : Byte
  cmdSetAddr : Byte
  /-- `DD_ROW_BASE`: one 7-bit address for each text row. -/
  ddRowBase : List (BitVec 7)
  /-- `TEXT_ROWS`: text rows. -/
  textRows : Nat
  /-- `TEXT_CELLS`: character cells of one text row. -/
  textCells : Nat
  /-- `DEFAULT_ADVANCE`, `OPEN` (`42_text.md` R153). -/
  defaultAdvance : Nat
  /-- `T_RESET_PULSE`, `OPEN`; no rule depends on it (`70_reset_and_hazards.md` R215). -/
  resetPulse : Nat
  /-- `FB_POWERON`, `OPEN`: the 8192 pixels at power-on, any value (`10_state.md` R31), as the packed view; byte
  `16 * y + k` holds the pixels `8 * k` to `8 * k + 7` of row `y`, the leftmost in bit 7. -/
  fbPowerOn : Vector Byte fbBytes
  deriving DecidableEq, Repr

/-- `FB_POWERON` of the machine at power-on, `OPEN` in `00_scope.md` R5. A free value. -/
opaque Config.freeFbPowerOn : Vector Byte fbBytes

/-- `DEFAULT_ADVANCE` of the machine at power-on, `OPEN` in `00_scope.md` R5. A free value. -/
opaque Config.freeDefaultAdvance : Nat

/-- `T_RESET_PULSE` of the machine at power-on, `OPEN` in `00_scope.md` R5. A free value. -/
opaque Config.freeResetPulse : Nat

/-- The Transport's answer number `n` (`true` is `ok`) once the listed answers are used up: "chosen by the
environment, freely and independently each time" (`60_exceptions.md` R204). A free value. -/
opaque Config.freeTxAnswer : Nat → Bool

/-- The GlyphSource's answer number `n` to a query for a font, a size and a character, once the listed answers are
used up (`60_exceptions.md` R205: not even the same query need get the same answer twice). A free value. -/
opaque Config.freeGlyphAnswer : Nat → Byte → Byte → Word → GlyphAnswer

/-- The defaults of the "value" column of `00_scope.md` R5 (G1 to G7 of `93_implementation_defined.md`), with the
three `OPEN` parameters as arguments. PRESUMED by the spec from general knowledge (log 7). -/
def Config.standard (advance pulse : Nat) (fb : Vector Byte fbBytes) : Config where
  hBottom := 8
  cmdClear := 0x01
  cmdEntry := 0x06
  cmdDisplayOn := 0x0C
  cmdGfxOn := 0x36
  cmdGfxOff := 0x30
  cmdSetAddr := 0x80
  ddRowBase := [0x00, 0x10, 0x08, 0x18]
  textRows := 4
  textCells := 8
  defaultAdvance := advance
  resetPulse := pulse
  fbPowerOn := fb

/-- Byte `a` of `FB_POWERON`; no address from 1024 on is a byte of the frame buffer. -/
def Config.powerOnByte (c : Config) (a : Nat) : Byte := if h : a < fbBytes then c.fbPowerOn[a] else 0

/-- A configuration with one base for each text row, whose text addresses fit the 7 bits of `dd_addr`
(`20_memory.md` R48): base plus column never wraps. -/
def Config.wf (c : Config) : Bool :=
  decide (c.ddRowBase.length = c.textRows) && c.ddRowBase.all fun b => decide (b.toNat + c.textCells ≤ 128)

end Sys2Proof
end

