-- ==== Sys2Proof/Syntax.lean ====
section
/-! DEFINITION. The fourteen commands of `30_encoding.md` R70 as syntax, and the command packet of R71. -/

namespace Sys2Proof

/-- The blend modes (`30_encoding.md` R72, `40_framebuffer.md` R101). -/
inductive Blend where
  | set
  | clear
  | xor
  | and
  deriving DecidableEq, Repr

/-- The `filled` bit (`30_encoding.md` R72, R80). -/
inductive Fill where
  | outline
  | filled
  deriving DecidableEq, Repr

/-- A command packet: a finite, non-empty list of 32-bit words, header first (`30_encoding.md` R71). -/
structure Packet where
  /-- `W[0]`. -/
  header : Word
  /-- `W[1]`, `W[2]`, ... -/
  operands : List Word
  deriving DecidableEq, Repr

/-- `N`, the packet's length in words (`30_encoding.md` R71). -/
def Packet.length (p : Packet) : Nat := p.operands.length + 1

/-- One decoded command: one constructor per row of the opcode table. Coordinates and the radius are exact integers
(`00_scope.md` R12, R13), widths, heights, rows and columns naturals; a `BLIT` keeps its payload words (R84). -/
inductive Instr where
  /-- `CLEAR v` (`40_framebuffer.md` R102). -/
  | clear (v : Pixel)
  /-- `SETPIX x, y, v, blend` (`40_framebuffer.md` R104). -/
  | setpix (x y : Int) (v : Pixel) (blend : Blend)
  /-- `GETPIX x, y` (`40_framebuffer.md` R105). -/
  | getpix (x y : Int)
  /-- `BLIT x, y, blend, w, h, rows` (`40_framebuffer.md` R107). -/
  | blit (x y : Int) (blend : Blend) (w h : Nat) (payload : List Word)
  /-- `LINE x0, y0, x1, y1, v` (`41_rasterizer.md` R121). -/
  | line (x0 y0 x1 y1 : Int) (v : Pixel)
  /-- `RECT x0, y0, x1, y1, fill, v` (`41_rasterizer.md` R125). -/
  | rect (x0 y0 x1 y1 : Int) (fill : Fill) (v : Pixel)
  /-- `CIRCLE cx, cy, r, fill, v` (`41_rasterizer.md` R130). -/
  | circle (cx cy r : Int) (fill : Fill) (v : Pixel)
  /-- `TRI x0, y0, x1, y1, x2, y2, fill, v` (`41_rasterizer.md` R135). -/
  | tri (x0 y0 x1 y1 x2 y2 : Int) (fill : Fill) (v : Pixel)
  /-- `TEXT x, y, font, size, threshold, chars` (`42_text.md` R150). -/
  | text (x y : Int) (font size threshold : Byte) (chars : List Word)
  /-- `RESET` (`43_protocol.md` R165). -/
  | reset
  /-- `GFXON` (`43_protocol.md` R166). -/
  | gfxon
  /-- `GFXOFF` (`43_protocol.md` R167). -/
  | gfxoff
  /-- `PRESENT` (`43_protocol.md` R168). -/
  | present
  /-- `WRTEXT row, col, chars` (`43_protocol.md` R170). -/
  | wrtext (row col : Nat) (chars : List Word)
  deriving DecidableEq, Repr

/-- `ceil(w/32)`, the payload words of one row of a `BLIT` (`30_encoding.md` R74). -/
def wordsPerRow (w : Nat) : Nat := (w + 31) / 32

end Sys2Proof
end

