-- ==== Sys2Proof/WellFormed.lean ====
section
/-! DEFINITION. Which terms of `Instr` the encoding can express (`30_encoding.md` R72 to R75). A command's own
operand ranges (a `WRTEXT` row above 3, say) are no part of this: such a packet decodes and the command answers
`BAD_OPERAND` (R78). -/

namespace Sys2Proof

/-- A 16-bit two's complement coordinate or radius (`30_encoding.md` R73). -/
def Coord.ok (x : Int) : Bool := decide (-32768 ≤ x) && decide (x ≤ 32767)

/-- An unsigned 8-bit field (`30_encoding.md` R72, R73). -/
def Field8.ok (n : Nat) : Bool := decide (n < 256)

/-- The term has an encoding. -/
def Instr.wellFormed : Instr → Bool
  | .clear _ => true
  | .setpix x y _ _ => Coord.ok x && Coord.ok y
  | .getpix x y => Coord.ok x && Coord.ok y
  | .blit x y _ w h payload =>
      Coord.ok x && Coord.ok y && Field8.ok w && Field8.ok h && decide (payload.length = h * wordsPerRow w)
  | .line x0 y0 x1 y1 _ => Coord.ok x0 && Coord.ok y0 && Coord.ok x1 && Coord.ok y1
  | .rect x0 y0 x1 y1 _ _ => Coord.ok x0 && Coord.ok y0 && Coord.ok x1 && Coord.ok y1
  | .circle cx cy r _ _ => Coord.ok cx && Coord.ok cy && Coord.ok r
  | .tri x0 y0 x1 y1 x2 y2 _ _ =>
      Coord.ok x0 && Coord.ok y0 && Coord.ok x1 && Coord.ok y1 && Coord.ok x2 && Coord.ok y2
  | .text x y _ _ _ _ => Coord.ok x && Coord.ok y
  | .reset => true
  | .gfxon => true
  | .gfxoff => true
  | .present => true
  | .wrtext row col _ => Field8.ok row && Field8.ok col

end Sys2Proof
end

