-- ==== Sys2Proof/Decode.lean ====
section
/-! DEFINITION. The total decoder of `30_encoding.md` R77, rejecting by name, the encoder written from the same
tables (R72 to R75), and the opcode table's rows. -/

namespace Sys2Proof

/-- `w[hi:lo]`, read as an unsigned integer (`00_scope.md` R8). -/
def slice (w : Word) (hi lo : Nat) : Nat := w.toNat / 2 ^ lo % 2 ^ (hi + 1 - lo)

/-- `w[i]` (`00_scope.md` R8). -/
def bitAt (w : Word) (i : Nat) : Bool := w.getLsbD i

/-- `sext_16` of an unsigned 16-bit field (`00_scope.md` R8). -/
def sext16 (n : Nat) : Int := if n < 32768 then (n : Int) else (n : Int) - 65536

/-- The `x` of a point word, and the radius of a radius word (`30_encoding.md` R73). -/
def pointX (w : Word) : Int := sext16 (slice w 15 0)

/-- The `y` of a point word (`30_encoding.md` R73). -/
def pointY (w : Word) : Int := sext16 (slice w 31 16)

/-- The `blend` field (`30_encoding.md` R72): `SET` = 0, `CLEAR` = 1, `XOR` = 2, `AND` = 3. -/
def blendOf (n : Nat) : Blend :=
  match n with
  | 0 => .set
  | 1 => .clear
  | 2 => .xor
  | _ => .and

/-- The code of a blend mode (`30_encoding.md` R72). -/
def Blend.code : Blend → Nat
  | .set => 0
  | .clear => 1
  | .xor => 2
  | .and => 3

/-- The `filled` field (`30_encoding.md` R72): 0 outline, 1 filled. -/
def fillOf (b : Bool) : Fill := if b then .filled else .outline

/-- The bit of a `Fill` (`30_encoding.md` R72). -/
def Fill.code : Fill → Nat
  | .outline => 0
  | .filled => 1

/-- Why a packet is `Illegal` (`30_encoding.md` R77). All reasons give the one status `ILLEGAL_COMMAND`. -/
inductive Reject where
  /-- The opcode is not one of the fourteen (R78). -/
  | unknownOpcode
  /-- A bit of the header that R74 lists as `res` is 1. -/
  | reservedHeaderBits
  /-- The high half of a radius word or a size word is not zero (R73). -/
  | reservedOperandBits
  /-- The packet has not the length R74 gives. -/
  | wrongLength
  deriving DecidableEq, Repr

/-- What the decoder answers. -/
inductive Decoded where
  | instr (i : Instr)
  | illegal (why : Reject)
  deriving DecidableEq, Repr

/-- `W[0][0]`, the `v` field of a header (`30_encoding.md` R72). -/
def headerV (h : Word) : Pixel := bitAt h 0

/-- The `blend` field of a header. -/
def headerBlend (h : Word) : Blend := blendOf (slice h 2 1)

/-- The `filled` field of a header. -/
def headerFill (h : Word) : Fill := fillOf (bitAt h 3)

/-! One function per row of the table of `30_encoding.md` R74: the reserved bits of the header, then the length and
the reserved bits of an operand word, then the operands as R75 assembles them. -/

/-- Format `FV`. -/
def decodeClear (p : Packet) : Decoded :=
  if slice p.header 23 1 ≠ 0 then .illegal .reservedHeaderBits
  else match p.operands with
    | [] => .instr (.clear (headerV p.header))
    | _ => .illegal .wrongLength

/-- Format `FP`. -/
def decodeSetpix (p : Packet) : Decoded :=
  if slice p.header 23 3 ≠ 0 then .illegal .reservedHeaderBits
  else match p.operands with
    | [w1] => .instr (.setpix (pointX w1) (pointY w1) (headerV p.header) (headerBlend p.header))
    | _ => .illegal .wrongLength

/-- Format `FG`. -/
def decodeGetpix (p : Packet) : Decoded :=
  if slice p.header 23 0 ≠ 0 then .illegal .reservedHeaderBits
  else match p.operands with
    | [w1] => .instr (.getpix (pointX w1) (pointY w1))
    | _ => .illegal .wrongLength

/-- Format `FB`; the length comes from the size word (`30_encoding.md` R79). -/
def decodeBlit (p : Packet) : Decoded :=
  if slice p.header 0 0 ≠ 0 ∨ slice p.header 23 3 ≠ 0 then .illegal .reservedHeaderBits
  else match p.operands with
    | w1 :: w2 :: payload =>
        if slice w2 31 16 ≠ 0 then .illegal .reservedOperandBits
        else if payload.length = slice w2 15 8 * wordsPerRow (slice w2 7 0) then
          .instr (.blit (pointX w1) (pointY w1) (headerBlend p.header) (slice w2 7 0) (slice w2 15 8) payload)
        else .illegal .wrongLength
    | _ => .illegal .wrongLength

/-- Format `FL`. -/
def decodeLine (p : Packet) : Decoded :=
  if slice p.header 23 1 ≠ 0 then .illegal .reservedHeaderBits
  else match p.operands with
    | [w1, w2] => .instr (.line (pointX w1) (pointY w1) (pointX w2) (pointY w2) (headerV p.header))
    | _ => .illegal .wrongLength

/-- The reserved header bits of the formats `FS`, `FC` and `F3`. -/
def shapeReserved (h : Word) : Bool := decide (slice h 2 1 ≠ 0) || decide (slice h 23 4 ≠ 0)

/-- Format `FS`. -/
def decodeRect (p : Packet) : Decoded :=
  if shapeReserved p.header then .illegal .reservedHeaderBits
  else match p.operands with
    | [w1, w2] =>
        .instr (.rect (pointX w1) (pointY w1) (pointX w2) (pointY w2) (headerFill p.header) (headerV p.header))
    | _ => .illegal .wrongLength

/-- Format `FC`. -/
def decodeCircle (p : Packet) : Decoded :=
  if shapeReserved p.header then .illegal .reservedHeaderBits
  else match p.operands with
    | [w1, w2] =>
        if slice w2 31 16 ≠ 0 then .illegal .reservedOperandBits
        else .instr (.circle (pointX w1) (pointY w1) (pointX w2) (headerFill p.header) (headerV p.header))
    | _ => .illegal .wrongLength

/-- Format `F3`. -/
def decodeTri (p : Packet) : Decoded :=
  if shapeReserved p.header then .illegal .reservedHeaderBits
  else match p.operands with
    | [w1, w2, w3] =>
        .instr (.tri (pointX w1) (pointY w1) (pointX w2) (pointY w2) (pointX w3) (pointY w3)
          (headerFill p.header) (headerV p.header))
    | _ => .illegal .wrongLength

/-- Format `FT`: no reserved bits; the characters are the rest of the packet (`30_encoding.md` R79). -/
def decodeText (p : Packet) : Decoded :=
  match p.operands with
  | w1 :: chars =>
      .instr (.text (pointX w1) (pointY w1) (BitVec.ofNat 8 (slice p.header 15 8)) (BitVec.ofNat 8 (slice p.header 23 16))
        (BitVec.ofNat 8 (slice p.header 7 0)) chars)
  | [] => .illegal .wrongLength

/-- Format `F0`, for the four commands without operands. -/
def decodeBare (i : Instr) (p : Packet) : Decoded :=
  if slice p.header 23 0 ≠ 0 then .illegal .reservedHeaderBits
  else match p.operands with
    | [] => .instr i
    | _ => .illegal .wrongLength

/-- Format `FW`: the characters are the rest of the packet (`30_encoding.md` R79). -/
def decodeWrtext (p : Packet) : Decoded :=
  if slice p.header 23 16 ≠ 0 then .illegal .reservedHeaderBits
  else .instr (.wrtext (slice p.header 7 0) (slice p.header 15 8) p.operands)

/-- The opcode of a packet, `W[0][31:24]` (`30_encoding.md` R72). -/
def opcodeOf (p : Packet) : Nat := slice p.header 31 24

/-- `Decode(W, N)` of `30_encoding.md` R77: total, and a function of the packet alone. -/
def decode (p : Packet) : Decoded :=
  match opcodeOf p with
  | 0x01 => decodeClear p
  | 0x02 => decodeSetpix p
  | 0x03 => decodeGetpix p
  | 0x04 => decodeBlit p
  | 0x10 => decodeLine p
  | 0x11 => decodeRect p
  | 0x12 => decodeCircle p
  | 0x13 => decodeTri p
  | 0x20 => decodeText p
  | 0x40 => decodeBare .reset p
  | 0x41 => decodeBare .gfxon p
  | 0x42 => decodeBare .gfxoff p
  | 0x43 => decodeBare .present p
  | 0x44 => decodeWrtext p
  | _ => .illegal .unknownOpcode

/-! The encoder. -/

/-- The opcode number of a command (`30_encoding.md` R70). -/
def Instr.opcode : Instr → Nat
  | .clear .. => 0x01
  | .setpix .. => 0x02
  | .getpix .. => 0x03
  | .blit .. => 0x04
  | .line .. => 0x10
  | .rect .. => 0x11
  | .circle .. => 0x12
  | .tri .. => 0x13
  | .text .. => 0x20
  | .reset => 0x40
  | .gfxon => 0x41
  | .gfxoff => 0x42
  | .present => 0x43
  | .wrtext .. => 0x44

/-- The low 16 bits of a coordinate in two's complement. -/
def low16 (x : Int) : Nat := (x % 65536).toNat

/-- A point word, `y[15:0] ++ x[15:0]` (`30_encoding.md` R73). -/
def pointWord (x y : Int) : Word := BitVec.ofNat 32 (low16 y * 65536 + low16 x)

/-- The header's bits [23:0] of a command (`30_encoding.md` R72, R74). -/
def Instr.headerLow : Instr → Nat
  | .clear v => v.toNat
  | .setpix _ _ v b => b.code * 2 + v.toNat
  | .getpix _ _ => 0
  | .blit _ _ b _ _ _ => b.code * 2
  | .line _ _ _ _ v => v.toNat
  | .rect _ _ _ _ f v => f.code * 8 + v.toNat
  | .circle _ _ _ f v => f.code * 8 + v.toNat
  | .tri _ _ _ _ _ _ f v => f.code * 8 + v.toNat
  | .text _ _ font size threshold _ => size.toNat * 65536 + font.toNat * 256 + threshold.toNat
  | .reset => 0
  | .gfxon => 0
  | .gfxoff => 0
  | .present => 0
  | .wrtext row col _ => col * 256 + row

/-- The operand words `W[1]`, `W[2]`, ... of a command (`30_encoding.md` R73, R74). -/
def Instr.operandWords : Instr → List Word
  | .clear _ => []
  | .setpix x y _ _ => [pointWord x y]
  | .getpix x y => [pointWord x y]
  | .blit x y _ w h payload => pointWord x y :: BitVec.ofNat 32 (h * 256 + w) :: payload
  | .line x0 y0 x1 y1 _ => [pointWord x0 y0, pointWord x1 y1]
  | .rect x0 y0 x1 y1 _ _ => [pointWord x0 y0, pointWord x1 y1]
  | .circle cx cy r _ _ => [pointWord cx cy, BitVec.ofNat 32 (low16 r)]
  | .tri x0 y0 x1 y1 x2 y2 _ _ => [pointWord x0 y0, pointWord x1 y1, pointWord x2 y2]
  | .text x y _ _ _ chars => pointWord x y :: chars
  | .reset => []
  | .gfxon => []
  | .gfxoff => []
  | .present => []
  | .wrtext _ _ chars => chars

/-- The packet of a well-formed command (`30_encoding.md` R74). -/
def encode (i : Instr) : Packet where
  header := BitVec.ofNat 32 (i.opcode * 16777216 + i.headerLow)
  operands := i.operandWords

/-! The opcode table's rows, and a table word as a packet. -/

/-- One row of `spec/opcode_table.json`: a header matches it when `W[0] & mask = match` (`30_encoding.md` R77). -/
structure OpcodeRow where
  mnemonic : String
  matchBits : Word
  maskBits : Word
  deriving DecidableEq, Repr

/-- The fourteen rows of `spec/opcode_table.json`. -/
def opcodeTable : List OpcodeRow := [
  ⟨"CLEAR", 0x01000000, 0xFFFFFFFE⟩,
  ⟨"SETPIX", 0x02000000, 0xFFFFFFF8⟩,
  ⟨"GETPIX", 0x03000000, 0xFFFFFFFF⟩,
  ⟨"BLIT", 0x04000000, 0xFFFFFFF9⟩,
  ⟨"LINE", 0x10000000, 0xFFFFFFFE⟩,
  ⟨"RECT", 0x11000000, 0xFFFFFFF6⟩,
  ⟨"CIRCLE", 0x12000000, 0xFFFFFFF6⟩,
  ⟨"TRI", 0x13000000, 0xFFFFFFF6⟩,
  ⟨"TEXT", 0x20000000, 0xFF000000⟩,
  ⟨"RESET", 0x40000000, 0xFFFFFFFF⟩,
  ⟨"GFXON", 0x41000000, 0xFFFFFFFF⟩,
  ⟨"GFXOFF", 0x42000000, 0xFFFFFFFF⟩,
  ⟨"PRESENT", 0x43000000, 0xFFFFFFFF⟩,
  ⟨"WRTEXT", 0x44000000, 0xFFFF0000⟩]

/-- The header matches the row. -/
def OpcodeRow.matches (r : OpcodeRow) (header : Word) : Bool := decide (header &&& r.maskBits = r.matchBits)

/-- How many operand words R74 asks for, from the header and the size word that a `BLIT` has as its second operand
(the least number, for `TEXT` and `WRTEXT`). -/
def operandCount (header w2 : Word) : Nat :=
  match slice header 31 24 with
  | 0x02 => 1
  | 0x03 => 1
  | 0x04 => 2 + slice w2 15 8 * wordsPerRow (slice w2 7 0)
  | 0x10 => 2
  | 0x11 => 2
  | 0x12 => 2
  | 0x13 => 3
  | 0x20 => 1
  | _ => 0

/-- Word `i` of a number whose bit 0 is the least significant bit of the first 32-bit word. -/
def tableWord (w i : Nat) : Word := BitVec.ofNat 32 (w / 2 ^ (32 * i))

/-- The packet whose bits are `w`, numbered as the opcode table numbers them: the words `w` gives, and then words of
zeros up to the length R74 asks for (log 8). -/
def packetOfTableWord (nbits w : Nat) : Packet :=
  let header := tableWord w 0
  let given := (nbits + 31) / 32 - 1
  let needed := operandCount header (if 2 ≤ given then tableWord w 2 else 0)
  { header := header
    operands := (List.range (max given needed)).map fun i => if i < given then tableWord w (i + 1) else 0 }

/-- The command the decoder reads from the bits `w` of an opcode-table row. -/
def decodeTableWord (nbits w : Nat) : Option Instr :=
  match decode (packetOfTableWord nbits w) with
  | .instr i => some i
  | .illegal _ => none

end Sys2Proof
end

