-- ==== Sys2Proof/Machine/State.lean ====
section
/-! DEFINITION. The state of the engine as plain data (`10_state.md`), with the ports' inputs and outputs beside it
(`00_scope.md` R7, `10_state.md` R32), the reasons a step can stop, and the state at power-on (`10_state.md` R31). -/

namespace Sys2Proof.Machine

/-- The mode register (`10_state.md` R22): `UNINITIALIZED` = 0, `TEXT` = 1, `GRAPHICS` = 2, `ERROR` = 3. It lives
inside the engine and is read as a number in the response word only (`Mode.code`). -/
inductive Mode where
  | uninitialized
  | text
  | graphics
  | error
  deriving DecidableEq, Repr

/-- The alphabet of the Transport trace (`10_state.md` R30). -/
inductive TxEvent where
  /-- `SEL`. -/
  | sel
  /-- `DESEL`. -/
  | desel
  /-- `RSTPULSE`. -/
  | rstPulse
  /-- `BYTE(b)`: a byte the Transport accepted. -/
  | byte (b : Byte)
  /-- `FAIL(b)`: a byte the Transport answered `fail` to. -/
  | fail (b : Byte)
  deriving DecidableEq, Repr

/-- A request at the GlyphSource port, `GlyphQuery(font, size, ch)` (`60_exceptions.md` R205). -/
structure GlyphQuery where
  font : Byte
  size : Byte
  ch : Word
  deriving DecidableEq, Repr

/-- The contents of the frame buffer as the packed view (`20_memory.md` R42): byte `16 * y + k`, in one canonical
form (`Memory.wf`). -/
abbrev Memory := List Host.Cell

/-- What an address not listed in a `Memory` reads as. It is the convention of the list, not a claim about the
hardware: `State.powerOn` lists what `FB_POWERON` gives every address (log 1). -/
def Memory.unlisted : Byte := 0

/-- The entries' addresses strictly rise from `lo` on, and no entry equals what an unlisted address reads as. -/
def Memory.wfFrom : Nat → Memory → Bool
  | _, [] => true
  | lo, (a, v) :: m => decide (lo ≤ a) && decide (a < fbBytes) && decide (v ≠ Memory.unlisted) && Memory.wfFrom (a + 1) m

/-- The canonical form: addresses below 1024 strictly rise and no entry is one that an unlisted address reads as, so
that equal contents are equal lists. -/
def Memory.wf (m : Memory) : Bool := Memory.wfFrom 0 m

/-- The canonical memory whose byte `a` is `f a`, for every address of the frame buffer. -/
def Memory.ofBytes (f : Nat → Byte) : Memory :=
  ((List.range fbBytes).map fun a => (a, f a)).filter fun c => decide (c.2 ≠ Memory.unlisted)

/-- The state. -/
@[ext]
structure State where
  /-- The mode register (`10_state.md` R22). -/
  mode : Mode
  /-- The frame buffer (`10_state.md` R24). -/
  fb : Memory
  /-- `ga_valid` (`10_state.md` R26). -/
  gaValid : Bool
  /-- `ga_v`, the last vertical GDRAM address set. -/
  gaV : BitVec 5
  /-- `ga_h`, the last horizontal GDRAM word address set. -/
  gaH : BitVec 4
  /-- `dd_valid`. -/
  ddValid : Bool
  /-- `dd_addr`, the last text-memory address set. -/
  ddAddr : BitVec 7
  /-- The select latch (`10_state.md` R28). -/
  sel : Bool
  /-- The Transport trace, oldest event first (`10_state.md` R30). -/
  trace : List TxEvent
  /-- The response words returned so far, oldest first (`30_encoding.md` R76). -/
  responses : List Word
  /-- The packets the host has still to hand over, next one first (`10_state.md` R21, R32). -/
  packets : List Packet
  /-- The Transport's next answers, `true` for `ok` (`60_exceptions.md` R204). -/
  txAnswers : List Bool
  /-- The Transport never answers again after `txAnswers` (`60_exceptions.md` R204). -/
  txSilent : Bool
  /-- The model's own counter: how many free Transport answers have been drawn. -/
  txDrawn : Nat
  /-- The GlyphSource's next answers (`60_exceptions.md` R205). -/
  glyphAnswers : List GlyphAnswer
  /-- The GlyphSource never answers again after `glyphAnswers` (`60_exceptions.md` R205). -/
  glyphSilent : Bool
  /-- The model's own counter: how many free GlyphSource answers have been drawn. -/
  glyphDrawn : Nat
  /-- The queries made at the GlyphSource port, oldest first. -/
  glyphQueries : List GlyphQuery
  /-- The configuration (`00_scope.md` R5); no step changes it. -/
  cfg : Config
  deriving DecidableEq, Repr

/-- Why a step can stop: a port of the environment never answers, so the command never completes
(`93_implementation_defined.md` U18, treatment `stuck`). No error of the hardware is here: those are responses. -/
inductive Fault where
  /-- The Transport does not answer a `TxWrite` (`60_exceptions.md` R204). Raised by `RESET`, `GFXON`, `GFXOFF`,
  `PRESENT` and `WRTEXT`, only when `txSilent`. Safe: the hardware waits forever too. -/
  | transportSilent
  /-- The GlyphSource does not answer a query (`60_exceptions.md` R205). Raised by `TEXT`, only when `glyphSilent`.
  Safe: the hardware waits forever too. -/
  | glyphSourceSilent
  deriving DecidableEq, Repr

/-- Why a step can be refused by the model. -/
inductive Refusal where
  /-- A command without a meaning in the model. Raised by no arm of `exec`: every command has its meaning. Safe. -/
  | notModelled (mnemonic : String)
  deriving DecidableEq, Repr

/-- The state at power-on of an engine with a given configuration (`10_state.md` R31, `70_reset_and_hazards.md` R210).
The frame buffer holds the configuration's `FB_POWERON` (log 1); the three address fields the spec calls unspecified
are 0 (DESIGN CHOICE, log 2); the ports hold nothing and both answer (logs 3 to 6). -/
def State.powerOn (c : Config) : State where
  mode := .uninitialized
  fb := Memory.ofBytes c.powerOnByte
  gaValid := false
  gaV := 0
  gaH := 0
  ddValid := false
  ddAddr := 0
  sel := false
  trace := []
  responses := []
  packets := []
  txAnswers := []
  txSilent := false
  txDrawn := 0
  glyphAnswers := []
  glyphSilent := false
  glyphDrawn := 0
  glyphQueries := []
  cfg := c

/-- The state right after power-on: the configuration is R5's with its defaults, and its three `OPEN` parameters are
free values (log 7). -/
def State.reset : State :=
  State.powerOn (Config.standard Config.freeDefaultAdvance Config.freeResetPulse Config.freeFbPowerOn)

end Sys2Proof.Machine
end

