-- ==== Sys2Proof/Machine/Flags.lean ====
section
/-! DEFINITION. The status of a command and the response word. The engine has no condition codes (`10_state.md`
R25): the status in the response word is all a command reports. -/

namespace Sys2Proof.Machine

/-- The status codes (`60_exceptions.md` R190). -/
inductive Status where
  | ok
  | transportError
  | notReady
  | wrongMode
  | badOperand
  | illegalCommand
  deriving DecidableEq, Repr

/-- The number of a status (`30_encoding.md` R76, `60_exceptions.md` R190). -/
def Status.code : Status → Nat
  | .ok => 0
  | .transportError => 1
  | .notReady => 2
  | .wrongMode => 3
  | .badOperand => 4
  | .illegalCommand => 5

/-- The number of a mode (`10_state.md` R22). -/
def Mode.code : Mode → Nat
  | .uninitialized => 0
  | .text => 1
  | .graphics => 2
  | .error => 3

/-- The response word `val<<8 | mode<<4 | s` (`30_encoding.md` R76). -/
def responseWord (status : Status) (mode : Mode) (value : Pixel) : Word :=
  BitVec.ofNat 32 (value.toNat * 256 + mode.code * 16 + status.code)

/-- `Respond(status, value)`: end the command with the response word built from the mode register as it stands
(`00_scope.md` R10, `30_encoding.md` R76). -/
def State.respond (s : State) (status : Status) (value : Pixel) : State :=
  { s with responses := s.responses ++ [responseWord status s.mode value] }

end Sys2Proof.Machine
end

