-- ==== Sys2Proof/Machine/Ops.lean ====
section
/-! DEFINITION. The named operations over the state: bytes and pixels of the frame buffer, the address translation,
the ports, the TransportError abort, and the script of port operations a protocol command runs. -/

namespace Sys2Proof.Machine

/-! ## Bytes of the frame buffer (`20_memory.md` R42) -/

/-- Read one byte. -/
def Memory.read : Memory → Nat → Byte
  | [], _ => Memory.unlisted
  | (b, v) :: m, a => if a = b then v else Memory.read m a

/-- Write one byte, keeping the canonical form. -/
def Memory.write : Memory → Nat → Byte → Memory
  | [], a, v => if v = Memory.unlisted then [] else [(a, v)]
  | (b, w) :: m, a, v =>
      if a < b then (if v = Memory.unlisted then (b, w) :: m else (a, v) :: (b, w) :: m)
      else if a = b then (if v = Memory.unlisted then m else (a, v) :: m)
      else (b, w) :: Memory.write m a v

/-- `FBBYTE(y,k)` (`20_memory.md` R42). -/
def Memory.fbByte (m : Memory) (y k : Nat) : Byte := m.read (rowBytes * y + k)

/-- `ExportRows()` (`40_framebuffer.md` R108): row 0 first, within a row the leftmost byte first. -/
def Memory.exportRows (m : Memory) : List Byte :=
  (List.range fbHeight).flatMap fun y => (List.range rowBytes).map fun k => m.fbByte y k

/-! ## Pixels (`00_scope.md` R9) -/

/-- The byte `b` with bit `i` made `v`. -/
def withBit (b : Byte) (i : Nat) (v : Bool) : Byte :=
  if v then b ||| BitVec.twoPow 8 i else b &&& ~~~(BitVec.twoPow 8 i)

/-- The bit of a packed byte that holds column `x`: the leftmost of eight pixels is bit 7 (`20_memory.md` R42). -/
def pixelBit (x : Nat) : Nat := 7 - x % 8

/-- `fb[x,y]` for an in-range pixel: bit `7 - (x mod 8)` of `FBBYTE(y, x div 8)` (`20_memory.md` R42). -/
def Memory.getPixel (m : Memory) (x y : Nat) : Pixel := (m.fbByte y (x / 8)).getLsbD (pixelBit x)

/-- `fb[x,y] <- v` for an in-range pixel. -/
def Memory.setPixel (m : Memory) (x y : Nat) (v : Pixel) : Memory :=
  m.write (rowBytes * y + x / 8) (withBit (m.fbByte y (x / 8)) (pixelBit x) v)

/-- `InRange(x,y)` (`20_memory.md` R41). -/
abbrev InRange (x y : Int) : Prop := (0 ≤ x ∧ x ≤ 127) ∧ (0 ≤ y ∧ y ≤ 63)

/-- `Blend(b, old, v)`, the table of `40_framebuffer.md` R101. -/
def blendPixel : Blend → Pixel → Pixel → Pixel
  | .set, _, v => v
  | .clear, old, v => old && !v
  | .xor, old, v => old != v
  | .and, old, v => old && v

/-- `Get(x, y)`: out-of-range reads return 0 (`40_framebuffer.md` R106). -/
def Memory.get (m : Memory) (x y : Int) : Pixel :=
  if InRange x y then m.getPixel x.toNat y.toNat else false

/-- `Plot(x, y, v, b)`, the one and only way a pixel is written: out-of-range coordinates are no-ops
(`40_framebuffer.md` R103), so they never corrupt memory (R110 (c)); a `Get` of the pixel after a `SET` gives the value
written (R110 (a)). -/
def Memory.plot (m : Memory) (blend : Blend) (x y : Int) (v : Pixel) : Memory :=
  if InRange x y then m.setPixel x.toNat y.toNat (blendPixel blend (m.getPixel x.toNat y.toNat) v) else m

/-- One incoming pixel: where, and its value. -/
structure Dot where
  x : Int
  y : Int
  v : Pixel
  deriving DecidableEq, Repr

/-- `Plot` each of a list of incoming pixels, in order, under one blend mode. -/
def Memory.plotDots (m : Memory) (blend : Blend) : List Dot → Memory
  | [] => m
  | d :: ds => (m.plot blend d.x d.y d.v).plotDots blend ds

/-- `Plot` each pixel of a list with one value and blend `SET`: how every rasterizer command draws
(`41_rasterizer.md` R136). -/
def Memory.draw (m : Memory) (pts : List (Int × Int)) (v : Pixel) : Memory :=
  m.plotDots .set (pts.map fun p => ⟨p.1, p.2, v⟩)

/-- Every pixel becomes `v` (`40_framebuffer.md` R102), whatever the frame buffer held, so twice is once (R110 (b)). -/
def Memory.filled (v : Pixel) : Memory := Memory.ofBytes fun _ => if v then 0xFF else 0x00

/-! ## The controller's addresses -/

/-- The vertical GDRAM address of display row `y` (`20_memory.md` R46, R47). -/
def gdV (y : Nat) : Nat := y % gdRows

/-- `H0`, the horizontal word address where display row `y` starts (`20_memory.md` R47). -/
def gdH0 (c : Config) (y : Nat) : Nat := c.hBottom.toNat * (y / gdRows)

/-- A pixel's place in the GDRAM: vertical address, horizontal word address, byte of the word (0 the left one, sent
first), bit of the byte (`20_memory.md` R46). -/
structure GdPlace where
  v : Nat
  h : Nat
  byte : Nat
  bit : Nat
  deriving DecidableEq, Repr

/-- `GdAddr(x,y)` (`20_memory.md` R46). -/
def gdAddr (c : Config) (x y : Nat) : GdPlace where
  v := gdV y
  h := x / 16 + gdH0 c y
  byte := x / 8 % 2
  bit := pixelBit x

/-! ## The Transport port (`60_exceptions.md` R204) -/

/-- Append one event to the Transport trace (`10_state.md` R30). -/
def State.emit (s : State) (e : TxEvent) : State := { s with trace := s.trace ++ [e] }

/-- `TxSelect()` (`00_scope.md` R10, `10_state.md` R28). -/
def State.txSelect (s : State) : State := { s with sel := true, trace := s.trace ++ [.sel] }

/-- `TxDeselect()` (`00_scope.md` R10, `10_state.md` R28). -/
def State.txDeselect (s : State) : State := { s with sel := false, trace := s.trace ++ [.desel] }

/-- `TxResetPulse()` (`00_scope.md` R10); its duration is no part of the trace (`60_exceptions.md` R204). -/
def State.txResetPulse (s : State) : State := s.emit .rstPulse

/-- The answer the next `TxWrite` gets, `true` for `ok`: the next listed one, or a free value. -/
def State.txAnswer (s : State) : Bool :=
  match s.txAnswers with
  | a :: _ => a
  | [] => Config.freeTxAnswer s.txDrawn

/-- The answer is used up. -/
def State.txAnswered (s : State) : State :=
  match s.txAnswers with
  | _ :: rest => { s with txAnswers := rest }
  | [] => { s with txDrawn := s.txDrawn + 1 }

/-- A Transport that goes silent leaves a command with `n` bytes to write waiting: it answers `ok` to all that is
listed and the list is too short (`60_exceptions.md` R204). -/
def State.txStalls (s : State) (n : Nat) : Bool :=
  s.txSilent && s.txAnswers.all id && decide (s.txAnswers.length < n)

/-! ## Taking the one exception -/

/-- The TransportError abort (`60_exceptions.md` R196): release select if it is asserted, clear both valid bits,
`mode <- ERROR`, and respond. Nothing is saved, and the only way back is the `RESET` command (R197). -/
def State.transportAbort (s : State) : State :=
  let s1 := if s.sel then s.txDeselect else s
  ({ s1 with gaValid := false, ddValid := false, mode := .error }).respond .transportError false

/-! ## What a protocol command does, as a script -/

/-- One operation of a protocol-engine command. -/
inductive PeOp where
  /-- `TxResetPulse()`. -/
  | pulse
  /-- `TxSelect()`. -/
  | select
  /-- `TxDeselect()`. -/
  | deselect
  /-- `TxWrite(b)`. -/
  | write (b : Byte)
  /-- `ga_valid <- 0; dd_valid <- 0`. -/
  | invalidate
  /-- `ga <- (V, H)` (`10_state.md` R26). -/
  | setGa (v : BitVec 5) (h : BitVec 4)
  /-- `dd <- a` (`10_state.md` R26). -/
  | setDd (a : BitVec 7)
  /-- `mode <- m`. -/
  | setMode (m : Mode)
  deriving DecidableEq, Repr

/-- Run a script to its end and respond `OK`, or abort at the first byte the Transport refuses
(`43_protocol.md` R162, `60_exceptions.md` R196). -/
def runScript : List PeOp → State → State
  | [], s => s.respond .ok false
  | .pulse :: k, s => runScript k s.txResetPulse
  | .select :: k, s => runScript k s.txSelect
  | .deselect :: k, s => runScript k s.txDeselect
  | .write b :: k, s =>
      if s.txAnswer then runScript k (s.txAnswered.emit (.byte b))
      else (s.txAnswered.emit (.fail b)).transportAbort
  | .invalidate :: k, s => runScript k { s with gaValid := false, ddValid := false }
  | .setGa v h :: k, s => runScript k { s with gaV := v, gaH := h, gaValid := true }
  | .setDd a :: k, s => runScript k { s with ddAddr := a, ddValid := true }
  | .setMode m :: k, s => runScript k { s with mode := m }

/-- How many bytes a script hands to the Transport. -/
def writeCount : List PeOp → Nat
  | [] => 0
  | .write _ :: k => writeCount k + 1
  | .pulse :: k => writeCount k
  | .select :: k => writeCount k
  | .deselect :: k => writeCount k
  | .invalidate :: k => writeCount k
  | .setGa _ _ :: k => writeCount k
  | .setDd _ :: k => writeCount k
  | .setMode _ :: k => writeCount k

/-- A protocol command runs its script, unless the Transport never answers (`60_exceptions.md` R204). -/
def protocolRun (script : List PeOp) (s : State) : Host.Outcome State Fault Refusal :=
  if s.txStalls (writeCount script) then .fault .transportSilent else .next (runScript script s)

/-- `Frame(rs, b)`: the 3 bytes of one serial frame (`30_encoding.md` R82). -/
def frame (rs : Bool) (b : Byte) : List Byte :=
  [syncBase ||| (if rs then 0x02 else 0x00), b &&& 0xF0, (b <<< 4) &&& 0xF0]

/-- `SendFrame(rs, b)`: one `TxWrite` per byte, in order (`43_protocol.md` R162). -/
def sendFrame (rs : Bool) (b : Byte) : List PeOp := (frame rs b).map .write

/-- `SendCmd(b)`. -/
def sendCmd (b : Byte) : List PeOp := sendFrame false b

/-- `SendData(b)`. -/
def sendData (b : Byte) : List PeOp := sendFrame true b

/-! ## The GlyphSource port (`60_exceptions.md` R205) -/

/-- The answer the next query gets: the next listed one, or a free value. -/
def State.glyphAnswer (s : State) (q : GlyphQuery) : GlyphAnswer :=
  match s.glyphAnswers with
  | g :: _ => g
  | [] => Config.freeGlyphAnswer s.glyphDrawn q.font q.size q.ch

/-- The query is made and its answer used up. -/
def State.glyphAnswered (s : State) (q : GlyphQuery) : State :=
  match s.glyphAnswers with
  | _ :: rest => { s with glyphAnswers := rest, glyphQueries := s.glyphQueries ++ [q] }
  | [] => { s with glyphDrawn := s.glyphDrawn + 1, glyphQueries := s.glyphQueries ++ [q] }

/-- A GlyphSource that goes silent leaves a command with `n` queries waiting (`60_exceptions.md` R205). -/
def State.glyphStalls (s : State) (n : Nat) : Bool := s.glyphSilent && decide (s.glyphAnswers.length < n)

/-! ## The command port (`30_encoding.md` R71, R77) -/

/-- The engine, idle, takes the next packet of the host, if one is offered. -/
def State.fetch (s : State) : Option (Packet × State) :=
  match s.packets with
  | [] => none
  | p :: rest => some (p, { s with packets := rest })

/-- A packet `Decode` rejects: respond, and nothing else (`30_encoding.md` R77, `60_exceptions.md` R195). -/
def State.illegalCommand (s : State) : State := s.respond .illegalCommand false

end Sys2Proof.Machine
end

