-- ==== Sys2Proof/Machine/Operands.lean ====
section
/-! DEFINITION. The operand forms: the `BLIT` payload, the radius, a glyph's thresholded bitmap, and the operands of
`WRTEXT`. -/

namespace Sys2Proof.Machine

/-- `Src(i,j)` of a `BLIT` payload `w` pixels wide (`30_encoding.md` R84): the leftmost pixel of each group of 32 is
bit 31; padding bits are never looked at. -/
def blitSrc (payload : List Word) (w i j : Nat) : Pixel :=
  bitAt (payload.getD (j * wordsPerRow w + i / 32) 0) (31 - i % 32)

/-- The incoming pixels of a bitmap of `w` by `h` pixels placed with its top-left pixel at `(x, y)`, top row first,
left pixel first (`40_framebuffer.md` R107). -/
def bitmapDots (x y : Int) (w h : Nat) (src : Nat → Nat → Pixel) : List Dot :=
  (List.range h).flatMap fun (j : Nat) => (List.range w).map fun (i : Nat) => ⟨x + i, y + j, src i j⟩

/-- `r' = max(r, 0)` (`41_rasterizer.md` R126). -/
def clampRadius (r : Int) : Int := max r 0

/-- The 1-bit glyph bitmap: coverage at least the threshold gives 1, both unsigned (`42_text.md` R152). The default
of `getD` is never taken inside the box, for `cov` has `w * h` bytes. -/
def glyphBit (threshold : Byte) (g : Glyph) (k j : Nat) : Pixel :=
  decide (threshold.toNat ≤ (g.cov.getD (j * g.w.toNat + k) 0).toNat)

/-- The incoming pixels of one glyph with its top-left pixel at `(cur, y)` (`42_text.md` R151). -/
def glyphDots (cur y : Int) (threshold : Byte) (g : Glyph) : List Dot :=
  bitmapDots cur y g.w.toNat g.h.toNat (glyphBit threshold g)

/-- A `WRTEXT` operand is out of its range: a row above 3, a column above 7, a character above 0x7F
(`43_protocol.md` R170, with `TEXT_ROWS` and `TEXT_CELLS` of the configuration). -/
def wrtextBadOperand (c : Config) (row col : Nat) (chars : List Word) : Bool :=
  decide (c.textRows ≤ row) || decide (c.textCells ≤ col) || chars.any fun ch => decide (0x7F < ch.toNat)

/-- `DD_ROW_BASE[row] + col` (`20_memory.md` R48). -/
def textAddress (c : Config) (row col : Nat) : BitVec 7 := c.ddRowBase.getD row 0 + BitVec.ofNat 7 col

end Sys2Proof.Machine
end

