-- ==== Sys2Proof/Machine/FrameBuffer.lean ====
section
/-! DEFINITION. The frame-buffer commands (`40_framebuffer.md`). None reads or writes `mode`, the shadow registers
or the Transport, and each always answers `OK` (R109). -/

namespace Sys2Proof.Machine

/-- `CLEAR v` (R102). -/
def execClear (v : Pixel) (s : State) : Host.Outcome State Fault Refusal :=
  .next (({ s with fb := Memory.filled v }).respond .ok false)

/-- `SETPIX x, y, v, blend` (R104). -/
def execSetpix (x y : Int) (v : Pixel) (blend : Blend) (s : State) : Host.Outcome State Fault Refusal :=
  .next (({ s with fb := s.fb.plot blend x y v }).respond .ok false)

/-- `GETPIX x, y` (R105): the pixel is bit 8 of the response word. -/
def execGetpix (x y : Int) (s : State) : Host.Outcome State Fault Refusal :=
  .next (s.respond .ok (s.fb.get x y))

/-- `BLIT x, y, blend, w, h, rows` (R107): every source pixel is composited, zeros included. -/
def execBlit (x y : Int) (blend : Blend) (w h : Nat) (payload : List Word) (s : State) :
    Host.Outcome State Fault Refusal :=
  .next (({ s with fb := s.fb.plotDots blend (bitmapDots x y w h (blitSrc payload w)) }).respond .ok false)

end Sys2Proof.Machine
end

