-- ==== Sys2Proof/Machine/Protocol.lean ====
section
/-! DEFINITION. The protocol engine's commands (`43_protocol.md`): the only ones that read or write `mode` and touch
the Transport. Each is a script of port operations, run by `protocolRun`. -/

namespace Sys2Proof.Machine

/-- `Gate()` (R164): refuse in `UNINITIALIZED` and `ERROR`, before any Transport event. -/
def gated (s : State) (k : Host.Outcome State Fault Refusal) : Host.Outcome State Fault Refusal :=
  match s.mode with
  | .uninitialized => .next (s.respond .notReady false)
  | .error => .next (s.respond .notReady false)
  | .text => k
  | .graphics => k

/-- The frames of one select bracket (R171). -/
def bracket (frames : List PeOp) : List PeOp := .select :: frames ++ [.deselect]

/-- The script of `RESET` (R165). -/
def resetScript (c : Config) : List PeOp :=
  [.invalidate, .pulse] ++
    bracket (sendCmd cmdBasic ++ sendCmd c.cmdClear ++ sendCmd c.cmdEntry ++ sendCmd c.cmdDisplayOn) ++
    [.setMode .text]

/-- `RESET` (R165): legal in every mode, and the only way out of `ERROR` (`60_exceptions.md` R197). -/
def execReset (s : State) : Host.Outcome State Fault Refusal := protocolRun (resetScript s.cfg) s

/-- The script of `GFXON` (R166). -/
def gfxonScript (c : Config) : List PeOp := bracket (sendCmd c.cmdGfxOn) ++ [.setMode .graphics]

/-- `GFXON` (R166). -/
def execGfxon (s : State) : Host.Outcome State Fault Refusal := gated s (protocolRun (gfxonScript s.cfg) s)

/-- The script of `GFXOFF` (R167). -/
def gfxoffScript (c : Config) : List PeOp := bracket (sendCmd c.cmdGfxOff) ++ [.setMode .text]

/-- `GFXOFF` (R167). -/
def execGfxoff (s : State) : Host.Outcome State Fault Refusal := gated s (protocolRun (gfxoffScript s.cfg) s)

/-- One row of a `PRESENT` (R168): the two address-set frames, the shadow registers, and the row's sixteen bytes. -/
def rowScript (c : Config) (m : Memory) (y : Nat) : List PeOp :=
  sendCmd (c.cmdSetAddr ||| BitVec.ofNat 8 (gdV y)) ++
    sendCmd (c.cmdSetAddr ||| BitVec.ofNat 8 (gdH0 c y)) ++
    [.setGa (BitVec.ofNat 5 (gdV y)) (BitVec.ofNat 4 (gdH0 c y))] ++
    (List.range rowBytes).flatMap fun k => sendData (m.fbByte y k)

/-- The transfer of a `PRESENT` (R168): 64 rows, top to bottom, in one bracket. -/
def transferScript (c : Config) (m : Memory) : List PeOp :=
  bracket ((List.range fbHeight).flatMap (rowScript c m))

/-- The script of `PRESENT` (R168): in `TEXT` the whole `GFXON` sequence comes first. -/
def presentScript (s : State) : List PeOp :=
  (match s.mode with
    | .text => gfxonScript s.cfg
    | .graphics => []
    | .uninitialized => []
    | .error => []) ++ transferScript s.cfg s.fb

/-- `PRESENT` (R168). -/
def execPresent (s : State) : Host.Outcome State Fault Refusal := gated s (protocolRun (presentScript s) s)

/-- The script of `WRTEXT` (R170). -/
def wrtextScript (c : Config) (row col : Nat) (chars : List Word) : List PeOp :=
  bracket (sendCmd (c.cmdSetAddr ||| (textAddress c row col).setWidth 8) ++ [.setDd (textAddress c row col)] ++
    chars.flatMap fun ch => sendData (ch.setWidth 8))

/-- `WRTEXT row, col, chars` (R170); the statuses in the order of `60_exceptions.md` R200. -/
def execWrtext (row col : Nat) (chars : List Word) (s : State) : Host.Outcome State Fault Refusal :=
  if wrtextBadOperand s.cfg row col chars then .next (s.respond .badOperand false)
  else gated s
    (if s.mode = .graphics then .next (s.respond .wrongMode false)
     else protocolRun (wrtextScript s.cfg row col chars) s)

end Sys2Proof.Machine
end

