-- ==== Sys2Proof/Machine/Raster.lean ====
section
/-! DEFINITION. The rasterizer commands (`41_rasterizer.md`). Each is a list of pixels drawn with blend `SET`
(R136); all arithmetic is exact (`00_scope.md` R13). -/

namespace Sys2Proof.Machine

/-- `for i in a..b` (`00_scope.md` R11): the integers from `a` to `b` in rising order, none when `a > b`. -/
def intRange (a b : Int) : List Int := (List.range (b + 1 - a).toNat).map fun (i : Nat) => a + i

/-! ## Lines -/

/-- The loop of `LinePts` (R120), at `(x, y)` with error term `err`. The first argument is fuel: the number of steps
still to the end, `max(dx, dy)` at the start. Both tests of a step use the same `e2`. -/
def lineLoop (dx dy sy x1 y1 : Int) : Nat → Int → Int → Int → List (Int × Int)
  | 0, x, y, _ => [(x, y)]
  | n + 1, x, y, err =>
      if x = x1 ∧ y = y1 then [(x, y)]
      else
        let e2 := 2 * err
        let stepX := decide (-dy < e2)
        let stepY := decide (e2 < dx)
        let err1 := if stepX then err - dy else err
        let err2 := if stepY then err1 + dx else err1
        (x, y) :: lineLoop dx dy sy x1 y1 n (if stepX then x + 1 else x) (if stepY then y + sy else y) err2

/-- `LinePts` from the canonical first endpoint (R120). -/
def linePtsFrom (x0 y0 x1 y1 : Int) : List (Int × Int) :=
  let dx := x1 - x0
  let dy := (y1 - y0).natAbs
  lineLoop dx dy (if y0 ≤ y1 then 1 else -1) x1 y1 (max dx dy).toNat x0 y0 (dx - dy)

/-- `LinePts(x0, y0, x1, y1)` (R120): smaller `x` first, then smaller `y`. -/
def linePts (x0 y0 x1 y1 : Int) : List (Int × Int) :=
  if x1 < x0 ∨ (x0 = x1 ∧ y1 < y0) then linePtsFrom x1 y1 x0 y0 else linePtsFrom x0 y0 x1 y1

/-- `LINE x0, y0, x1, y1, v` (R121). -/
def execLine (x0 y0 x1 y1 : Int) (v : Pixel) (s : State) : Host.Outcome State Fault Refusal :=
  .next (({ s with fb := s.fb.draw (linePts x0 y0 x1 y1) v }).respond .ok false)

/-! ## Rectangles -/

/-- The pixels with `xa ≤ x ≤ xb` and `ya ≤ y ≤ yb` that lie on the grid: "a model may iterate over that clipped
box alone" (R123). -/
def boxPts (xa ya xb yb : Int) : List (Int × Int) :=
  (intRange (max ya 0) (min yb 63)).flatMap fun y => (intRange (max xa 0) (min xb 127)).map fun x => (x, y)

/-- `FillRect` (R123), corners in any order. -/
def fillRectPts (x0 y0 x1 y1 : Int) : List (Int × Int) :=
  boxPts (min x0 x1) (min y0 y1) (max x0 x1) (max y0 y1)

/-- `OutlineRect` (R124): top, bottom, left, right. -/
def outlineRectPts (x0 y0 x1 y1 : Int) : List (Int × Int) :=
  let xa := min x0 x1
  let xb := max x0 x1
  let ya := min y0 y1
  let yb := max y0 y1
  linePts xa ya xb ya ++ linePts xa yb xb yb ++ linePts xa ya xa yb ++ linePts xb ya xb yb

/-- The pixels of a `RECT` (R125). -/
def rectPts (x0 y0 x1 y1 : Int) : Fill → List (Int × Int)
  | .filled => fillRectPts x0 y0 x1 y1
  | .outline => outlineRectPts x0 y0 x1 y1

/-- `RECT x0, y0, x1, y1, fill, v` (R125). -/
def execRect (x0 y0 x1 y1 : Int) (fill : Fill) (v : Pixel) (s : State) : Host.Outcome State Fault Refusal :=
  .next (({ s with fb := s.fb.draw (rectPts x0 y0 x1 y1 fill) v }).respond .ok false)

/-! ## Circles -/

/-- The loop of `Octant` (R127). The first argument is fuel: the loop ends by `x > y`, at the latest after `r' + 1`
steps. Both updates of `d` use `x` and `y` from before the step. -/
def octantLoop : Nat → Int → Int → Int → List (Int × Int)
  | 0, _, _, _ => []
  | n + 1, x, y, d =>
      if x ≤ y then
        (x, y) ::
          (if d < 0 then octantLoop n (x + 1) y (d + 2 * x + 3)
           else octantLoop n (x + 1) (y - 1) (d + 2 * (x - y) + 5))
      else []

/-- `Octant(r')` (R127). -/
def octant (r : Int) : List (Int × Int) := octantLoop (r.toNat + 1) 0 r (1 - r)

/-- The eight mirrors of an offset (R128). -/
def mirrorPts (cx cy : Int) (p : Int × Int) : List (Int × Int) :=
  [(cx + p.1, cy + p.2), (cx - p.1, cy + p.2), (cx + p.1, cy - p.2), (cx - p.1, cy - p.2),
   (cx + p.2, cy + p.1), (cx - p.2, cy + p.1), (cx + p.2, cy - p.1), (cx - p.2, cy - p.1)]

/-- `OutlineCircle` (R128). -/
def outlineCirclePts (cx cy r : Int) : List (Int × Int) := (octant r).flatMap (mirrorPts cx cy)

/-- One span of a filled circle, "the pixels cx−a ≤ px ≤ cx+a of its row" (R129), clipped to the grid. -/
def spanPts (cx a y : Int) : List (Int × Int) := boxPts (cx - a) y (cx + a) y

/-- The four spans of an octant point (R129). -/
def spansPts (cx cy : Int) (p : Int × Int) : List (Int × Int) :=
  spanPts cx p.1 (cy + p.2) ++ spanPts cx p.1 (cy - p.2) ++ spanPts cx p.2 (cy + p.1) ++ spanPts cx p.2 (cy - p.1)

/-- `FillCircle` (R129): the outline, then the spans. -/
def fillCirclePts (cx cy r : Int) : List (Int × Int) :=
  outlineCirclePts cx cy r ++ (octant r).flatMap (spansPts cx cy)

/-- The pixels of a `CIRCLE` of radius `r` (R130), a negative radius clamped (R126). -/
def circlePts (cx cy r : Int) : Fill → List (Int × Int)
  | .filled => fillCirclePts cx cy (clampRadius r)
  | .outline => outlineCirclePts cx cy (clampRadius r)

/-- `CIRCLE cx, cy, r, fill, v` (R130). -/
def execCircle (cx cy r : Int) (fill : Fill) (v : Pixel) (s : State) : Host.Outcome State Fault Refusal :=
  .next (({ s with fb := s.fb.draw (circlePts cx cy r fill) v }).respond .ok false)

/-! ## Triangles -/

/-- A vertex or pixel. -/
abbrev Point := Int × Int

/-- Twice the signed area (R131). -/
def area2 (p0 p1 p2 : Point) : Int := (p1.1 - p0.1) * (p2.2 - p0.2) - (p2.1 - p0.1) * (p1.2 - p0.2)

/-- The edge function `E(a, b, px, py)` (R131). -/
def edgeFn (a b p : Point) : Int := (b.1 - a.1) * (p.2 - a.2) - (b.2 - a.2) * (p.1 - a.1)

/-- `TopLeft(a, b)` (R131). -/
def topLeft (a b : Point) : Bool := decide (b.2 < a.2 ∨ (b.2 = a.2 ∧ a.1 < b.1))

/-- `Inside(a, b, px, py)` (R131). -/
def insideEdge (a b p : Point) : Bool := decide (0 < edgeFn a b p) || (decide (edgeFn a b p = 0) && topLeft a b)

/-- The three `Inside` tests of a triangle of positive area (R132). -/
def insideTri (p0 p1 p2 p : Point) : Bool := insideEdge p0 p1 p && insideEdge p1 p2 p && insideEdge p2 p0 p

/-- `FillTri` (R132) of a triangle in the fixed winding: the scan is restricted to "the in-range part of the
bounding box". -/
def fillTriWound (p0 p1 p2 : Point) : List (Int × Int) :=
  (boxPts (min p0.1 (min p1.1 p2.1)) (min p0.2 (min p1.2 p2.2))
    (max p0.1 (max p1.1 p2.1)) (max p0.2 (max p1.2 p2.2))).filter (insideTri p0 p1 p2)

/-- `FillTri` with the winding fix of R131. -/
def fillTriPts (p0 p1 p2 : Point) : List (Int × Int) :=
  if area2 p0 p1 p2 < 0 then fillTriWound p0 p2 p1 else fillTriWound p0 p1 p2

/-- The squared length of an edge (R133). -/
def sqLength (a b : Point) : Int := (b.1 - a.1) ^ 2 + (b.2 - a.2) ^ 2

/-- `LinePts` between two vertices. -/
def edgePts (a b : Point) : List (Int × Int) := linePts a.1 a.2 b.1 b.2

/-- `FillTriDegenerate` (R133): the longest edge. -/
def degenerateTriPts (p0 p1 p2 : Point) : List (Int × Int) :=
  if sqLength p1 p2 ≤ sqLength p0 p1 ∧ sqLength p0 p2 ≤ sqLength p0 p1 then edgePts p0 p1
  else if sqLength p0 p2 ≤ sqLength p1 p2 then edgePts p1 p2
  else edgePts p0 p2

/-- `OutlineTri` (R134). -/
def outlineTriPts (p0 p1 p2 : Point) : List (Int × Int) := edgePts p0 p1 ++ edgePts p1 p2 ++ edgePts p2 p0

/-- The pixels of a `TRI` (R135). -/
def triPts (p0 p1 p2 : Point) : Fill → List (Int × Int)
  | .outline => outlineTriPts p0 p1 p2
  | .filled => if area2 p0 p1 p2 = 0 then degenerateTriPts p0 p1 p2 else fillTriPts p0 p1 p2

/-- `TRI x0, y0, x1, y1, x2, y2, fill, v` (R135). -/
def execTri (x0 y0 x1 y1 x2 y2 : Int) (fill : Fill) (v : Pixel) (s : State) : Host.Outcome State Fault Refusal :=
  .next (({ s with fb := s.fb.draw (triPts (x0, y0) (x1, y1) (x2, y2) fill) v }).respond .ok false)

end Sys2Proof.Machine
end

