-- ==== Sys2Proof/Machine/Text.lean ====
section
/-! DEFINITION. The glyph compositor's command (`42_text.md`). It reads and writes nothing of `mode`, the shadow
registers or the Transport (`40_framebuffer.md` R109). -/

namespace Sys2Proof.Machine

/-- How far the cursor moves after a character (`42_text.md` R151, R153). -/
def glyphAdvance (c : Config) : GlyphAnswer → Int
  | .unsupported => c.defaultAdvance
  | .glyph g => g.adv.toNat

/-- The frame buffer after one character at the cursor: nothing is written for an unsupported one
(`42_text.md` R151, R153). -/
def glyphComposite (m : Memory) (cur y : Int) (threshold : Byte) : GlyphAnswer → Memory
  | .unsupported => m
  | .glyph g => m.plotDots .set (glyphDots cur y threshold g)

/-- The loop of `42_text.md` R151: one query per character occurrence, in text order, the cursor an exact integer. -/
def renderText (y : Int) (font size threshold : Byte) : List Word → Int → State → State
  | [], _, s => s
  | ch :: rest, cur, s =>
      let q : GlyphQuery := ⟨font, size, ch⟩
      let g := s.glyphAnswer q
      let s1 := s.glyphAnswered q
      renderText y font size threshold rest (cur + glyphAdvance s.cfg g)
        { s1 with fb := glyphComposite s1.fb cur y threshold g }

/-- `TEXT x, y, font, size, threshold, chars` (`42_text.md` R150). -/
def execText (x y : Int) (font size threshold : Byte) (chars : List Word) (s : State) :
    Host.Outcome State Fault Refusal :=
  if s.glyphStalls chars.length then .fault .glyphSourceSilent
  else .next ((renderText y font size threshold chars x s).respond .ok false)

end Sys2Proof.Machine
end

