-- ==== Sys2Proof/Machine/Dispatch.lean ====
section
/-! DEFINITION. One arm per command. -/

namespace Sys2Proof.Machine

def exec (i : Instr) (s : State) : Host.Outcome State Fault Refusal :=
  match i with
  | .clear v => Sys2Proof.Machine.execClear v s
  | .setpix x y v blend => Sys2Proof.Machine.execSetpix x y v blend s
  | .getpix x y => Sys2Proof.Machine.execGetpix x y s
  | .blit x y blend w h payload => Sys2Proof.Machine.execBlit x y blend w h payload s
  | .line x0 y0 x1 y1 v => Sys2Proof.Machine.execLine x0 y0 x1 y1 v s
  | .rect x0 y0 x1 y1 fill v => Sys2Proof.Machine.execRect x0 y0 x1 y1 fill v s
  | .circle cx cy r fill v => Sys2Proof.Machine.execCircle cx cy r fill v s
  | .tri x0 y0 x1 y1 x2 y2 fill v => Sys2Proof.Machine.execTri x0 y0 x1 y1 x2 y2 fill v s
  | .text x y font size threshold chars => Sys2Proof.Machine.execText x y font size threshold chars s
  | .reset => Sys2Proof.Machine.execReset s
  | .gfxon => Sys2Proof.Machine.execGfxon s
  | .gfxoff => Sys2Proof.Machine.execGfxoff s
  | .present => Sys2Proof.Machine.execPresent s
  | .wrtext row col chars => Sys2Proof.Machine.execWrtext row col chars s

end Sys2Proof.Machine
end

