-- ==== Sys2Proof/Machine/Step.lean ====
section
/-! DEFINITION. One step: the engine takes one packet and executes it to completion (`30_encoding.md` R71, R77), and
the state in which a given packet is the next one. -/

namespace Sys2Proof.Machine

/-- One step. With no packet offered the engine is idle and nothing changes (DEDUCED from `30_encoding.md` R71,
log 3). A packet is decoded before any state is read (R77); an illegal one is answered and consumed. -/
def step (s : State) : Host.Outcome State Fault Refusal :=
  match s.fetch with
  | none => .next s
  | some (p, s1) =>
      match decode p with
      | .instr i => exec i s1
      | .illegal _ => .next s1.illegalCommand

/-- The state in which the host's next packet is the one with the bits `w` of the opcode table (log 8). -/
def State.withFetchWord (s : State) (nbits w : Nat) : State :=
  { s with packets := packetOfTableWord nbits w :: s.packets }

end Sys2Proof.Machine
end

