-- ==== Sys2Proof/Safety.lean ====
section
/-! DEFINITION. What counts as a safe run, in the terms the claims use: the invariant of the state between commands,
the form of the Transport trace, and names for what a claim quantifies over (the answers still to come, the groups of
commands, the reading of a trace by the controller at the far end). No meaning calls anything of this file. -/

namespace Sys2Proof.Machine

/-! ## Groups of commands (`30_encoding.md` R70) -/

/-- The commands of the PE unit: the only ones that read or write `mode` (`10_state.md` R22) or touch the
Transport. -/
def isProtocol : Instr → Bool
  | .clear .. => false
  | .setpix .. => false
  | .getpix .. => false
  | .blit .. => false
  | .line .. => false
  | .rect .. => false
  | .circle .. => false
  | .tri .. => false
  | .text .. => false
  | .reset => true
  | .gfxon => true
  | .gfxoff => true
  | .present => true
  | .wrtext .. => true

/-- The commands whose effect on the frame buffer `20_memory.md` R50 calls idempotent: `CLEAR`, the rasterizer, and
`SETPIX` and `BLIT` unless the blend is `XOR`. -/
def isIdempotent : Instr → Bool
  | .clear .. => true
  | .setpix _ _ _ b => decide (b ≠ .xor)
  | .getpix .. => false
  | .blit _ _ b _ _ _ => decide (b ≠ .xor)
  | .line .. => true
  | .rect .. => true
  | .circle .. => true
  | .tri .. => true
  | .text .. => false
  | .reset => false
  | .gfxon => false
  | .gfxoff => false
  | .present => false
  | .wrtext .. => false

/-- A coordinate that a point word can hold (`30_encoding.md` R73). -/
def Coord16 (x : Int) : Prop := -32768 ≤ x ∧ x ≤ 32767

/-! ## Answers still to come -/

/-- The state after `n` answers of the Transport have been used up, and nothing else. -/
def txAfter : Nat → State → State
  | 0, s => s
  | n + 1, s => txAfter n s.txAnswered

/-- The Transport's answer number `n`, counted from the next one: listed or free. -/
def txNth (n : Nat) (s : State) : Bool := (txAfter n s).txAnswer

/-- The Transport answers the next `n` writes, each with `ok`. -/
def TxAccepts (n : Nat) (s : State) : Prop := s.txStalls n = false ∧ ∀ k, k < n → txNth k s = true

/-- The Transport's first `k` answers are `ok` and the next is `fail`. -/
def TxFailsAt (k : Nat) (s : State) : Prop := (∀ j, j < k → txNth j s = true) ∧ txNth k s = false

/-- The Transport answers `k + 1` writes, the first `k` with `ok` and the last with `fail`. -/
def TxRefuses (k : Nat) (s : State) : Prop := s.txStalls (k + 1) = false ∧ TxFailsAt k s

/-- Both ports answer every request: the fairness premise of `70_reset_and_hazards.md` R215. -/
def PortsAnswer (s : State) : Prop := s.txSilent = false ∧ s.glyphSilent = false

/-! ## The form of the Transport trace -/

/-- The event is an accepted byte. -/
def TxEvent.isByte : TxEvent → Bool
  | .byte _ => true
  | .sel => false
  | .desel => false
  | .rstPulse => false
  | .fail _ => false

/-- The event is a byte offered, accepted or refused. -/
def TxEvent.isOffer : TxEvent → Bool
  | .byte _ => true
  | .fail _ => true
  | .sel => false
  | .desel => false
  | .rstPulse => false

/-- The events of a frame the Transport accepts (`30_encoding.md` R82). -/
def frameEvents (rs : Bool) (b : Byte) : List TxEvent := (frame rs b).map .byte

/-- The events of a bracket with one row group of a `PRESENT` for each row (`43_protocol.md` R169): the two address-set
frames of the row, and a data frame for each of its sixteen bytes. -/
def presentEvents (c : Config) (m : Memory) : List TxEvent :=
  [.sel] ++ ((List.range 64).flatMap fun y =>
    frameEvents false (c.cmdSetAddr ||| BitVec.ofNat 8 (y % 32)) ++
    frameEvents false (c.cmdSetAddr ||| BitVec.ofNat 8 (c.hBottom.toNat * (y / 32))) ++
    (List.range 16).flatMap fun k => frameEvents true (m.fbByte y k)) ++ [.desel]

/-- The events of one bracket of frames in which byte number `k`, counted from 0 over all the events, is refused: those
before that byte as they are, then the byte as `FAIL`, then the release of select (`60_exceptions.md` R196). -/
def refusedAt : Nat → List TxEvent → List TxEvent
  | _, [] => []
  | 0, .byte b :: _ => [.fail b, .desel]
  | k + 1, .byte b :: es => .byte b :: refusedAt k es
  | k, .sel :: es => .sel :: refusedAt k es
  | k, .desel :: es => .desel :: refusedAt k es
  | k, .rstPulse :: es => .rstPulse :: refusedAt k es
  | k, .fail b :: es => .fail b :: refusedAt k es

/-- The outcome of a command that the TransportError abort ends at byte number `k` of the events it causes when no byte
is refused (`60_exceptions.md` R196): `mode`, both valid bits, select, the response word 0x31, the trace, and the frame
buffer as it was. -/
def Aborted (k : Nat) (ev : List TxEvent) (s t : State) : Prop :=
  t.mode = .error ∧ t.gaValid = false ∧ t.ddValid = false ∧ t.sel = false ∧ t.responses = s.responses ++ [0x31] ∧
    t.fb = s.fb ∧ t.trace = s.trace ++ refusedAt k ev

/-- Where a reader of the trace is: outside a select bracket, inside it between frames, after the first or the second
byte of a frame, or after a refused byte. -/
inductive TxPhase where
  | idle
  | selected
  | afterSync
  | afterHigh
  | refused
  deriving DecidableEq, Repr

/-- The byte may stand where the phase says: a sync byte with `RW = 0`, or a nibble in the high half
(`30_encoding.md` R82). -/
def byteFits : TxPhase → Byte → Bool
  | .idle, _ => false
  | .selected, b => decide (b = 0xF8) || decide (b = 0xFA)
  | .afterSync, b => decide (b &&& 0x0F = 0)
  | .afterHigh, b => decide (b &&& 0x0F = 0)
  | .refused, _ => false

/-- The phase after an accepted byte. -/
def nextPhase : TxPhase → TxPhase
  | .idle => .idle
  | .selected => .afterSync
  | .afterSync => .afterHigh
  | .afterHigh => .selected
  | .refused => .refused

/-- Reading one event; `none` where the event may not stand there: a byte outside a bracket, a byte that is no part
of a frame, a release in the middle of a frame, a reset pulse inside a bracket (`43_protocol.md` R162, R171). -/
def phaseStep : TxPhase → TxEvent → Option TxPhase
  | .idle, .rstPulse => some .idle
  | .idle, .sel => some .selected
  | .selected, .desel => some .idle
  | .refused, .desel => some .idle
  | p, .byte b => if byteFits p b then some (nextPhase p) else none
  | p, .fail b => if byteFits p b then some .refused else none
  | _, _ => none

/-- Reading a list of events. -/
def phaseAfter : TxPhase → List TxEvent → Option TxPhase
  | p, [] => some p
  | p, e :: es => (phaseStep p e).bind fun q => phaseAfter q es

/-- The whole trace is made of reset pulses and complete select brackets of 3-byte frames, each bracket cut short by
at most one refused byte (`43_protocol.md` R162, R171, `60_exceptions.md` R196). -/
def WellFramed (trace : List TxEvent) : Prop := phaseAfter .idle trace = some .idle

/-! ## The invariant -/

/-- A word that `Respond` can build: its reserved bits are 0, its status is 0 to 5, its mode field is a mode, and its
value bit is 1 only beside `OK` (`30_encoding.md` R76). -/
def ResponseOk (q : Word) : Prop :=
  slice q 2 0 ≤ 5 ∧ slice q 3 3 = 0 ∧ slice q 7 6 = 0 ∧ slice q 31 9 = 0 ∧ (slice q 8 8 = 1 → slice q 2 0 = 0)

/-- What holds of the engine between commands. -/
structure Inv (s : State) : Prop where
  /-- The frame buffer keeps its canonical form: no pixel off the grid is ever written (`10_state.md` R24). -/
  fb_wf : s.fb.wf = true
  /-- Select is released between commands (`10_state.md` R28). -/
  sel_low : s.sel = false
  /-- The trace is made of whole brackets and frames. -/
  well_framed : WellFramed s.trace
  /-- Without a completed `RESET` no shadow register is valid (`10_state.md` R27, R31, `60_exceptions.md` R196). -/
  shadows_invalid : s.mode = .uninitialized ∨ s.mode = .error → s.gaValid = false ∧ s.ddValid = false
  /-- A valid GDRAM shadow holds the last row of a whole `PRESENT` (`10_state.md` R27). -/
  ga_last_row : s.gaValid = true → s.gaV = 31 ∧ s.gaH = s.cfg.hBottom
  /-- A valid text shadow holds the address of some row and column (`10_state.md` R27, `20_memory.md` R48). -/
  dd_cell : s.ddValid = true →
    ∃ row col, row < s.cfg.textRows ∧ col < s.cfg.textCells ∧ s.ddAddr = textAddress s.cfg row col
  /-- Every response word has the form of `30_encoding.md` R76. -/
  responses_ok : ∀ q ∈ s.responses, ResponseOk q

/-! ## Circles (`41_rasterizer.md` R128, R129) -/

/-- The pixel `dx` columns and `dy` rows from the centre is one of the circle's with these octant points: mirrored from
one, or, filled, on the span between two mirrors. -/
def OnCircle (f : Fill) (dx dy : Int) (octant : List (Int × Int)) : Prop :=
  ∃ a b, (a, b) ∈ octant ∧
    ((dx = a ∧ dy = b) ∨ (dx = b ∧ dy = a) ∨ (f = .filled ∧ ((dx ≤ a ∧ dy = b) ∨ (dx ≤ b ∧ dy = a))))

/-! ## Text boxes (`42_text.md` R154) -/

/-- A box of pixels. -/
structure Box where
  x : Int
  y : Int
  w : Nat
  h : Nat
  deriving DecidableEq, Repr

/-- The pixel lies in the box. -/
def Box.Holds (b : Box) (px py : Int) : Prop := (b.x ≤ px ∧ px < b.x + b.w) ∧ (b.y ≤ py ∧ py < b.y + b.h)

/-- The glyph boxes of a `TEXT` with its cursor at `cur`: one for each supported character, at the cursor. -/
def textBoxes (y : Int) (font size : Byte) : List Word → Int → State → List Box
  | [], _, _ => []
  | ch :: rest, cur, s =>
      let q : GlyphQuery := ⟨font, size, ch⟩
      let boxes := textBoxes y font size rest (cur + glyphAdvance s.cfg (s.glyphAnswer q)) (s.glyphAnswered q)
      match s.glyphAnswer q with
      | .unsupported => boxes
      | .glyph g => ⟨cur, y, g.w.toNat, g.h.toNat⟩ :: boxes

/-! ## Pixels a command does not write (`40_framebuffer.md` R110) -/

/-- The command, run at the state, writes no pixel at `(x, y)`: it writes none at all, or its shape misses that place. -/
def Misses (x y : Int) : Instr → State → Prop
  | .clear _, _ => False
  | .setpix a b _ _, _ => ¬(a = x ∧ b = y)
  | .getpix _ _, _ => True
  | .blit a b _ w h _, _ => ¬Box.Holds ⟨a, b, w, h⟩ x y
  | .line x0 y0 x1 y1 _, _ => (x, y) ∉ linePts x0 y0 x1 y1
  | .rect x0 y0 x1 y1 f _, _ => (x, y) ∉ rectPts x0 y0 x1 y1 f
  | .circle cx cy r f _, _ => (x, y) ∉ circlePts cx cy r f
  | .tri x0 y0 x1 y1 x2 y2 f _, _ => (x, y) ∉ triPts (x0, y0) (x1, y1) (x2, y2) f
  | .text a b font size _ chars, s => ∀ box ∈ textBoxes b font size chars a s, ¬box.Holds x y
  | .reset, _ => True
  | .gfxon, _ => True
  | .gfxoff, _ => True
  | .present, _ => True
  | .wrtext _ _ _, _ => True

/-- The commands run from the first state to the second, and none of them writes the pixel at `(x, y)`. -/
def RunMisses (x y : Int) : List Instr → State → State → Prop
  | [], s, u => u = s
  | i :: is, s, u => Misses x y i s ∧ ∃ t, exec i s = .next t ∧ RunMisses x y is t u

/-! ## The controller at the far end, as a reader of frames (`20_memory.md` R44, R45) -/

/-- The frames of a list of events: the register-select bit and the source byte (`30_encoding.md` R82 read
backwards). -/
def wireFrames : List TxEvent → List (Bool × Byte)
  | .byte sync :: .byte hi :: .byte lo :: rest => (decide (sync = 0xFA), hi ||| (lo >>> 4)) :: wireFrames rest
  | _ :: rest => wireFrames rest
  | [] => []

/-- What the frames of a transfer put into the GDRAM: an address-set is a vertical and then a horizontal command
frame; each data byte goes to the word addressed, left byte first, and the horizontal address rises after the right
byte. Each result is (V, H, byte of the word) and the byte put there. -/
def gdramWrites (expectH : Bool) (v h : Nat) (right : Bool) : List (Bool × Byte) → List ((Nat × Nat × Nat) × Byte)
  | [] => []
  | (false, b) :: fs =>
      if expectH then gdramWrites false v (b.toNat % 16) false fs else gdramWrites true (b.toNat % 32) h false fs
  | (true, b) :: fs =>
      ((v, h, right.toNat), b) :: gdramWrites false v (if right then h + 1 else h) (!right) fs

end Sys2Proof.Machine
end

