-- ==== Sys2Proof/Certificates/Slice0/Obligations.lean ====
section
/-! DEFINITION. The statements for the provers: what the numbered rules of the spec say the commands and the machine
do. A drawing command's statement gives its whole next state: the record update names every field that may change, and
the frame buffer is read pixel by pixel. `BitVec.ofNat 32 (s.mode.code * 16)` is the response `OK` (`30_encoding.md`
R76). -/

open Sys2Proof Sys2Proof.Machine

/-! ## Encoding and the command port -/

/-- `30_encoding.md` R74: a few packets written out from the table of formats (the packets of
`95_test_vectors.md` 2.1) decode to the commands they stand for, and some malformed ones to nothing. -/
def Obligations.SpecPacketsDecode : Prop :=
  decode ⟨0x01000001, []⟩ = .instr (.clear true) ∧
  decode ⟨0x02000005, [0x000A000A]⟩ = .instr (.setpix 10 10 true .xor) ∧
  decode ⟨0x02000006, [0x003FFFFF]⟩ = .instr (.setpix (-1) 63 false .and) ∧
  decode ⟨0x03000000, [0x003F007F]⟩ = .instr (.getpix 127 63) ∧
  decode ⟨0x04000000, [0x003E007E, 0x00000303, 0xE0000000, 0xA0000000, 0xE0000000]⟩ =
    .instr (.blit 126 62 .set 3 3 [0xE0000000, 0xA0000000, 0xE0000000]) ∧
  decode ⟨0x10000001, [0x00000000, 0x00020005]⟩ = .instr (.line 0 0 5 2 true) ∧
  decode ⟨0x11000009, [0x00040005, 0x00020002]⟩ = .instr (.rect 5 4 2 2 .filled true) ∧
  decode ⟨0x12000009, [0x000A000A, 0x0000FFFD]⟩ = .instr (.circle 10 10 (-3) .filled true) ∧
  decode ⟨0x13000009, [0x00000000, 0x00000004, 0x00040000]⟩ = .instr (.tri 0 0 4 0 0 4 .filled true) ∧
  decode ⟨0x20080080, [0x0005000A, 0x41, 0x3F, 0x41]⟩ = .instr (.text 10 5 0x00 0x08 0x80 [0x41, 0x3F, 0x41]) ∧
  decode ⟨0x40000000, []⟩ = .instr .reset ∧
  decode ⟨0x43000000, []⟩ = .instr .present ∧
  decode ⟨0x44000201, [0x48, 0x69]⟩ = .instr (.wrtext 1 2 [0x48, 0x69]) ∧
  decode ⟨0x05000000, []⟩ = .illegal .unknownOpcode ∧
  decode ⟨0x01000002, []⟩ = .illegal .reservedHeaderBits ∧
  decode ⟨0x12000001, [0x00000000, 0x00010002]⟩ = .illegal .reservedOperandBits ∧
  decode ⟨0x04000000, [0x00000000, 0x00000101]⟩ = .illegal .wrongLength

/-- Decoding the encoding of any well-formed command gives it back, with every operand. -/
def Obligations.DecodeOfEncode : Prop :=
  ∀ i : Instr, i.wellFormed = true → decode (encode i) = .instr i

/-- Every packet the decoder accepts is the encoding of the command it reads, and that command is well-formed: no
bit of a legal packet is dropped, and no two packets mean the same. -/
def Obligations.EncodeOfDecode : Prop :=
  ∀ (p : Packet) (i : Instr), decode p = .instr i → i.wellFormed = true ∧ encode i = p

/-- The headers the decoder takes are those that match a row of the opcode table, and a matched row is the only one
(`30_encoding.md` R77). -/
def Obligations.HeaderAcceptedExactlyWhenARowMatches : Prop :=
  ∀ p : Packet,
    ((∃ r ∈ opcodeTable, r.matches p.header = true) ↔
      decode p ≠ .illegal .unknownOpcode ∧ decode p ≠ .illegal .reservedHeaderBits) ∧
    (∀ r ∈ opcodeTable, ∀ r' ∈ opcodeTable, r.matches p.header = true → r'.matches p.header = true → r = r')

/-- A step runs the command that the host's next packet decodes to, with that packet consumed; so does a step from a
state given a table word; with no packet offered nothing changes (the last is the model's choice, log 3). -/
def Obligations.StepRunsTheDecodedPacket : Prop :=
  (∀ (s : State) (p : Packet) (rest : List Packet) (i : Instr), s.packets = p :: rest → decode p = .instr i →
    step s = exec i { s with packets := rest }) ∧
  (∀ (s : State) (nbits w : Nat) (i : Instr), decodeTableWord nbits w = some i →
    step (s.withFetchWord nbits w) = exec i s) ∧
  (∀ s : State, s.packets = [] → step s = .next s)

/-- `60_exceptions.md` R195: a packet that is no encoding is consumed and answered `ILLEGAL_COMMAND`; nothing is sent
and nothing else changes, in every mode. -/
def Obligations.IllegalPacketAnsweredAndNothingElse : Prop :=
  ∀ (s : State) (p : Packet) (rest : List Packet), s.packets = p :: rest →
    (∀ i : Instr, i.wellFormed = true → encode i ≠ p) →
    step s = .next { s with
      packets := rest
      responses := s.responses ++ [BitVec.ofNat 32 (s.mode.code * 16 + 5)] }

/-- `30_encoding.md` R76: every packet that is executed gets exactly one response word, with the mode register as it
stands afterwards, a status of 0 to 5, zero reserved bits, and a value bit that only an `OK` `GETPIX` can set. -/
def Obligations.OneResponseWordPerPacket : Prop :=
  ∀ (s t : State) (p : Packet) (rest : List Packet), s.packets = p :: rest → step s = .next t →
    ∃ q : Word, t.responses = s.responses ++ [q] ∧ slice q 5 4 = t.mode.code ∧ slice q 2 0 ≤ 5 ∧ slice q 3 3 = 0 ∧
      slice q 7 6 = 0 ∧ slice q 31 9 = 0 ∧
      (slice q 8 8 = 1 → slice q 2 0 = 0 ∧ ∃ x y, decode p = .instr (.getpix x y))

/-! ## Frame buffer -/

/-- `40_framebuffer.md` R102: `CLEAR v` makes every pixel `v` and answers `OK`, in every mode. -/
def Obligations.ClearMakesEveryPixelTheValue : Prop :=
  ∀ (v : Pixel) (s : State),
    decode ⟨BitVec.ofNat 32 (0x01000000 + v.toNat), []⟩ = .instr (.clear v) ∧
    ∃ m : Memory,
      exec (.clear v) s = .next { s with
        fb := m
        responses := s.responses ++ [BitVec.ofNat 32 (s.mode.code * 16)] } ∧
      m.wf = true ∧ ∀ x y, x < 128 → y < 64 → m.getPixel x y = v

/-- `40_framebuffer.md` R101, R103, R104: `SETPIX` combines the value with the pixel at its coordinates by the blend's
operator, leaves every other pixel alone, does nothing off the grid, and answers `OK`; and its packet. -/
def Obligations.SetpixBlendsOnePixel : Prop :=
  ∀ (x y : Int) (v : Pixel) (b : Blend) (s : State),
    (Coord16 x → Coord16 y →
      decode ⟨BitVec.ofNat 32 (0x02000000 + b.code * 2 + v.toNat), [BitVec.ofInt 16 y ++ BitVec.ofInt 16 x]⟩ =
        .instr (.setpix x y v b)) ∧
    (s.fb.wf = true → ∃ m : Memory,
      exec (.setpix x y v b) s = .next { s with
        fb := m
        responses := s.responses ++ [BitVec.ofNat 32 (s.mode.code * 16)] } ∧
      m.wf = true ∧
      ∀ px py : Nat, px < 128 → py < 64 →
        m.getPixel px py =
          if x = px ∧ y = py then
            match b with
            | .set => v
            | .clear => s.fb.getPixel px py && !v
            | .xor => xor (s.fb.getPixel px py) v
            | .and => s.fb.getPixel px py && v
          else s.fb.getPixel px py)

/-- `40_framebuffer.md` R105, R106: `GETPIX` answers with the pixel in bit 8, 0 off the grid, and changes nothing; and
its packet. -/
def Obligations.GetpixAnswersThePixel : Prop :=
  ∀ (x y : Int) (s : State),
    (Coord16 x → Coord16 y →
      decode ⟨0x03000000, [BitVec.ofInt 16 y ++ BitVec.ofInt 16 x]⟩ = .instr (.getpix x y)) ∧
    ((0 ≤ x ∧ x ≤ 127) ∧ (0 ≤ y ∧ y ≤ 63) →
      exec (.getpix x y) s = .next { s with
        responses := s.responses ++
          [BitVec.ofNat 32 ((s.fb.getPixel x.toNat y.toNat).toNat * 256 + s.mode.code * 16)] }) ∧
    (¬((0 ≤ x ∧ x ≤ 127) ∧ (0 ≤ y ∧ y ≤ 63)) →
      exec (.getpix x y) s = .next { s with
        responses := s.responses ++ [BitVec.ofNat 32 (s.mode.code * 16)] })

/-- `40_framebuffer.md` R110 (a): a `GETPIX` issued after a `SETPIX` with blend `SET` of an in-range pixel answers the
value written, at once and after any list of commands none of which writes that pixel; the response carries the mode as
it then is. -/
def Obligations.GetpixAfterSetpixSet : Prop :=
  ∀ (x y : Int) (v : Pixel) (between : List Instr) (s t u : State), s.fb.wf = true →
    (0 ≤ x ∧ x ≤ 127) ∧ (0 ≤ y ∧ y ≤ 63) →
    exec (.setpix x y v .set) s = .next t → RunMisses x y between t u →
    ∃ u', exec (.getpix x y) u = .next u' ∧
      u'.responses = u.responses ++ [BitVec.ofNat 32 (v.toNat * 256 + u.mode.code * 16)]

/-- `40_framebuffer.md` R110 (c), R103: a command changes no pixel that its shape misses; one whose shape misses the
whole grid leaves the frame buffer as it was; and no command leaves a byte outside the frame buffer or a second entry
for one. -/
def Obligations.MissedPixelsAreLeftAlone : Prop :=
  ∀ (i : Instr) (s t : State), s.fb.wf = true → exec i s = .next t →
    t.fb.wf = true ∧
    (∀ x y : Nat, x < 128 → y < 64 → Misses x y i s → t.fb.getPixel x y = s.fb.getPixel x y) ∧
    ((∀ x y : Int, (0 ≤ x ∧ x ≤ 127) ∧ (0 ≤ y ∧ y ≤ 63) → Misses x y i s) → t.fb = s.fb)

/-- `40_framebuffer.md` R107, `30_encoding.md` R84: `BLIT` composites every pixel of its bitmap, zeros included, onto
the box at its offset, clipped, and answers `OK`; source pixel (i, j) is bit 31 - i mod 32 of payload word
j * ceil(w/32) + i div 32; and its packet. -/
def Obligations.BlitCompositesItsBox : Prop :=
  ∀ (x y : Int) (b : Blend) (w h : Nat) (payload : List Word) (s : State),
    (Coord16 x → Coord16 y → w < 256 → h < 256 → payload.length = h * ((w + 31) / 32) →
      decode ⟨BitVec.ofNat 32 (0x04000000 + b.code * 2),
          (BitVec.ofInt 16 y ++ BitVec.ofInt 16 x) :: BitVec.ofNat 32 (h * 256 + w) :: payload⟩ =
        .instr (.blit x y b w h payload)) ∧
    (s.fb.wf = true → ∃ m : Memory,
      exec (.blit x y b w h payload) s = .next { s with
        fb := m
        responses := s.responses ++ [BitVec.ofNat 32 (s.mode.code * 16)] } ∧
      m.wf = true ∧
      ∀ px py i j : Nat, px < 128 → py < 64 →
        ((px : Int) = x + i → (py : Int) = y + j → i < w → j < h →
          m.getPixel px py = blendPixel b (s.fb.getPixel px py)
            ((payload.getD (j * ((w + 31) / 32) + i / 32) 0).getLsbD (31 - i % 32))) ∧
        (¬((x ≤ px ∧ (px : Int) < x + w) ∧ (y ≤ py ∧ (py : Int) < y + h)) →
          m.getPixel px py = s.fb.getPixel px py))

/-- `30_encoding.md` R84, `93_implementation_defined.md` U12: the padding bits of a `BLIT` payload have no effect. -/
def Obligations.BlitPaddingHasNoEffect : Prop :=
  ∀ (x y : Int) (b : Blend) (w h : Nat) (p q : List Word) (s : State),
    (∀ i j : Nat, i < w → j < h →
      (p.getD (j * ((w + 31) / 32) + i / 32) 0).getLsbD (31 - i % 32) =
        (q.getD (j * ((w + 31) / 32) + i / 32) 0).getLsbD (31 - i % 32)) →
    exec (.blit x y b w h p) s = exec (.blit x y b w h q) s

/-- `40_framebuffer.md` R108, `20_memory.md` R42: `ExportRows` is 1024 bytes, byte `16 * y + k` holding the pixels
`8 * k` to `8 * k + 7` of row `y`, the leftmost in bit 7. -/
def Obligations.ExportRowsIsThePackedView : Prop :=
  ∀ m : Memory, m.exportRows.length = 1024 ∧
    ∀ y k i : Nat, y < 64 → k < 16 → i < 8 →
      ∃ b : Byte, m.exportRows[16 * y + k]? = some b ∧ b.getLsbD (7 - i) = m.getPixel (8 * k + i) y

/-- `20_memory.md` R50, `40_framebuffer.md` R110 (b): running an idempotent command twice, `CLEAR` among them, leaves the
frame buffer that running it once leaves. -/
def Obligations.DrawingTwiceIsDrawingOnce : Prop :=
  ∀ (i : Instr) (s t u : State), isIdempotent i = true → s.fb.wf = true →
    exec i s = .next t → exec i t = .next u → u.fb = t.fb

/-! ## Rasterizer -/

/-- `41_rasterizer.md` R120: the pixels of a line. With the endpoints in canonical order the path starts at the first
and ends at the second, has `max(dx, dy) + 1` pixels, no pixel twice, and each step moves by at most 1 in each
coordinate and by exactly 1 in the major axis. -/
def Obligations.LinePathIsEightConnected : Prop :=
  ∀ x0 y0 x1 y1 : Int, (x0 < x1 ∨ (x0 = x1 ∧ y0 ≤ y1)) →
    (linePts x0 y0 x1 y1).head? = some (x0, y0) ∧
    (linePts x0 y0 x1 y1).getLast? = some (x1, y1) ∧
    (linePts x0 y0 x1 y1).length = max (x1 - x0).natAbs (y1 - y0).natAbs + 1 ∧
    (linePts x0 y0 x1 y1).Nodup ∧
    ∀ (k : Nat) (p q : Int × Int), (linePts x0 y0 x1 y1)[k]? = some p → (linePts x0 y0 x1 y1)[k + 1]? = some q →
      (q.1 - p.1).natAbs ≤ 1 ∧ (q.2 - p.2).natAbs ≤ 1 ∧
      ((y1 - y0).natAbs ≤ (x1 - x0).natAbs → (q.1 - p.1).natAbs = 1) ∧
      ((x1 - x0).natAbs ≤ (y1 - y0).natAbs → (q.2 - p.2).natAbs = 1)

/-- `41_rasterizer.md` R120, R122: every pixel of the path is a nearest pixel to the ideal line in the minor axis, on
the near side of the line's direction, and where the line passes exactly midway between two pixels the path is still
on the first endpoint's side: the minor step is taken from that pixel. -/
def Obligations.LinePathTieRule : Prop :=
  ∀ x0 y0 x1 y1 : Int, (x0 < x1 ∨ (x0 = x1 ∧ y0 < y1)) → ∀ x y : Int, (x, y) ∈ linePts x0 y0 x1 y1 →
    0 ≤ (y - y0) * (y1 - y0) ∧
    ((y1 - y0).natAbs ≤ x1 - x0 →
      -(x1 - x0) ≤ 2 * ((y - y0).natAbs * (x1 - x0) - (x - x0) * (y1 - y0).natAbs) ∧
      2 * ((y - y0).natAbs * (x1 - x0) - (x - x0) * (y1 - y0).natAbs) < x1 - x0) ∧
    (x1 - x0 < (y1 - y0).natAbs →
      -((y1 - y0).natAbs : Int) ≤ 2 * ((x - x0) * (y1 - y0).natAbs - (y - y0).natAbs * (x1 - x0)) ∧
      2 * ((x - x0) * (y1 - y0).natAbs - (y - y0).natAbs * (x1 - x0)) < (y1 - y0).natAbs)

/-- `41_rasterizer.md` R120: the same list whichever endpoint is named first. -/
def Obligations.LineIsSymmetric : Prop :=
  ∀ x0 y0 x1 y1 : Int, linePts x0 y0 x1 y1 = linePts x1 y1 x0 y0

/-- `41_rasterizer.md` R120: a horizontal line is its row from `min` to `max`, a vertical line its column. -/
def Obligations.AxisParallelLines : Prop :=
  ∀ a b c x y : Int,
    ((x, y) ∈ linePts a c b c ↔ (min a b ≤ x ∧ x ≤ max a b) ∧ y = c) ∧
    ((x, y) ∈ linePts c a c b ↔ x = c ∧ (min a b ≤ y ∧ y ≤ max a b))

/-- `41_rasterizer.md` R121, R136: `LINE` gives the pixels of its path the value, leaves the others alone, clips, and
answers `OK`; and its packet. -/
def Obligations.LineDrawsItsPath : Prop :=
  ∀ (x0 y0 x1 y1 : Int) (v : Pixel) (s : State),
    (Coord16 x0 → Coord16 y0 → Coord16 x1 → Coord16 y1 →
      decode ⟨BitVec.ofNat 32 (0x10000000 + v.toNat),
          [BitVec.ofInt 16 y0 ++ BitVec.ofInt 16 x0, BitVec.ofInt 16 y1 ++ BitVec.ofInt 16 x1]⟩ =
        .instr (.line x0 y0 x1 y1 v)) ∧
    (s.fb.wf = true → ∃ m : Memory,
      exec (.line x0 y0 x1 y1 v) s = .next { s with
        fb := m
        responses := s.responses ++ [BitVec.ofNat 32 (s.mode.code * 16)] } ∧
      m.wf = true ∧
      ∀ px py : Nat, px < 128 → py < 64 →
        m.getPixel px py = if ((px : Int), (py : Int)) ∈ linePts x0 y0 x1 y1 then v else s.fb.getPixel px py)

/-- `41_rasterizer.md` R123, R124, R125: `RECT`, filled: every pixel of the box between the corners, in any corner
order; outline: those of its four sides; clipped; `OK`; and its packet. -/
def Obligations.RectDrawsItsBox : Prop :=
  ∀ (x0 y0 x1 y1 : Int) (f : Fill) (v : Pixel) (s : State),
    (Coord16 x0 → Coord16 y0 → Coord16 x1 → Coord16 y1 →
      decode ⟨BitVec.ofNat 32 (0x11000000 + f.code * 8 + v.toNat),
          [BitVec.ofInt 16 y0 ++ BitVec.ofInt 16 x0, BitVec.ofInt 16 y1 ++ BitVec.ofInt 16 x1]⟩ =
        .instr (.rect x0 y0 x1 y1 f v)) ∧
    (s.fb.wf = true → ∃ m : Memory,
      exec (.rect x0 y0 x1 y1 f v) s = .next { s with
        fb := m
        responses := s.responses ++ [BitVec.ofNat 32 (s.mode.code * 16)] } ∧
      m.wf = true ∧
      ∀ px py : Nat, px < 128 → py < 64 →
        m.getPixel px py =
          if (min x0 x1 ≤ px ∧ px ≤ max x0 x1) ∧ (min y0 y1 ≤ py ∧ py ≤ max y0 y1) ∧
              (f = .outline → (px : Int) = x0 ∨ (px : Int) = x1 ∨ (py : Int) = y0 ∨ (py : Int) = y1)
          then v else s.fb.getPixel px py)

/-- `41_rasterizer.md` R123: the number of pixels a filled rectangle on the grid sets in an empty frame buffer, for any
corner order. -/
def Obligations.FilledRectPixelCount : Prop :=
  ∀ (x0 y0 x1 y1 : Int) (s : State), s.fb = [] →
    (0 ≤ x0 ∧ x0 ≤ 127) → (0 ≤ x1 ∧ x1 ≤ 127) → (0 ≤ y0 ∧ y0 ≤ 63) → (0 ≤ y1 ∧ y1 ≤ 63) →
    ∃ t, exec (.rect x0 y0 x1 y1 .filled true) s = .next t ∧
      ((((List.range 64).flatMap fun y => (List.range 128).filter fun x => t.fb.getPixel x y).length : Nat) : Int) =
        (max x0 x1 - min x0 x1 + 1) * (max y0 y1 - min y0 y1 + 1)

/-- `41_rasterizer.md` R127: the octant starts at `(0, r')`; each next point has `x` one greater, and keeps `y` exactly
when `(x+1)^2 + y^2 - y - r'^2`, the sign of the midpoint's distance, is negative; every point has `0 ≤ x ≤ y ≤ r'`;
and it ends when the next point would have `x > y`. -/
def Obligations.OctantFollowsTheMidpointRule : Prop :=
  ∀ r : Int, 0 ≤ r →
    (octant r)[0]? = some (0, r) ∧
    (∀ p ∈ octant r, 0 ≤ p.1 ∧ p.1 ≤ p.2 ∧ p.2 ≤ r) ∧
    ∀ (k : Nat) (x y : Int), (octant r)[k]? = some (x, y) →
      (octant r)[k + 1]? =
        if (x + 1) ^ 2 + y ^ 2 - y - r ^ 2 < 0 then (if x + 1 ≤ y then some (x + 1, y) else none)
        else (if x + 1 ≤ y - 1 then some (x + 1, y - 1) else none)

/-- `41_rasterizer.md` R126, R128, R129, R130: `CIRCLE`, with a negative radius taken as 0. Outline: the pixels whose
two distances from the centre are an octant point, in either order. Filled: also the horizontal spans between the
mirrored pairs. Clipped; `OK`; and its packet. -/
def Obligations.CircleDrawsItsOctants : Prop :=
  ∀ (cx cy r : Int) (f : Fill) (v : Pixel) (s : State),
    (Coord16 cx → Coord16 cy → Coord16 r →
      decode ⟨BitVec.ofNat 32 (0x12000000 + f.code * 8 + v.toNat),
          [BitVec.ofInt 16 cy ++ BitVec.ofInt 16 cx, (BitVec.ofInt 16 r).setWidth 32]⟩ =
        .instr (.circle cx cy r f v)) ∧
    (s.fb.wf = true → ∃ m : Memory,
      exec (.circle cx cy r f v) s = .next { s with
        fb := m
        responses := s.responses ++ [BitVec.ofNat 32 (s.mode.code * 16)] } ∧
      m.wf = true ∧
      ∀ px py : Nat, px < 128 → py < 64 →
        (OnCircle f ((px : Int) - cx).natAbs ((py : Int) - cy).natAbs (octant (max r 0)) → m.getPixel px py = v) ∧
        (¬OnCircle f ((px : Int) - cx).natAbs ((py : Int) - cy).natAbs (octant (max r 0)) →
          m.getPixel px py = s.fb.getPixel px py))

/-- `41_rasterizer.md` R128: the outline of a circle is closed under the mirrors of its centre. -/
def Obligations.CircleOutlineIsEightfoldSymmetric : Prop :=
  ∀ cx cy r dx dy : Int, (cx + dx, cy + dy) ∈ circlePts cx cy r .outline →
    (cx - dx, cy + dy) ∈ circlePts cx cy r .outline ∧ (cx + dx, cy - dy) ∈ circlePts cx cy r .outline ∧
      (cx + dy, cy + dx) ∈ circlePts cx cy r .outline

/-- `41_rasterizer.md` R129: a filled circle has no gaps and is as tall as its radius: in an empty frame buffer each
row of the grid at most `r'` from the centre holds one span around the centre column, and every other row nothing. -/
def Obligations.FilledCircleHasNoGaps : Prop :=
  ∀ (cx cy r : Int) (s : State), s.fb = [] → ∃ t, exec (.circle cx cy r .filled true) s = .next t ∧
    ∀ py : Nat, py < 64 →
      (((py : Int) - cy).natAbs ≤ max r 0 → ∃ a : Int, 0 ≤ a ∧ a ≤ max r 0 ∧ ∀ px : Nat, px < 128 →
        (t.fb.getPixel px py = true ↔ ((px : Int) - cx).natAbs ≤ a)) ∧
      (max r 0 < ((py : Int) - cy).natAbs → ∀ px : Nat, px < 128 → t.fb.getPixel px py = false)

/-- `41_rasterizer.md` R129: drawing each span of a filled circle as a row of the grid is drawing it with `DrawLine`
between its two ends. -/
def Obligations.CircleSpansAreLines : Prop :=
  ∀ (m : Memory) (cx cy r : Int) (v : Pixel), m.wf = true →
    m.draw (circlePts cx cy r .filled) v =
      (m.draw (circlePts cx cy r .outline) v).draw
        ((octant (max r 0)).flatMap fun p =>
          linePts (cx - p.1) (cy + p.2) (cx + p.1) (cy + p.2) ++ linePts (cx - p.1) (cy - p.2) (cx + p.1) (cy - p.2) ++
          linePts (cx - p.2) (cy + p.1) (cx + p.2) (cy + p.1) ++ linePts (cx - p.2) (cy - p.1) (cx + p.2) (cy - p.1)) v

/-- `41_rasterizer.md` R134, R135, R136: an outline `TRI` gives the pixels of its three edges the value and leaves the
others alone; and the packet of a `TRI`. -/
def Obligations.OutlineTriangleDrawsItsEdges : Prop :=
  ∀ (x0 y0 x1 y1 x2 y2 : Int) (v : Pixel) (s : State),
    (Coord16 x0 → Coord16 y0 → Coord16 x1 → Coord16 y1 → Coord16 x2 → Coord16 y2 → ∀ f : Fill,
      decode ⟨BitVec.ofNat 32 (0x13000000 + f.code * 8 + v.toNat),
          [BitVec.ofInt 16 y0 ++ BitVec.ofInt 16 x0, BitVec.ofInt 16 y1 ++ BitVec.ofInt 16 x1,
            BitVec.ofInt 16 y2 ++ BitVec.ofInt 16 x2]⟩ =
        .instr (.tri x0 y0 x1 y1 x2 y2 f v)) ∧
    (s.fb.wf = true → ∃ m : Memory,
      exec (.tri x0 y0 x1 y1 x2 y2 .outline v) s = .next { s with
        fb := m
        responses := s.responses ++ [BitVec.ofNat 32 (s.mode.code * 16)] } ∧
      m.wf = true ∧
      ∀ px py : Nat, px < 128 → py < 64 →
        m.getPixel px py =
          if ((px : Int), (py : Int)) ∈ linePts x0 y0 x1 y1 ∨ ((px : Int), (py : Int)) ∈ linePts x1 y1 x2 y2 ∨
              ((px : Int), (py : Int)) ∈ linePts x2 y2 x0 y0
          then v else s.fb.getPixel px py)

/-- `41_rasterizer.md` R131, R132, R135: a filled `TRI` of positive `area2` draws exactly the pixels on the interior
side of its three edges, a pixel on an edge only where that edge is a top or a left one; one of negative `area2` draws
what the triangle with `p1` and `p2` exchanged draws. The bounding box plays no part. -/
def Obligations.FilledTriangleDrawsItsInside : Prop :=
  let E : Int × Int → Int × Int → Int × Int → Int := fun a b p => (b.1 - a.1) * (p.2 - a.2) - (b.2 - a.2) * (p.1 - a.1)
  let Inside : Int × Int → Int × Int → Int × Int → Prop := fun a b p =>
    0 < E a b p ∨ (E a b p = 0 ∧ (b.2 < a.2 ∨ (b.2 = a.2 ∧ a.1 < b.1)))
  ∀ (x0 y0 x1 y1 x2 y2 : Int) (v : Pixel) (s : State), s.fb.wf = true →
    (0 < (x1 - x0) * (y2 - y0) - (x2 - x0) * (y1 - y0) → ∃ m : Memory,
      exec (.tri x0 y0 x1 y1 x2 y2 .filled v) s = .next { s with
        fb := m
        responses := s.responses ++ [BitVec.ofNat 32 (s.mode.code * 16)] } ∧
      m.wf = true ∧
      ∀ px py : Nat, px < 128 → py < 64 →
        (Inside (x0, y0) (x1, y1) (px, py) ∧ Inside (x1, y1) (x2, y2) (px, py) ∧ Inside (x2, y2) (x0, y0) (px, py) →
          m.getPixel px py = v) ∧
        (¬(Inside (x0, y0) (x1, y1) (px, py) ∧ Inside (x1, y1) (x2, y2) (px, py) ∧
            Inside (x2, y2) (x0, y0) (px, py)) →
          m.getPixel px py = s.fb.getPixel px py)) ∧
    ((x1 - x0) * (y2 - y0) - (x2 - x0) * (y1 - y0) < 0 →
      exec (.tri x0 y0 x1 y1 x2 y2 .filled v) s = exec (.tri x0 y0 x2 y2 x1 y1 .filled v) s)

/-- `41_rasterizer.md` R133: a filled `TRI` with collinear vertices draws the line between its two farthest
vertices. -/
def Obligations.CollinearTriangleDrawsItsLongestEdge : Prop :=
  ∀ (p0 p1 p2 : Int × Int) (v : Pixel) (s : State), s.fb.wf = true →
    (p1.1 - p0.1) * (p2.2 - p0.2) - (p2.1 - p0.1) * (p1.2 - p0.2) = 0 →
    ∃ (a b : Int × Int) (m : Memory), a ∈ [p0, p1, p2] ∧ b ∈ [p0, p1, p2] ∧
      (∀ c ∈ [p0, p1, p2], ∀ d ∈ [p0, p1, p2],
        (d.1 - c.1) ^ 2 + (d.2 - c.2) ^ 2 ≤ (b.1 - a.1) ^ 2 + (b.2 - a.2) ^ 2) ∧
      exec (.tri p0.1 p0.2 p1.1 p1.2 p2.1 p2.2 .filled v) s = .next { s with
        fb := m
        responses := s.responses ++ [BitVec.ofNat 32 (s.mode.code * 16)] } ∧
      m.wf = true ∧
      ∀ px py : Nat, px < 128 → py < 64 →
        m.getPixel px py =
          if ((px : Int), (py : Int)) ∈ linePts a.1 a.2 b.1 b.2 then v else s.fb.getPixel px py

/-- `41_rasterizer.md` R135: the result of `TRI` does not depend on the order of the three vertices (the two exchanges
generate every order). -/
def Obligations.TriangleVertexOrderDoesNotMatter : Prop :=
  ∀ (x0 y0 x1 y1 x2 y2 : Int) (f : Fill) (v : Pixel) (s : State), s.fb.wf = true →
    exec (.tri x0 y0 x1 y1 x2 y2 f v) s = exec (.tri x1 y1 x0 y0 x2 y2 f v) s ∧
    exec (.tri x0 y0 x1 y1 x2 y2 f v) s = exec (.tri x0 y0 x2 y2 x1 y1 f v) s

/-- `41_rasterizer.md` R132: two filled triangles that share the edge from `a` to `b` and lie on opposite sides of it
never both draw a pixel, and every pixel of the grid strictly between the ends of that edge is drawn by one of them. -/
def Obligations.SharedEdgeIsDrawnOnce : Prop :=
  ∀ a b c d p : Int × Int, 0 < edgeFn a b c → edgeFn a b d < 0 → InRange p.1 p.2 →
    ¬(p ∈ triPts a b c .filled ∧ p ∈ triPts a b d .filled) ∧
    (edgeFn a b p = 0 → 0 < (p.1 - a.1) * (b.1 - a.1) + (p.2 - a.2) * (b.2 - a.2) →
      (p.1 - a.1) * (b.1 - a.1) + (p.2 - a.2) * (b.2 - a.2) < (b.1 - a.1) ^ 2 + (b.2 - a.2) ^ 2 →
      p ∈ triPts a b c .filled ∨ p ∈ triPts a b d .filled)

/-! ## Text -/

/-- `42_text.md` R150, R155, `60_exceptions.md` R205: where the GlyphSource answers, `TEXT` completes with `OK`; it
queries once per character occurrence, in text order, with its font and size unchanged, uses up one answer each, and
touches nothing but the frame buffer, its response and that port; and its packet. That the answers are used up from the
front of a list is the model's choice (log 6). -/
def Obligations.TextQueriesEachCharacterAndCompletes : Prop :=
  ∀ (x y : Int) (font size threshold : Byte) (chars : List Word) (s : State),
    (Coord16 x → Coord16 y →
      decode ⟨BitVec.ofNat 32 (0x20000000 + size.toNat * 65536 + font.toNat * 256 + threshold.toNat),
          (BitVec.ofInt 16 y ++ BitVec.ofInt 16 x) :: chars⟩ =
        .instr (.text x y font size threshold chars)) ∧
    (s.fb.wf = true → s.glyphStalls chars.length = false → ∃ m : Memory,
      exec (.text x y font size threshold chars) s = .next { s with
        fb := m
        responses := s.responses ++ [BitVec.ofNat 32 (s.mode.code * 16)]
        glyphQueries := s.glyphQueries ++ chars.map (fun ch => ⟨font, size, ch⟩)
        glyphAnswers := s.glyphAnswers.drop chars.length
        glyphDrawn := s.glyphDrawn + (chars.length - s.glyphAnswers.length) } ∧
      m.wf = true)

/-- `42_text.md` R151: the `TEXT` of no character answers `OK` and changes nothing; any other is the rendering of its
first character, by the answer the GlyphSource gives, and then the `TEXT` of the rest with the cursor moved by that
answer's advance. -/
def Obligations.TextRendersCharacterByCharacter : Prop :=
  ∀ (x y : Int) (font size threshold : Byte) (ch : Word) (rest : List Word) (s : State),
    exec (.text x y font size threshold []) s =
      .next { s with responses := s.responses ++ [BitVec.ofNat 32 (s.mode.code * 16)] } ∧
    (s.glyphStalls (rest.length + 1) = false →
      (∀ g : Glyph, s.glyphAnswer ⟨font, size, ch⟩ = .glyph g →
        exec (.text x y font size threshold (ch :: rest)) s =
          exec (.text (x + g.adv.toNat) y font size threshold rest)
            { s.glyphAnswered ⟨font, size, ch⟩ with
              fb := s.fb.plotDots .set (bitmapDots x y g.w.toNat g.h.toNat fun k j =>
                decide (threshold.toNat ≤ (g.cov.getD (j * g.w.toNat + k) 0).toNat)) }) ∧
      (s.glyphAnswer ⟨font, size, ch⟩ = .unsupported →
        exec (.text x y font size threshold (ch :: rest)) s =
          exec (.text (x + s.cfg.defaultAdvance) y font size threshold rest) (s.glyphAnswered ⟨font, size, ch⟩)))

/-- `42_text.md` R152: for one supported character, a pixel of the glyph's box becomes 1 exactly where the coverage is
at least the threshold, unsigned, and 0 elsewhere in the box; outside the box nothing changes. -/
def Obligations.GlyphIsThresholdedIntoItsBox : Prop :=
  ∀ (x y : Int) (font size threshold : Byte) (ch : Word) (g : Glyph) (s : State), s.fb.wf = true →
    s.glyphStalls 1 = false → s.glyphAnswer ⟨font, size, ch⟩ = .glyph g →
    ∃ t, exec (.text x y font size threshold [ch]) s = .next t ∧
      ∀ px py : Nat, px < 128 → py < 64 →
        (∀ (k j : Nat) (c : Byte), k < g.w.toNat → j < g.h.toNat → (px : Int) = x + k → (py : Int) = y + j →
          g.cov[j * g.w.toNat + k]? = some c → t.fb.getPixel px py = decide (threshold.toNat ≤ c.toNat)) ∧
        (¬((x ≤ px ∧ (px : Int) < x + g.w.toNat) ∧ (y ≤ py ∧ (py : Int) < y + g.h.toNat)) →
          t.fb.getPixel px py = s.fb.getPixel px py)

/-- `42_text.md` R153: an unsupported character writes no pixel, moves the cursor by `DEFAULT_ADVANCE`, and the rest
of the string is rendered; a string of one such character answers `OK` and leaves the frame buffer as it was. -/
def Obligations.UnsupportedGlyphIsSkipped : Prop :=
  ∀ (x y : Int) (font size threshold : Byte) (ch : Word) (rest : List Word) (s : State),
    s.glyphStalls (rest.length + 1) = false → s.glyphAnswer ⟨font, size, ch⟩ = .unsupported →
    exec (.text x y font size threshold (ch :: rest)) s =
      exec (.text (x + s.cfg.defaultAdvance) y font size threshold rest) (s.glyphAnswered ⟨font, size, ch⟩) ∧
    (rest = [] → ∃ t, exec (.text x y font size threshold [ch]) s = .next t ∧ t.fb = s.fb ∧
      t.responses = s.responses ++ [BitVec.ofNat 32 (s.mode.code * 16)])

/-- `42_text.md` R154: `TEXT` modifies no pixel outside the boxes of its glyphs, each at the cursor reached by the
advances before it. -/
def Obligations.TextStaysInsideItsGlyphBoxes : Prop :=
  ∀ (x y : Int) (font size threshold : Byte) (chars : List Word) (s t : State), s.fb.wf = true →
    exec (.text x y font size threshold chars) s = .next t →
    ∀ px py : Nat, px < 128 → py < 64 → (∀ b ∈ textBoxes y font size chars x s, ¬b.Holds px py) →
      t.fb.getPixel px py = s.fb.getPixel px py

/-! ## Protocol engine -/

/-- `30_encoding.md` R82: the three bytes of a frame. -/
def Obligations.FrameBytes : Prop :=
  ∀ (rs : Bool) (b : Byte),
    frame rs b = [BitVec.ofNat 8 (0xF8 + 2 * rs.toNat), BitVec.ofNat 8 (b.toNat / 16 * 16),
      BitVec.ofNat 8 (b.toNat % 16 * 16)]

/-- `43_protocol.md` R165: `RESET`, in every mode. When its twelve bytes are accepted: the pulse, one bracket with the
four command frames, both shadows invalid, `mode = TEXT`, response `OK`; the frame buffer is not touched. When one is
refused: the abort. And its packet. -/
def Obligations.ResetReinitializes : Prop :=
  decode ⟨0x40000000, []⟩ = .instr .reset ∧
  ∀ (s : State) (ev : List TxEvent),
    ev = [.rstPulse, .sel] ++ frameEvents false 0x30 ++ frameEvents false s.cfg.cmdClear ++
      frameEvents false s.cfg.cmdEntry ++ frameEvents false s.cfg.cmdDisplayOn ++ [.desel] →
    (TxAccepts 12 s → ∃ answers drawn,
      exec .reset s = .next { s with
        mode := .text
        gaValid := false
        ddValid := false
        sel := false
        trace := s.trace ++ ev
        responses := s.responses ++ [0x10]
        txAnswers := answers
        txDrawn := drawn }) ∧
    (∀ k, k < 12 → TxRefuses k s → ∃ t, exec .reset s = .next t ∧ Aborted k ev s t)

/-- `43_protocol.md` R166: `GFXON`: refused in `UNINITIALIZED` and `ERROR`; in `TEXT` and `GRAPHICS`, when its three
bytes are accepted, one bracket with its frame, and the mode; when one is refused, the abort. And its packet. -/
def Obligations.GfxonEntersGraphics : Prop :=
  decode ⟨0x41000000, []⟩ = .instr .gfxon ∧
  ∀ s : State,
    (s.mode = .uninitialized ∨ s.mode = .error →
      exec .gfxon s = .next { s with responses := s.responses ++ [BitVec.ofNat 32 (s.mode.code * 16 + 2)] }) ∧
    (s.mode = .text ∨ s.mode = .graphics →
      (TxAccepts 3 s → ∃ answers drawn,
        exec .gfxon s = .next { s with
          mode := .graphics
          sel := false
          trace := s.trace ++ ([.sel] ++ frameEvents false s.cfg.cmdGfxOn ++ [.desel])
          responses := s.responses ++ [0x20]
          txAnswers := answers
          txDrawn := drawn }) ∧
      (∀ k, k < 3 → TxRefuses k s → ∃ t, exec .gfxon s = .next t ∧
        Aborted k ([.sel] ++ frameEvents false s.cfg.cmdGfxOn ++ [.desel]) s t))

/-- `43_protocol.md` R167: `GFXOFF`: refused in `UNINITIALIZED` and `ERROR`; in `TEXT` and `GRAPHICS`, when its three
bytes are accepted, one bracket with its frame, and the mode; when one is refused, the abort. And its packet. -/
def Obligations.GfxoffReturnsToText : Prop :=
  decode ⟨0x42000000, []⟩ = .instr .gfxoff ∧
  ∀ s : State,
    (s.mode = .uninitialized ∨ s.mode = .error →
      exec .gfxoff s = .next { s with responses := s.responses ++ [BitVec.ofNat 32 (s.mode.code * 16 + 2)] }) ∧
    (s.mode = .text ∨ s.mode = .graphics →
      (TxAccepts 3 s → ∃ answers drawn,
        exec .gfxoff s = .next { s with
          mode := .text
          sel := false
          trace := s.trace ++ ([.sel] ++ frameEvents false s.cfg.cmdGfxOff ++ [.desel])
          responses := s.responses ++ [0x10]
          txAnswers := answers
          txDrawn := drawn }) ∧
      (∀ k, k < 3 → TxRefuses k s → ∃ t, exec .gfxoff s = .next t ∧
        Aborted k ([.sel] ++ frameEvents false s.cfg.cmdGfxOff ++ [.desel]) s t))

/-- `43_protocol.md` R168: `PRESENT`: refused in `UNINITIALIZED` and `ERROR`. When its bytes are accepted, in
`GRAPHICS` it appends one bracket of 64 groups, each the two address-set frames of the row and its sixteen data
frames; in `TEXT` the `GFXON` sequence comes first; afterwards the mode is `GRAPHICS` and the GDRAM shadow holds
(31, `H_BOTTOM`); the frame buffer is only read. When a byte is refused, the abort: what was sent before that byte stays
sent, the rest is not sent. And its packet. -/
def Obligations.PresentSendsEveryRow : Prop :=
  decode ⟨0x43000000, []⟩ = .instr .present ∧
  ∀ s : State,
    (s.mode = .uninitialized ∨ s.mode = .error →
      exec .present s = .next { s with responses := s.responses ++ [BitVec.ofNat 32 (s.mode.code * 16 + 2)] }) ∧
    (s.mode = .graphics →
      (TxAccepts 3456 s → ∃ answers drawn,
        exec .present s = .next { s with
          sel := false
          gaValid := true
          gaV := 31
          gaH := s.cfg.hBottom
          trace := s.trace ++ presentEvents s.cfg s.fb
          responses := s.responses ++ [0x20]
          txAnswers := answers
          txDrawn := drawn }) ∧
      (∀ k, k < 3456 → TxRefuses k s → ∃ t, exec .present s = .next t ∧
        Aborted k (presentEvents s.cfg s.fb) s t)) ∧
    (s.mode = .text →
      (TxAccepts 3459 s → ∃ answers drawn,
        exec .present s = .next { s with
          mode := .graphics
          sel := false
          gaValid := true
          gaV := 31
          gaH := s.cfg.hBottom
          trace := s.trace ++ ([.sel] ++ frameEvents false s.cfg.cmdGfxOn ++ [.desel] ++ presentEvents s.cfg s.fb)
          responses := s.responses ++ [0x20]
          txAnswers := answers
          txDrawn := drawn }) ∧
      (∀ k, k < 3459 → TxRefuses k s → ∃ t, exec .present s = .next t ∧
        Aborted k ([.sel] ++ frameEvents false s.cfg.cmdGfxOn ++ [.desel] ++ presentEvents s.cfg s.fb) s t))

/-- `20_memory.md` R44 to R47: what the frames of a completed `PRESENT` put into the controller's graphics memory, read
as R44 and R45 say the controller takes them, is the frame buffer: 1024 bytes, and every byte put where `GdAddr` places
a pixel has that pixel in its bit. In `TEXT` the five events of the automatic entry come first and are not part of the
transfer. The reading of the trace by `wireFrames` and `gdramWrites` is the model's (log 15, DEDUCED). -/
def Obligations.PresentPutsEveryPixelWhereGdAddrSays : Prop :=
  ∀ (s t : State) (advance pulse entry : Nat) (fb : Vector Byte fbBytes), s.cfg = Config.standard advance pulse fb →
    (s.mode = .graphics ∧ TxAccepts 3456 s ∧ entry = 0) ∨ (s.mode = .text ∧ TxAccepts 3459 s ∧ entry = 5) →
    exec .present s = .next t →
    (gdramWrites false 0 0 false (wireFrames (t.trace.drop (s.trace.length + entry)))).length = 1024 ∧
    ∀ x y : Nat, x < 128 → y < 64 →
      (∃ b, (((gdAddr s.cfg x y).v, (gdAddr s.cfg x y).h, (gdAddr s.cfg x y).byte), b) ∈
        gdramWrites false 0 0 false (wireFrames (t.trace.drop (s.trace.length + entry)))) ∧
      ∀ b, (((gdAddr s.cfg x y).v, (gdAddr s.cfg x y).h, (gdAddr s.cfg x y).byte), b) ∈
          gdramWrites false 0 0 false (wireFrames (t.trace.drop (s.trace.length + entry))) →
        b.getLsbD (gdAddr s.cfg x y).bit = s.fb.getPixel x y

/-- `20_memory.md` R46: `GdAddr` is a bijection from the pixels onto the bit positions of the GDRAM, with the inverse
the rule gives. -/
def Obligations.GdAddrIsABijection : Prop :=
  ∀ c : Config, c.hBottom = 8 →
    (∀ x y : Nat, x < 128 → y < 64 →
      gdAddr c x y = ⟨y % 32, x / 16 + 8 * (y / 32), x / 8 % 2, 7 - x % 8⟩ ∧
      (gdAddr c x y).h < 16 ∧ y = (gdAddr c x y).v + 32 * ((gdAddr c x y).h / 8) ∧
      x = 16 * ((gdAddr c x y).h % 8) + 8 * (gdAddr c x y).byte + (7 - (gdAddr c x y).bit)) ∧
    (∀ v h byte bit : Nat, v < 32 → h < 16 → byte < 2 → bit < 8 →
      gdAddr c (16 * (h % 8) + 8 * byte + (7 - bit)) (v + 32 * (h / 8)) = ⟨v, h, byte, bit⟩) ∧
    gdAddr c 0 40 = ⟨8, 8, 0, 7⟩

/-- `43_protocol.md` R170, `20_memory.md` R48: `WRTEXT` with operands in range: refused in `UNINITIALIZED`, `ERROR`
and `GRAPHICS`; in `TEXT`, when its bytes are accepted, one bracket with the address-set frame and one data frame per
character, the text shadow at the address, `OK`; when one is refused, the abort. With an operand out of range:
`BAD_OPERAND`. And its packet. The ranges are `TEXT_ROWS` and `TEXT_CELLS` of any configuration, where R170 writes 3 and
7: the model's reading (log 11, DEDUCED). -/
def Obligations.WrtextSendsItsCharacters : Prop :=
  ∀ (row col : Nat) (chars : List Word) (s : State) (ev : List TxEvent),
    ev = [.sel] ++ frameEvents false (s.cfg.cmdSetAddr ||| (textAddress s.cfg row col).setWidth 8) ++
      (chars.flatMap fun ch => frameEvents true (BitVec.ofNat 8 ch.toNat)) ++ [.desel] →
    (row < 256 → col < 256 →
      decode ⟨BitVec.ofNat 32 (0x44000000 + col * 256 + row), chars⟩ = .instr (.wrtext row col chars)) ∧
    (s.cfg.textRows ≤ row ∨ s.cfg.textCells ≤ col ∨ (∃ ch ∈ chars, 0x7F < ch.toNat) →
      exec (.wrtext row col chars) s =
        .next { s with responses := s.responses ++ [BitVec.ofNat 32 (s.mode.code * 16 + 4)] }) ∧
    (row < s.cfg.textRows → col < s.cfg.textCells → (∀ ch ∈ chars, ch.toNat ≤ 0x7F) →
      (s.mode = .uninitialized ∨ s.mode = .error →
        exec (.wrtext row col chars) s =
          .next { s with responses := s.responses ++ [BitVec.ofNat 32 (s.mode.code * 16 + 2)] }) ∧
      (s.mode = .graphics →
        exec (.wrtext row col chars) s = .next { s with responses := s.responses ++ [0x23] }) ∧
      (s.mode = .text → TxAccepts (3 + 3 * chars.length) s → ∃ answers drawn,
        exec (.wrtext row col chars) s = .next { s with
          sel := false
          ddValid := true
          ddAddr := textAddress s.cfg row col
          trace := s.trace ++ ev
          responses := s.responses ++ [0x10]
          txAnswers := answers
          txDrawn := drawn }) ∧
      (s.mode = .text → ∀ k, k < 3 + 3 * chars.length → TxRefuses k s →
        ∃ t, exec (.wrtext row col chars) s = .next t ∧ Aborted k ev s t) ∧
      (s.cfg.wf = true → ∃ base : BitVec 7, s.cfg.ddRowBase[row]? = some base ∧
        (textAddress s.cfg row col).toNat = base.toNat + col))

/-- `60_exceptions.md` R192: in `UNINITIALIZED` and `ERROR` the protocol commands but `RESET` answer `NOT_READY`
(`WRTEXT` with row up to 3, column up to 7 and characters up to 0x7F, under a configuration with the 4 rows and 8 cells
of `00_scope.md` R5); nothing is sent and nothing else changes. -/
def Obligations.NotReadyWithoutReset : Prop :=
  ∀ (i : Instr) (s : State), s.mode = .uninitialized ∨ s.mode = .error →
    (i = .gfxon ∨ i = .gfxoff ∨ i = .present ∨
      (s.cfg.textRows = 4 ∧ s.cfg.textCells = 8 ∧ ∃ row col chars, i = .wrtext row col chars ∧ row ≤ 3 ∧ col ≤ 7 ∧
        ∀ ch ∈ chars, ch.toNat ≤ 0x7F)) →
    exec i s = .next { s with responses := s.responses ++ [BitVec.ofNat 32 (s.mode.code * 16 + 2)] }

/-- `60_exceptions.md` R194, R200: a `WRTEXT` packet (a row and a column of 8 bits) whose row is above 3, column above
7 or some character above 0x7F answers `BAD_OPERAND` in every mode, of a state with the spec's default configuration;
a step consumes the packet, nothing is sent and nothing else changes. -/
def Obligations.WrtextRefusals : Prop :=
  ∀ (row col : Nat) (chars : List Word) (s : State) (rest : List Packet) (advance pulse : Nat) (fb : Vector Byte fbBytes),
    s.cfg = Config.standard advance pulse fb → row < 256 → col < 256 →
    s.packets = ⟨BitVec.ofNat 32 (0x44000000 + col * 256 + row), chars⟩ :: rest →
    (3 < row ∨ 7 < col ∨ ∃ ch ∈ chars, 0x7F < ch.toNat) →
    step s = .next { s with
      packets := rest
      responses := s.responses ++ [BitVec.ofNat 32 (s.mode.code * 16 + 4)] }

/-- `60_exceptions.md` R196: the TransportError abort. Take a command that completes with `OK` over one Transport; over
one that refuses a byte of it (byte number `k`, counted from 0), the trace has the same events up to that byte, then
`FAIL` of it and the release of select, and no later byte; both shadows are invalid, `mode = ERROR`, the response is
`TRANSPORT_ERROR`, and besides the three shadow addresses and the answers used up nothing else changes. -/
def Obligations.TransportErrorAborts : Prop :=
  ∀ (i : Instr) (s u : State) (answers : List Bool) (drawn : Nat) (silent : Bool) (ev : List TxEvent) (q : Word) (k : Nat),
    exec i { s with txAnswers := answers, txDrawn := drawn, txSilent := silent } = .next u →
    u.trace = s.trace ++ ev → u.responses = s.responses ++ [q] → slice q 2 0 = 0 →
    k < ev.countP TxEvent.isByte → TxRefuses k s →
    ∃ (pre post : List TxEvent) (b : Byte) (t : State), ev = pre ++ .byte b :: post ∧
      pre.countP TxEvent.isByte = k ∧
      exec i s = .next t ∧
      t = { s with
        mode := .error
        gaValid := false
        ddValid := false
        sel := false
        trace := s.trace ++ pre ++ [.fail b, .desel]
        responses := s.responses ++ [0x31]
        txAnswers := t.txAnswers
        txDrawn := t.txDrawn
        gaV := t.gaV
        gaH := t.gaH
        ddAddr := t.ddAddr }

/-- `60_exceptions.md` R191: `TRANSPORT_ERROR` is raised exactly when a byte is refused, and only by the protocol
commands. -/
def Obligations.TransportErrorExactlyWhenAByteIsRefused : Prop :=
  ∀ (i : Instr) (s t : State), exec i s = .next t → ∃ (ev : List TxEvent) (q : Word),
    t.trace = s.trace ++ ev ∧ t.responses = s.responses ++ [q] ∧ (slice q 2 0 = 1 ↔ ∃ b, .fail b ∈ ev) ∧
    (isProtocol i = false → ev = [] ∧ slice q 2 0 = 0)

/-- `60_exceptions.md` R204, R205, `93_implementation_defined.md` U18: a port that stops answering leaves the command
stuck, and only that stops a command; no command is refused by the model. That a stuck command is a fault of the model,
taken at its start, is the model's choice (log 5, DEDUCED and DESIGN CHOICE); the ranges of `WRTEXT` are those of the
configuration (log 11, DEDUCED). -/
def Obligations.OnlyASilentPortHangs : Prop :=
  (∀ (i : Instr) (s : State), PortsAnswer s → ∃ t, exec i s = .next t) ∧
  (∀ (i : Instr) (s : State) (f : Fault), exec i s = .fault f →
    (f = .transportSilent ∧ s.txSilent = true ∧ isProtocol i = true) ∨
      (f = .glyphSourceSilent ∧ s.glyphSilent = true ∧ isProtocol i = false)) ∧
  (∀ (i : Instr) (s : State) (r : Refusal), exec i s ≠ .refused r) ∧
  (∀ s : State, s.txSilent = true → s.txAnswers = [] →
    exec .reset s = .fault .transportSilent ∧
    (s.mode = .text ∨ s.mode = .graphics →
      exec .gfxon s = .fault .transportSilent ∧ exec .gfxoff s = .fault .transportSilent ∧
        exec .present s = .fault .transportSilent) ∧
    (∀ row col chars, s.mode = .text → row < s.cfg.textRows → col < s.cfg.textCells →
      (∀ ch ∈ chars, ch.toNat ≤ 0x7F) → exec (.wrtext row col chars) s = .fault .transportSilent)) ∧
  (∀ (s : State) (x y : Int) (font size threshold : Byte) (chars : List Word),
    s.glyphSilent = true → s.glyphAnswers.length < chars.length →
      exec (.text x y font size threshold chars) s = .fault .glyphSourceSilent)

/-! ## The whole machine -/

/-- `10_state.md` R23: the transitions of `mode` are exactly those of the rule's table. -/
def Obligations.ModeTransitions : Prop :=
  ∀ (i : Instr) (s t : State), exec i s = .next t → ∃ (ev : List TxEvent) (q : Word),
    t.trace = s.trace ++ ev ∧ t.responses = s.responses ++ [q] ∧
    ((∃ b, .fail b ∈ ev) → t.mode = .error) ∧
    ((∀ b, .fail b ∉ ev) →
      (i = .reset → t.mode = .text) ∧
      (i = .gfxon → s.mode = .text ∨ s.mode = .graphics → t.mode = .graphics) ∧
      (i = .gfxoff → s.mode = .text ∨ s.mode = .graphics → t.mode = .text) ∧
      (i = .present → s.mode = .text → t.mode = .graphics) ∧
      (¬(i = .reset ∨ ((i = .gfxon ∨ i = .gfxoff) ∧ (s.mode = .text ∨ s.mode = .graphics)) ∨
        (i = .present ∧ s.mode = .text)) → t.mode = s.mode)) ∧
    ((∃ b, .fail b ∈ ev) → s.mode = .uninitialized ∨ s.mode = .error → i = .reset)

/-- `60_exceptions.md` R197, `70_reset_and_hazards.md` R211: only a `RESET` leaves `ERROR`, and it leaves it for
`TEXT`; no command returns the engine to `UNINITIALIZED`. -/
def Obligations.OnlyResetLeavesError : Prop :=
  ∀ (i : Instr) (s t : State), exec i s = .next t →
    (s.mode = .error → t.mode = .error ∨ (i = .reset ∧ t.mode = .text)) ∧
    (t.mode = .uninitialized → s.mode = .uninitialized ∧ t.trace = s.trace)

/-- `40_framebuffer.md` R109: the drawing commands neither read nor write `mode`, the shadow registers or the Transport,
execute identically whatever those hold, and answer `OK`; and no protocol command, failed or not, changes the frame
buffer. -/
def Obligations.DrawingAndProtocolAreIndependent : Prop :=
  (∀ (i : Instr) (s t : State), isProtocol i = false → exec i s = .next t →
    t.mode = s.mode ∧ t.gaValid = s.gaValid ∧ t.gaV = s.gaV ∧ t.gaH = s.gaH ∧ t.ddValid = s.ddValid ∧
    t.ddAddr = s.ddAddr ∧ t.sel = s.sel ∧ t.trace = s.trace ∧ t.txAnswers = s.txAnswers ∧ t.txDrawn = s.txDrawn ∧
    ∃ q, t.responses = s.responses ++ [q] ∧ slice q 2 0 = 0 ∧
    ∀ s' : State, s'.fb = s.fb → s'.glyphAnswers = s.glyphAnswers → s'.glyphSilent = s.glyphSilent →
      s'.glyphDrawn = s.glyphDrawn → s'.cfg = s.cfg →
      ∃ t' q', exec i s' = .next t' ∧ t'.fb = t.fb ∧ t'.glyphAnswers = t.glyphAnswers ∧
        t'.glyphDrawn = t.glyphDrawn ∧ t'.responses = s'.responses ++ [q'] ∧ slice q' 2 0 = 0 ∧
        slice q' 8 8 = slice q 8 8) ∧
  (∀ (i : Instr) (s t : State), isProtocol i = true → exec i s = .next t →
    t.fb = s.fb ∧ t.glyphAnswers = s.glyphAnswers ∧ t.glyphDrawn = s.glyphDrawn ∧ t.glyphQueries = s.glyphQueries)

/-- `60_exceptions.md` R201: a packet that is refused (any status but `OK` and `TRANSPORT_ERROR`) changes no state at
all and appends nothing to the Transport trace: only the packet is consumed and the response returned. -/
def Obligations.RefusedPacketsChangeNothing : Prop :=
  ∀ (s t : State) (p : Packet) (rest : List Packet) (q : Word), s.packets = p :: rest → step s = .next t →
    t.responses = s.responses ++ [q] → slice q 2 0 ≠ 0 → slice q 2 0 ≠ 1 →
    t = { s with packets := rest, responses := s.responses ++ [q] }

/-- What any command may change beside its own effect: the trace, the responses and the glyph queries only grow, and
the configuration, the host's packets and the ports' silence are not touched. Of the answers that the model holds
(logs 4 and 6, its own choice) a command uses up one per byte offered and one per query, from the front. -/
def Obligations.OutputsOnlyGrow : Prop :=
  ∀ (i : Instr) (s t : State), exec i s = .next t →
    t.cfg = s.cfg ∧ t.packets = s.packets ∧ t.txSilent = s.txSilent ∧ t.glyphSilent = s.glyphSilent ∧
    (∃ q, t.responses = s.responses ++ [q]) ∧
    (∃ ev, t.trace = s.trace ++ ev ∧
      t.txAnswers = s.txAnswers.drop (ev.countP TxEvent.isOffer) ∧
      t.txDrawn = s.txDrawn + (ev.countP TxEvent.isOffer - s.txAnswers.length)) ∧
    (∃ qs, t.glyphQueries = s.glyphQueries ++ qs ∧
      t.glyphAnswers = s.glyphAnswers.drop qs.length ∧
      t.glyphDrawn = s.glyphDrawn + (qs.length - s.glyphAnswers.length))

/-- `10_state.md` R31: the state at power-on of an engine with any configuration: the frame buffer is the configuration's
`FB_POWERON`, any value; and `State.reset` is that state for the defaults of `00_scope.md` R5, the three open parameters
free values (logs 1 and 7). -/
def Obligations.PowerOnState : Prop :=
  (∀ c : Config,
    (State.powerOn c).mode = .uninitialized ∧ (State.powerOn c).gaValid = false ∧ (State.powerOn c).ddValid = false ∧
    (State.powerOn c).sel = false ∧ (State.powerOn c).trace = [] ∧ (State.powerOn c).cfg = c ∧
    ∀ x y : Nat, (hx : x < 128) → (hy : y < 64) →
      (State.powerOn c).fb.getPixel x y = (c.fbPowerOn[16 * y + x / 8]'(by simp only [fbBytes]; omega)).getLsbD (7 - x % 8)) ∧
  State.reset = State.powerOn (Config.standard Config.freeDefaultAdvance Config.freeResetPulse Config.freeFbPowerOn)

/-- The invariant holds at power-on, for any configuration, and so for any `FB_POWERON`. -/
def Obligations.PowerOnMeetsTheInvariant : Prop := (∀ c : Config, Inv (State.powerOn c)) ∧ Inv State.reset

/-- Every step keeps the invariant: the frame buffer stays canonical, select is released between commands
(`10_state.md` R28), the trace is made of whole frames in whole brackets with no read frame (`43_protocol.md` R161,
R162, R171), the shadow registers hold what `10_state.md` R27 says, and every response has the form of
`30_encoding.md` R76. -/
def Obligations.EveryStepKeepsTheInvariant : Prop :=
  ∀ s t : State, Inv s → step s = .next t → Inv t
end

