-- ==== Sys2Proof/Laws/Memory.lean ====
section
/-! SUPPORT. The laws of the frame buffer: read after write, every operation keeps the canonical form, equal contents
are equal lists, and what a list of plots does to one pixel. -/

namespace Sys2Proof.Machine

/-! ## Bytes -/

theorem Memory.wfFrom_mono {lo lo' : Nat} (h : lo' ≤ lo) : ∀ {m : Memory}, Memory.wfFrom lo m = true → Memory.wfFrom lo' m = true
  | [], _ => rfl
  | (a, v) :: m, hm => by
      simp only [Memory.wfFrom, Bool.and_eq_true, decide_eq_true_eq] at hm ⊢
      exact ⟨⟨⟨by omega, hm.1.1.2⟩, hm.1.2⟩, hm.2⟩

theorem Memory.read_below {lo a : Nat} : ∀ {m : Memory}, Memory.wfFrom lo m = true → a < lo → m.read a = Memory.unlisted
  | [], _, _ => rfl
  | (b, v) :: m, hm, ha => by
      simp only [Memory.wfFrom, Bool.and_eq_true, decide_eq_true_eq] at hm
      rw [Memory.read, if_neg (by omega)]
      exact Memory.read_below hm.2 (by omega)

theorem Memory.write_wfFrom {lo a : Nat} {v : Byte} (ha : a < fbBytes) :
    ∀ {m : Memory}, Memory.wfFrom lo m = true → lo ≤ a → Memory.wfFrom lo (m.write a v) = true
  | [], _, hlo => by
      by_cases hv : v = Memory.unlisted <;> simp [Memory.write, Memory.wfFrom, hv, hlo, ha]
  | (b, w) :: m, hm, hlo => by
      have hm' := hm
      simp only [Memory.wfFrom, Bool.and_eq_true, decide_eq_true_eq] at hm'
      obtain ⟨⟨⟨h1, h2⟩, h3⟩, h4⟩ := hm'
      unfold Memory.write
      split
      · split
        · exact hm
        · rename_i hab hv
          simp only [Memory.wfFrom, Bool.and_eq_true, decide_eq_true_eq]
          exact ⟨⟨⟨hlo, ha⟩, hv⟩, ⟨⟨by omega, h2⟩, h3⟩, h4⟩
      · split
        · split
          · exact Memory.wfFrom_mono (by omega) h4
          · rename_i hab hv
            simp only [Memory.wfFrom, Bool.and_eq_true, decide_eq_true_eq]
            exact ⟨⟨⟨hlo, ha⟩, hv⟩, Memory.wfFrom_mono (by omega) h4⟩
        · simp only [Memory.wfFrom, Bool.and_eq_true, decide_eq_true_eq]
          exact ⟨⟨⟨h1, h2⟩, h3⟩, Memory.write_wfFrom ha h4 (by omega)⟩

/-- A write keeps the canonical form. -/
theorem Memory.write_wf {m : Memory} {a : Nat} {v : Byte} (hm : m.wf = true) (ha : a < fbBytes) :
    (m.write a v).wf = true := Memory.write_wfFrom ha hm (Nat.zero_le a)

theorem Memory.read_write_from {lo a b : Nat} {v : Byte} :
    ∀ {m : Memory}, Memory.wfFrom lo m = true → (m.write a v).read b = if b = a then v else m.read b
  | [], _ => by
      by_cases hv : v = Memory.unlisted <;> by_cases hb : b = a <;> simp [Memory.write, Memory.read, hv, hb]
  | (c, w) :: m, hm => by
      have hm' := hm
      simp only [Memory.wfFrom, Bool.and_eq_true, decide_eq_true_eq] at hm'
      unfold Memory.write
      split
      · split
        · rename_i hac hv
          split
          · rename_i hb
            rw [hb, Memory.read, if_neg (by omega), Memory.read_below hm'.2 (by omega), hv]
          · rfl
        · simp [Memory.read]
      · split
        · rename_i hac hca
          subst hca
          split
          · rename_i hv
            split
            · rename_i hb
              rw [hb, Memory.read_below hm'.2 (by omega), hv]
            · rename_i hb
              simp [Memory.read, hb]
          · by_cases hb : b = a <;> simp [Memory.read, hb]
        · rename_i h1 h2
          simp only [Memory.read]
          rw [Memory.read_write_from hm'.2]
          split <;> split <;> simp_all

/-- Read after write. -/
theorem Memory.read_write {m : Memory} (hm : m.wf = true) (a b : Nat) (v : Byte) :
    (m.write a v).read b = if b = a then v else m.read b := Memory.read_write_from hm

theorem Memory.ext_from {lo : Nat} : ∀ {m n : Memory}, Memory.wfFrom lo m = true → Memory.wfFrom lo n = true →
    (∀ a, m.read a = n.read a) → m = n
  | [], [], _, _, _ => rfl
  | [], (b, w) :: n, _, hn, h => by
      simp only [Memory.wfFrom, Bool.and_eq_true, decide_eq_true_eq] at hn
      have := h b
      simp [Memory.read] at this
      exact absurd this.symm hn.1.2
  | (a, v) :: m, [], hm, _, h => by
      simp only [Memory.wfFrom, Bool.and_eq_true, decide_eq_true_eq] at hm
      have := h a
      simp [Memory.read] at this
      exact absurd this hm.1.2
  | (a, v) :: m, (b, w) :: n, hm, hn, h => by
      simp only [Memory.wfFrom, Bool.and_eq_true, decide_eq_true_eq] at hm hn
      have hab : a = b := by
        rcases Nat.lt_trichotomy a b with hlt | heq | hgt
        · have := h a
          rw [Memory.read, if_pos rfl, Memory.read, if_neg (by omega), Memory.read_below hn.2 (by omega)] at this
          exact absurd this hm.1.2
        · exact heq
        · have := h b
          rw [Memory.read, if_neg (by omega), Memory.read_below hm.2 (by omega), Memory.read, if_pos rfl] at this
          exact absurd this.symm hn.1.2
      subst hab
      have hvw : v = w := by simpa [Memory.read] using h a
      subst hvw
      have : m = n := Memory.ext_from hm.2 hn.2 fun c => by
        by_cases hc : c = a
        · rw [hc, Memory.read_below hm.2 (by omega), Memory.read_below hn.2 (by omega)]
        · simpa [Memory.read, hc] using h c
      rw [this]

/-- Equal contents are equal lists. -/
theorem Memory.ext_read {m n : Memory} (hm : m.wf = true) (hn : n.wf = true) (h : ∀ a, m.read a = n.read a) : m = n :=
  Memory.ext_from hm hn h

theorem Memory.read_above {a : Nat} (ha : fbBytes ≤ a) : ∀ {m : Memory} {lo : Nat}, Memory.wfFrom lo m = true → m.read a = Memory.unlisted
  | [], _, _ => rfl
  | (b, v) :: m, lo, hm => by
      simp only [Memory.wfFrom, Bool.and_eq_true, decide_eq_true_eq] at hm
      rw [Memory.read, if_neg (by have := hm.1.1.2; omega)]
      exact Memory.read_above ha hm.2

/-! ## `Memory.ofBytes` -/

theorem Memory.ofList_wf (f : Nat → Byte) (n : Nat) : ∀ lo, lo + n ≤ fbBytes →
    Memory.wfFrom lo (((List.range' lo n).map fun a => (a, f a)).filter fun c => decide (c.2 ≠ Memory.unlisted)) = true := by
  induction n with
  | zero => intro lo _; rfl
  | succ n ih =>
    intro lo h
    have := ih (lo + 1) (by omega)
    rw [List.range'_succ, List.map_cons, List.filter_cons]
    split
    · rename_i hv
      simp only [Memory.wfFrom, Bool.and_eq_true]
      refine ⟨⟨⟨by simp, by simp; omega⟩, hv⟩, this⟩
    · exact Memory.wfFrom_mono (by omega) this

/-- `Memory.ofBytes` is canonical. -/
theorem Memory.ofBytes_wf (f : Nat → Byte) : (Memory.ofBytes f).wf = true := by
  simpa [Memory.ofBytes, Memory.wf, List.range_eq_range'] using Memory.ofList_wf f fbBytes 0 (by decide)

theorem Memory.ofList_read (f : Nat → Byte) (a n : Nat) : ∀ lo,
    Memory.read (((List.range' lo n).map fun a => (a, f a)).filter fun c => decide (c.2 ≠ Memory.unlisted)) a =
      if lo ≤ a ∧ a < lo + n then f a else Memory.unlisted := by
  induction n with
  | zero => intro lo; rw [if_neg (by omega)]; rfl
  | succ n ih =>
    intro lo
    rw [List.range'_succ, List.map_cons, List.filter_cons]
    split
    · rw [Memory.read]
      split
      · rename_i h; subst h; rw [if_pos (by omega)]
      · rw [ih (lo + 1)]; congr 1; simp only [eq_iff_iff]; omega
    · rename_i hv
      simp only [ne_eq, decide_not, Bool.not_eq_eq_eq_not, Bool.not_true, decide_eq_false_iff_not, not_not] at hv
      rw [ih (lo + 1)]
      by_cases h : a = lo
      · subst h; rw [if_neg (by omega), if_pos (by omega), hv]
      · congr 1; simp only [eq_iff_iff]; omega

/-- What `Memory.ofBytes` reads as. -/
theorem Memory.ofBytes_read (f : Nat → Byte) (a : Nat) :
    (Memory.ofBytes f).read a = if a < fbBytes then f a else Memory.unlisted := by
  simpa [Memory.ofBytes, List.range_eq_range'] using Memory.ofList_read f a fbBytes 0

/-- The frame buffer at power-on is canonical, for any configuration. -/
theorem State.powerOn_fb_wf (c : Config) : (State.powerOn c).fb.wf = true := by
  simp only [State.powerOn, Memory.ofBytes_wf]

/-! ## Pixels -/

theorem withBit_getLsbD (b : Byte) (i j : Nat) (v : Bool) (hi : i < 8) :
    (withBit b i v).getLsbD j = if j = i then v else b.getLsbD j := by
  unfold withBit
  by_cases hj : j < 8
  · cases v <;> by_cases hji : j = i <;> simp [hji, hj, hi]
  · have h1 : j ≠ i := by omega
    cases v <;> simp [h1, BitVec.getLsbD_of_ge _ _ (Nat.le_of_not_lt hj)]

theorem pixelBit_lt (x : Nat) : pixelBit x < 8 := by unfold pixelBit; omega

theorem pixelByte_lt {x y : Nat} (hx : x < fbWidth) (hy : y < fbHeight) : rowBytes * y + x / 8 < fbBytes := by
  simp only [rowBytes, fbWidth, fbHeight, fbBytes] at *; omega

theorem pixel_place_inj {x y x' y' : Nat} (hx : x < fbWidth) (hx' : x' < fbWidth)
    (h : rowBytes * y' + x' / 8 = rowBytes * y + x / 8) (hb : pixelBit x' = pixelBit x) : x' = x ∧ y' = y := by
  simp only [rowBytes, fbWidth, pixelBit] at *; omega

/-- A pixel write keeps the canonical form. -/
theorem Memory.setPixel_wf {m : Memory} (hm : m.wf = true) {x y : Nat} (hx : x < fbWidth) (hy : y < fbHeight)
    (v : Pixel) : (m.setPixel x y v).wf = true := Memory.write_wf hm (pixelByte_lt hx hy)

/-- A pixel read after a pixel write. -/
theorem Memory.getPixel_setPixel {m : Memory} (hm : m.wf = true) {x y x' y' : Nat} (hx : x < fbWidth)
    (hx' : x' < fbWidth) (v : Pixel) :
    (m.setPixel x y v).getPixel x' y' = if x' = x ∧ y' = y then v else m.getPixel x' y' := by
  unfold Memory.getPixel Memory.setPixel Memory.fbByte
  rw [Memory.read_write hm]
  by_cases ha : rowBytes * y' + x' / 8 = rowBytes * y + x / 8
  · rw [if_pos ha, withBit_getLsbD _ _ _ _ (pixelBit_lt x), ha]
    by_cases hb : pixelBit x' = pixelBit x
    · rw [if_pos hb, if_pos (pixel_place_inj hx hx' ha hb)]
    · rw [if_neg hb, if_neg fun h => hb (by rw [h.1])]
  · rw [if_neg ha, if_neg fun h => ha (by rw [h.1, h.2])]

/-- A byte of the packed view is its eight pixels (`20_memory.md` R42). -/
theorem Memory.fbByte_getLsbD (m : Memory) (y k i : Nat) (hi : i < 8) :
    (m.fbByte y k).getLsbD (7 - i) = m.getPixel (8 * k + i) y := by
  have h1 : (8 * k + i) / 8 = k := by omega
  have h2 : pixelBit (8 * k + i) = 7 - i := by unfold pixelBit; omega
  rw [Memory.getPixel, h1, h2]

/-- Equal pixels are equal lists. -/
theorem Memory.ext_pixel {m n : Memory} (hm : m.wf = true) (hn : n.wf = true)
    (h : ∀ x y, x < fbWidth → y < fbHeight → m.getPixel x y = n.getPixel x y) : m = n := by
  refine Memory.ext_read hm hn fun a => ?_
  by_cases ha : a < fbBytes
  · have hy : a / 16 < fbHeight := by simp only [fbHeight, fbBytes] at *; omega
    have haddr : rowBytes * (a / 16) + a % 16 = a := by simp only [rowBytes]; omega
    refine BitVec.eq_of_getLsbD_eq fun i hi => ?_
    have hk : 8 * (a % 16) + (7 - i) < fbWidth := by simp only [fbWidth]; omega
    have h1 := Memory.fbByte_getLsbD m (a / 16) (a % 16) (7 - i) (by omega)
    have h2 := Memory.fbByte_getLsbD n (a / 16) (a % 16) (7 - i) (by omega)
    unfold Memory.fbByte at h1 h2
    rw [haddr, show 7 - (7 - i) = i by omega] at h1 h2
    rw [h1, h2, h _ _ hk hy]
  · rw [Memory.read_above (Nat.le_of_not_lt ha) hm, Memory.read_above (Nat.le_of_not_lt ha) hn]

/-! ## `Plot` and lists of plots -/

theorem InRange.toNat_lt {x y : Int} (h : InRange x y) : x.toNat < fbWidth ∧ y.toNat < fbHeight := by
  unfold InRange at h; simp only [fbWidth, fbHeight]; omega

/-- `Plot` keeps the canonical form (`40_framebuffer.md` R103: out-of-range coordinates never corrupt memory). -/
theorem Memory.plot_wf {m : Memory} (hm : m.wf = true) (blend : Blend) (x y : Int) (v : Pixel) :
    (m.plot blend x y v).wf = true := by
  unfold Memory.plot
  split
  · rename_i h; exact Memory.setPixel_wf hm h.toNat_lt.1 h.toNat_lt.2 _
  · exact hm

/-- What `Plot` does to one pixel of the grid (`40_framebuffer.md` R103). -/
theorem Memory.getPixel_plot {m : Memory} (hm : m.wf = true) (blend : Blend) (x y : Int) (v : Pixel)
    {px py : Nat} (hpx : px < fbWidth) (hpy : py < fbHeight) :
    (m.plot blend x y v).getPixel px py =
      if x = px ∧ y = py then blendPixel blend (m.getPixel px py) v else m.getPixel px py := by
  unfold Memory.plot
  by_cases h : InRange x y
  · rw [if_pos h, Memory.getPixel_setPixel hm h.toNat_lt.1 hpx]
    have hiff : (px = x.toNat ∧ py = y.toNat) ↔ (x = px ∧ y = py) := by unfold InRange at h; omega
    by_cases hp : x = px ∧ y = py
    · rw [if_pos hp, if_pos (hiff.mpr hp), (hiff.mpr hp).1, (hiff.mpr hp).2]
    · rw [if_neg hp, if_neg (fun h' => hp (hiff.mp h'))]
  · have hne : ¬(x = px ∧ y = py) := by
      unfold InRange at h; simp only [fbWidth, fbHeight] at *; omega
    rw [if_neg h, if_neg hne]

/-- `40_framebuffer.md` R110 (a): a read after a `SET` of an in-range pixel gives the value written. -/
theorem Memory.get_plot_set {m : Memory} (hm : m.wf = true) {x y : Int} (h : InRange x y) (v : Pixel) :
    (m.plot .set x y v).get x y = v := by
  unfold Memory.get Memory.plot
  rw [if_pos h, if_pos h, Memory.getPixel_setPixel hm h.toNat_lt.1 h.toNat_lt.1, if_pos ⟨rfl, rfl⟩, blendPixel]

/-- `40_framebuffer.md` R110 (c): a plot off the grid changes nothing. -/
theorem Memory.plot_off_grid (m : Memory) (blend : Blend) {x y : Int} (h : ¬InRange x y) (v : Pixel) :
    m.plot blend x y v = m := if_neg h

/-- A list of plots keeps the canonical form. -/
theorem Memory.plotDots_wf (blend : Blend) : ∀ (ds : List Dot) {m : Memory}, m.wf = true → (m.plotDots blend ds).wf = true
  | [], _, hm => hm
  | d :: ds, _, hm => Memory.plotDots_wf blend ds (Memory.plot_wf hm blend d.x d.y d.v)

/-- What one incoming pixel makes of the value of the pixel at `(px, py)`. -/
def Dot.onto (blend : Blend) (px py : Nat) (old : Pixel) (d : Dot) : Pixel :=
  if d.x = px ∧ d.y = py then blendPixel blend old d.v else old

/-- What a list of plots does to one pixel of the grid: the plots at that pixel, in order. -/
theorem Memory.getPixel_plotDots (blend : Blend) {px py : Nat} (hpx : px < fbWidth) (hpy : py < fbHeight) :
    ∀ (ds : List Dot) {m : Memory}, m.wf = true →
      (m.plotDots blend ds).getPixel px py = ds.foldl (Dot.onto blend px py) (m.getPixel px py)
  | [], _, _ => rfl
  | d :: ds, m, hm => by
      rw [Memory.plotDots, Memory.getPixel_plotDots blend hpx hpy ds (Memory.plot_wf hm blend d.x d.y d.v),
        Memory.getPixel_plot hm blend d.x d.y d.v hpx hpy]
      rfl

/-- A list none of whose pixels is `(px, py)` leaves that pixel alone. -/
theorem Dot.foldl_onto_of_not_mem (blend : Blend) (px py : Nat) : ∀ (ds : List Dot) (old : Pixel),
    (∀ d ∈ ds, ¬(d.x = px ∧ d.y = py)) → ds.foldl (Dot.onto blend px py) old = old
  | [], _, _ => rfl
  | d :: ds, old, h => by
      rw [List.foldl_cons, Dot.onto, if_neg (h d (by simp))]
      exact Dot.foldl_onto_of_not_mem blend px py ds old fun e he => h e (List.mem_cons_of_mem _ he)

/-- Drawing keeps the canonical form. -/
theorem Memory.draw_wf {m : Memory} (hm : m.wf = true) (pts : List (Int × Int)) (v : Pixel) : (m.draw pts v).wf = true :=
  Memory.plotDots_wf _ _ hm

/-- What drawing does to one pixel of the grid: it becomes `v` if it is in the list (`41_rasterizer.md` R136). -/
theorem Memory.getPixel_draw {m : Memory} (hm : m.wf = true) (pts : List (Int × Int)) (v : Pixel) {px py : Nat}
    (hpx : px < fbWidth) (hpy : py < fbHeight) :
    (m.draw pts v).getPixel px py = if ((px : Int), (py : Int)) ∈ pts then v else m.getPixel px py := by
  rw [Memory.draw, Memory.getPixel_plotDots _ hpx hpy _ hm]
  generalize m.getPixel px py = old
  induction pts generalizing old with
  | nil => rfl
  | cons p pts ih =>
    rw [List.map_cons, List.foldl_cons, ih]
    have hp : (p.1 = px ∧ p.2 = py) ↔ ((px : Int), (py : Int)) = p := by
      rw [Prod.ext_iff]; constructor <;> rintro ⟨h1, h2⟩ <;> exact ⟨h1.symm, h2.symm⟩
    by_cases h : ((px : Int), (py : Int)) = p
    · simp [Dot.onto, hp.mpr h, h, blendPixel]
    · by_cases h' : ((px : Int), (py : Int)) ∈ pts
      · simp [h']
      · rw [if_neg h', if_neg (by simp [h, h'])]
        exact if_neg fun hh => h (hp.mp hh)

/-- `CLEAR` leaves a canonical memory. -/
theorem Memory.filled_wf (v : Pixel) : (Memory.filled v).wf = true := Memory.ofBytes_wf _

end Sys2Proof.Machine
end

