-- ==== Sys2Proof/Laws/State.lean ====
section
/-! SUPPORT. What each update of the state leaves in each field: one lemma per field per update. -/

namespace Sys2Proof.Machine

variable (s : State)

/-! ### `State.respond` -/

@[simp] theorem State.respond_mode (st : Status) (v : Pixel) : (s.respond st v).mode = s.mode := rfl
@[simp] theorem State.respond_fb (st : Status) (v : Pixel) : (s.respond st v).fb = s.fb := rfl
@[simp] theorem State.respond_gaValid (st : Status) (v : Pixel) : (s.respond st v).gaValid = s.gaValid := rfl
@[simp] theorem State.respond_gaV (st : Status) (v : Pixel) : (s.respond st v).gaV = s.gaV := rfl
@[simp] theorem State.respond_gaH (st : Status) (v : Pixel) : (s.respond st v).gaH = s.gaH := rfl
@[simp] theorem State.respond_ddValid (st : Status) (v : Pixel) : (s.respond st v).ddValid = s.ddValid := rfl
@[simp] theorem State.respond_ddAddr (st : Status) (v : Pixel) : (s.respond st v).ddAddr = s.ddAddr := rfl
@[simp] theorem State.respond_sel (st : Status) (v : Pixel) : (s.respond st v).sel = s.sel := rfl
@[simp] theorem State.respond_trace (st : Status) (v : Pixel) : (s.respond st v).trace = s.trace := rfl
@[simp] theorem State.respond_responses (st : Status) (v : Pixel) : (s.respond st v).responses = s.responses ++ [responseWord st s.mode v] := rfl
@[simp] theorem State.respond_packets (st : Status) (v : Pixel) : (s.respond st v).packets = s.packets := rfl
@[simp] theorem State.respond_txAnswers (st : Status) (v : Pixel) : (s.respond st v).txAnswers = s.txAnswers := rfl
@[simp] theorem State.respond_txSilent (st : Status) (v : Pixel) : (s.respond st v).txSilent = s.txSilent := rfl
@[simp] theorem State.respond_txDrawn (st : Status) (v : Pixel) : (s.respond st v).txDrawn = s.txDrawn := rfl
@[simp] theorem State.respond_glyphAnswers (st : Status) (v : Pixel) : (s.respond st v).glyphAnswers = s.glyphAnswers := rfl
@[simp] theorem State.respond_glyphSilent (st : Status) (v : Pixel) : (s.respond st v).glyphSilent = s.glyphSilent := rfl
@[simp] theorem State.respond_glyphDrawn (st : Status) (v : Pixel) : (s.respond st v).glyphDrawn = s.glyphDrawn := rfl
@[simp] theorem State.respond_glyphQueries (st : Status) (v : Pixel) : (s.respond st v).glyphQueries = s.glyphQueries := rfl
@[simp] theorem State.respond_cfg (st : Status) (v : Pixel) : (s.respond st v).cfg = s.cfg := rfl

/-! ### `State.emit` -/

@[simp] theorem State.emit_mode (e : TxEvent) : (s.emit e).mode = s.mode := rfl
@[simp] theorem State.emit_fb (e : TxEvent) : (s.emit e).fb = s.fb := rfl
@[simp] theorem State.emit_gaValid (e : TxEvent) : (s.emit e).gaValid = s.gaValid := rfl
@[simp] theorem State.emit_gaV (e : TxEvent) : (s.emit e).gaV = s.gaV := rfl
@[simp] theorem State.emit_gaH (e : TxEvent) : (s.emit e).gaH = s.gaH := rfl
@[simp] theorem State.emit_ddValid (e : TxEvent) : (s.emit e).ddValid = s.ddValid := rfl
@[simp] theorem State.emit_ddAddr (e : TxEvent) : (s.emit e).ddAddr = s.ddAddr := rfl
@[simp] theorem State.emit_sel (e : TxEvent) : (s.emit e).sel = s.sel := rfl
@[simp] theorem State.emit_trace (e : TxEvent) : (s.emit e).trace = s.trace ++ [e] := rfl
@[simp] theorem State.emit_responses (e : TxEvent) : (s.emit e).responses = s.responses := rfl
@[simp] theorem State.emit_packets (e : TxEvent) : (s.emit e).packets = s.packets := rfl
@[simp] theorem State.emit_txAnswers (e : TxEvent) : (s.emit e).txAnswers = s.txAnswers := rfl
@[simp] theorem State.emit_txSilent (e : TxEvent) : (s.emit e).txSilent = s.txSilent := rfl
@[simp] theorem State.emit_txDrawn (e : TxEvent) : (s.emit e).txDrawn = s.txDrawn := rfl
@[simp] theorem State.emit_glyphAnswers (e : TxEvent) : (s.emit e).glyphAnswers = s.glyphAnswers := rfl
@[simp] theorem State.emit_glyphSilent (e : TxEvent) : (s.emit e).glyphSilent = s.glyphSilent := rfl
@[simp] theorem State.emit_glyphDrawn (e : TxEvent) : (s.emit e).glyphDrawn = s.glyphDrawn := rfl
@[simp] theorem State.emit_glyphQueries (e : TxEvent) : (s.emit e).glyphQueries = s.glyphQueries := rfl
@[simp] theorem State.emit_cfg (e : TxEvent) : (s.emit e).cfg = s.cfg := rfl

/-! ### `State.txSelect` -/

@[simp] theorem State.txSelect_mode : s.txSelect.mode = s.mode := rfl
@[simp] theorem State.txSelect_fb : s.txSelect.fb = s.fb := rfl
@[simp] theorem State.txSelect_gaValid : s.txSelect.gaValid = s.gaValid := rfl
@[simp] theorem State.txSelect_gaV : s.txSelect.gaV = s.gaV := rfl
@[simp] theorem State.txSelect_gaH : s.txSelect.gaH = s.gaH := rfl
@[simp] theorem State.txSelect_ddValid : s.txSelect.ddValid = s.ddValid := rfl
@[simp] theorem State.txSelect_ddAddr : s.txSelect.ddAddr = s.ddAddr := rfl
@[simp] theorem State.txSelect_sel : s.txSelect.sel = true := rfl
@[simp] theorem State.txSelect_trace : s.txSelect.trace = s.trace ++ [.sel] := rfl
@[simp] theorem State.txSelect_responses : s.txSelect.responses = s.responses := rfl
@[simp] theorem State.txSelect_packets : s.txSelect.packets = s.packets := rfl
@[simp] theorem State.txSelect_txAnswers : s.txSelect.txAnswers = s.txAnswers := rfl
@[simp] theorem State.txSelect_txSilent : s.txSelect.txSilent = s.txSilent := rfl
@[simp] theorem State.txSelect_txDrawn : s.txSelect.txDrawn = s.txDrawn := rfl
@[simp] theorem State.txSelect_glyphAnswers : s.txSelect.glyphAnswers = s.glyphAnswers := rfl
@[simp] theorem State.txSelect_glyphSilent : s.txSelect.glyphSilent = s.glyphSilent := rfl
@[simp] theorem State.txSelect_glyphDrawn : s.txSelect.glyphDrawn = s.glyphDrawn := rfl
@[simp] theorem State.txSelect_glyphQueries : s.txSelect.glyphQueries = s.glyphQueries := rfl
@[simp] theorem State.txSelect_cfg : s.txSelect.cfg = s.cfg := rfl

/-! ### `State.txDeselect` -/

@[simp] theorem State.txDeselect_mode : s.txDeselect.mode = s.mode := rfl
@[simp] theorem State.txDeselect_fb : s.txDeselect.fb = s.fb := rfl
@[simp] theorem State.txDeselect_gaValid : s.txDeselect.gaValid = s.gaValid := rfl
@[simp] theorem State.txDeselect_gaV : s.txDeselect.gaV = s.gaV := rfl
@[simp] theorem State.txDeselect_gaH : s.txDeselect.gaH = s.gaH := rfl
@[simp] theorem State.txDeselect_ddValid : s.txDeselect.ddValid = s.ddValid := rfl
@[simp] theorem State.txDeselect_ddAddr : s.txDeselect.ddAddr = s.ddAddr := rfl
@[simp] theorem State.txDeselect_sel : s.txDeselect.sel = false := rfl
@[simp] theorem State.txDeselect_trace : s.txDeselect.trace = s.trace ++ [.desel] := rfl
@[simp] theorem State.txDeselect_responses : s.txDeselect.responses = s.responses := rfl
@[simp] theorem State.txDeselect_packets : s.txDeselect.packets = s.packets := rfl
@[simp] theorem State.txDeselect_txAnswers : s.txDeselect.txAnswers = s.txAnswers := rfl
@[simp] theorem State.txDeselect_txSilent : s.txDeselect.txSilent = s.txSilent := rfl
@[simp] theorem State.txDeselect_txDrawn : s.txDeselect.txDrawn = s.txDrawn := rfl
@[simp] theorem State.txDeselect_glyphAnswers : s.txDeselect.glyphAnswers = s.glyphAnswers := rfl
@[simp] theorem State.txDeselect_glyphSilent : s.txDeselect.glyphSilent = s.glyphSilent := rfl
@[simp] theorem State.txDeselect_glyphDrawn : s.txDeselect.glyphDrawn = s.glyphDrawn := rfl
@[simp] theorem State.txDeselect_glyphQueries : s.txDeselect.glyphQueries = s.glyphQueries := rfl
@[simp] theorem State.txDeselect_cfg : s.txDeselect.cfg = s.cfg := rfl

/-! ### `State.txResetPulse` -/

@[simp] theorem State.txResetPulse_mode : s.txResetPulse.mode = s.mode := rfl
@[simp] theorem State.txResetPulse_fb : s.txResetPulse.fb = s.fb := rfl
@[simp] theorem State.txResetPulse_gaValid : s.txResetPulse.gaValid = s.gaValid := rfl
@[simp] theorem State.txResetPulse_gaV : s.txResetPulse.gaV = s.gaV := rfl
@[simp] theorem State.txResetPulse_gaH : s.txResetPulse.gaH = s.gaH := rfl
@[simp] theorem State.txResetPulse_ddValid : s.txResetPulse.ddValid = s.ddValid := rfl
@[simp] theorem State.txResetPulse_ddAddr : s.txResetPulse.ddAddr = s.ddAddr := rfl
@[simp] theorem State.txResetPulse_sel : s.txResetPulse.sel = s.sel := rfl
@[simp] theorem State.txResetPulse_trace : s.txResetPulse.trace = s.trace ++ [.rstPulse] := rfl
@[simp] theorem State.txResetPulse_responses : s.txResetPulse.responses = s.responses := rfl
@[simp] theorem State.txResetPulse_packets : s.txResetPulse.packets = s.packets := rfl
@[simp] theorem State.txResetPulse_txAnswers : s.txResetPulse.txAnswers = s.txAnswers := rfl
@[simp] theorem State.txResetPulse_txSilent : s.txResetPulse.txSilent = s.txSilent := rfl
@[simp] theorem State.txResetPulse_txDrawn : s.txResetPulse.txDrawn = s.txDrawn := rfl
@[simp] theorem State.txResetPulse_glyphAnswers : s.txResetPulse.glyphAnswers = s.glyphAnswers := rfl
@[simp] theorem State.txResetPulse_glyphSilent : s.txResetPulse.glyphSilent = s.glyphSilent := rfl
@[simp] theorem State.txResetPulse_glyphDrawn : s.txResetPulse.glyphDrawn = s.glyphDrawn := rfl
@[simp] theorem State.txResetPulse_glyphQueries : s.txResetPulse.glyphQueries = s.glyphQueries := rfl
@[simp] theorem State.txResetPulse_cfg : s.txResetPulse.cfg = s.cfg := rfl

/-! ### `State.txAnswered` -/

@[simp] theorem State.txAnswered_mode : s.txAnswered.mode = s.mode := by unfold State.txAnswered; split <;> rfl
@[simp] theorem State.txAnswered_fb : s.txAnswered.fb = s.fb := by unfold State.txAnswered; split <;> rfl
@[simp] theorem State.txAnswered_gaValid : s.txAnswered.gaValid = s.gaValid := by unfold State.txAnswered; split <;> rfl
@[simp] theorem State.txAnswered_gaV : s.txAnswered.gaV = s.gaV := by unfold State.txAnswered; split <;> rfl
@[simp] theorem State.txAnswered_gaH : s.txAnswered.gaH = s.gaH := by unfold State.txAnswered; split <;> rfl
@[simp] theorem State.txAnswered_ddValid : s.txAnswered.ddValid = s.ddValid := by unfold State.txAnswered; split <;> rfl
@[simp] theorem State.txAnswered_ddAddr : s.txAnswered.ddAddr = s.ddAddr := by unfold State.txAnswered; split <;> rfl
@[simp] theorem State.txAnswered_sel : s.txAnswered.sel = s.sel := by unfold State.txAnswered; split <;> rfl
@[simp] theorem State.txAnswered_trace : s.txAnswered.trace = s.trace := by unfold State.txAnswered; split <;> rfl
@[simp] theorem State.txAnswered_responses : s.txAnswered.responses = s.responses := by unfold State.txAnswered; split <;> rfl
@[simp] theorem State.txAnswered_packets : s.txAnswered.packets = s.packets := by unfold State.txAnswered; split <;> rfl
@[simp] theorem State.txAnswered_txSilent : s.txAnswered.txSilent = s.txSilent := by unfold State.txAnswered; split <;> rfl
@[simp] theorem State.txAnswered_glyphAnswers : s.txAnswered.glyphAnswers = s.glyphAnswers := by unfold State.txAnswered; split <;> rfl
@[simp] theorem State.txAnswered_glyphSilent : s.txAnswered.glyphSilent = s.glyphSilent := by unfold State.txAnswered; split <;> rfl
@[simp] theorem State.txAnswered_glyphDrawn : s.txAnswered.glyphDrawn = s.glyphDrawn := by unfold State.txAnswered; split <;> rfl
@[simp] theorem State.txAnswered_glyphQueries : s.txAnswered.glyphQueries = s.glyphQueries := by unfold State.txAnswered; split <;> rfl
@[simp] theorem State.txAnswered_cfg : s.txAnswered.cfg = s.cfg := by unfold State.txAnswered; split <;> rfl

@[simp] theorem State.txAnswered_txAnswers : s.txAnswered.txAnswers = s.txAnswers.tail := by
  unfold State.txAnswered; split <;> simp_all

@[simp] theorem State.txAnswered_txDrawn :
    s.txAnswered.txDrawn = if s.txAnswers = [] then s.txDrawn + 1 else s.txDrawn := by
  unfold State.txAnswered; split <;> simp_all

/-! ### `State.glyphAnswered` -/

@[simp] theorem State.glyphAnswered_mode (q : GlyphQuery) : (s.glyphAnswered q).mode = s.mode := by
  unfold State.glyphAnswered; split <;> rfl
@[simp] theorem State.glyphAnswered_fb (q : GlyphQuery) : (s.glyphAnswered q).fb = s.fb := by
  unfold State.glyphAnswered; split <;> rfl
@[simp] theorem State.glyphAnswered_gaValid (q : GlyphQuery) : (s.glyphAnswered q).gaValid = s.gaValid := by
  unfold State.glyphAnswered; split <;> rfl
@[simp] theorem State.glyphAnswered_gaV (q : GlyphQuery) : (s.glyphAnswered q).gaV = s.gaV := by
  unfold State.glyphAnswered; split <;> rfl
@[simp] theorem State.glyphAnswered_gaH (q : GlyphQuery) : (s.glyphAnswered q).gaH = s.gaH := by
  unfold State.glyphAnswered; split <;> rfl
@[simp] theorem State.glyphAnswered_ddValid (q : GlyphQuery) : (s.glyphAnswered q).ddValid = s.ddValid := by
  unfold State.glyphAnswered; split <;> rfl
@[simp] theorem State.glyphAnswered_ddAddr (q : GlyphQuery) : (s.glyphAnswered q).ddAddr = s.ddAddr := by
  unfold State.glyphAnswered; split <;> rfl
@[simp] theorem State.glyphAnswered_sel (q : GlyphQuery) : (s.glyphAnswered q).sel = s.sel := by
  unfold State.glyphAnswered; split <;> rfl
@[simp] theorem State.glyphAnswered_trace (q : GlyphQuery) : (s.glyphAnswered q).trace = s.trace := by
  unfold State.glyphAnswered; split <;> rfl
@[simp] theorem State.glyphAnswered_responses (q : GlyphQuery) : (s.glyphAnswered q).responses = s.responses := by
  unfold State.glyphAnswered; split <;> rfl
@[simp] theorem State.glyphAnswered_packets (q : GlyphQuery) : (s.glyphAnswered q).packets = s.packets := by
  unfold State.glyphAnswered; split <;> rfl
@[simp] theorem State.glyphAnswered_txAnswers (q : GlyphQuery) : (s.glyphAnswered q).txAnswers = s.txAnswers := by
  unfold State.glyphAnswered; split <;> rfl
@[simp] theorem State.glyphAnswered_txSilent (q : GlyphQuery) : (s.glyphAnswered q).txSilent = s.txSilent := by
  unfold State.glyphAnswered; split <;> rfl
@[simp] theorem State.glyphAnswered_txDrawn (q : GlyphQuery) : (s.glyphAnswered q).txDrawn = s.txDrawn := by
  unfold State.glyphAnswered; split <;> rfl
@[simp] theorem State.glyphAnswered_glyphSilent (q : GlyphQuery) : (s.glyphAnswered q).glyphSilent = s.glyphSilent := by
  unfold State.glyphAnswered; split <;> rfl
@[simp] theorem State.glyphAnswered_cfg (q : GlyphQuery) : (s.glyphAnswered q).cfg = s.cfg := by
  unfold State.glyphAnswered; split <;> rfl

@[simp] theorem State.glyphAnswered_glyphQueries (q : GlyphQuery) :
    (s.glyphAnswered q).glyphQueries = s.glyphQueries ++ [q] := by
  unfold State.glyphAnswered; split <;> rfl

@[simp] theorem State.glyphAnswered_glyphAnswers (q : GlyphQuery) :
    (s.glyphAnswered q).glyphAnswers = s.glyphAnswers.tail := by
  unfold State.glyphAnswered; split <;> simp_all

@[simp] theorem State.glyphAnswered_glyphDrawn (q : GlyphQuery) :
    (s.glyphAnswered q).glyphDrawn = if s.glyphAnswers = [] then s.glyphDrawn + 1 else s.glyphDrawn := by
  unfold State.glyphAnswered; split <;> simp_all

/-! ### `State.transportAbort` (`60_exceptions.md` R196) -/

@[simp] theorem State.transportAbort_mode :
    s.transportAbort.mode = .error := by
  cases h : s.sel <;> simp [State.transportAbort, h]
@[simp] theorem State.transportAbort_fb :
    s.transportAbort.fb = s.fb := by
  cases h : s.sel <;> simp [State.transportAbort, h]
@[simp] theorem State.transportAbort_gaValid :
    s.transportAbort.gaValid = false := by
  cases h : s.sel <;> simp [State.transportAbort, h]
@[simp] theorem State.transportAbort_gaV :
    s.transportAbort.gaV = s.gaV := by
  cases h : s.sel <;> simp [State.transportAbort, h]
@[simp] theorem State.transportAbort_gaH :
    s.transportAbort.gaH = s.gaH := by
  cases h : s.sel <;> simp [State.transportAbort, h]
@[simp] theorem State.transportAbort_ddValid :
    s.transportAbort.ddValid = false := by
  cases h : s.sel <;> simp [State.transportAbort, h]
@[simp] theorem State.transportAbort_ddAddr :
    s.transportAbort.ddAddr = s.ddAddr := by
  cases h : s.sel <;> simp [State.transportAbort, h]
@[simp] theorem State.transportAbort_sel :
    s.transportAbort.sel = false := by
  cases h : s.sel <;> simp [State.transportAbort, h]
@[simp] theorem State.transportAbort_trace :
    s.transportAbort.trace = s.trace ++ (if s.sel then [.desel] else []) := by
  cases h : s.sel <;> simp [State.transportAbort, h]
@[simp] theorem State.transportAbort_responses :
    s.transportAbort.responses = s.responses ++ [responseWord .transportError .error false] := by
  cases h : s.sel <;> simp [State.transportAbort, h]
@[simp] theorem State.transportAbort_packets :
    s.transportAbort.packets = s.packets := by
  cases h : s.sel <;> simp [State.transportAbort, h]
@[simp] theorem State.transportAbort_txAnswers :
    s.transportAbort.txAnswers = s.txAnswers := by
  cases h : s.sel <;> simp [State.transportAbort, h]
@[simp] theorem State.transportAbort_txSilent :
    s.transportAbort.txSilent = s.txSilent := by
  cases h : s.sel <;> simp [State.transportAbort, h]
@[simp] theorem State.transportAbort_txDrawn :
    s.transportAbort.txDrawn = s.txDrawn := by
  cases h : s.sel <;> simp [State.transportAbort, h]
@[simp] theorem State.transportAbort_glyphAnswers :
    s.transportAbort.glyphAnswers = s.glyphAnswers := by
  cases h : s.sel <;> simp [State.transportAbort, h]
@[simp] theorem State.transportAbort_glyphSilent :
    s.transportAbort.glyphSilent = s.glyphSilent := by
  cases h : s.sel <;> simp [State.transportAbort, h]
@[simp] theorem State.transportAbort_glyphDrawn :
    s.transportAbort.glyphDrawn = s.glyphDrawn := by
  cases h : s.sel <;> simp [State.transportAbort, h]
@[simp] theorem State.transportAbort_glyphQueries :
    s.transportAbort.glyphQueries = s.glyphQueries := by
  cases h : s.sel <;> simp [State.transportAbort, h]
@[simp] theorem State.transportAbort_cfg :
    s.transportAbort.cfg = s.cfg := by
  cases h : s.sel <;> simp [State.transportAbort, h]

/-! ### `State.powerOn` -/

@[simp] theorem State.powerOn_mode (c : Config) : (State.powerOn c).mode = .uninitialized := rfl
@[simp] theorem State.powerOn_fb (c : Config) : (State.powerOn c).fb = Memory.ofBytes c.powerOnByte := by
  simp only [State.powerOn]
@[simp] theorem State.powerOn_gaValid (c : Config) : (State.powerOn c).gaValid = false := rfl
@[simp] theorem State.powerOn_gaV (c : Config) : (State.powerOn c).gaV = 0 := rfl
@[simp] theorem State.powerOn_gaH (c : Config) : (State.powerOn c).gaH = 0 := rfl
@[simp] theorem State.powerOn_ddValid (c : Config) : (State.powerOn c).ddValid = false := rfl
@[simp] theorem State.powerOn_ddAddr (c : Config) : (State.powerOn c).ddAddr = 0 := rfl
@[simp] theorem State.powerOn_sel (c : Config) : (State.powerOn c).sel = false := rfl
@[simp] theorem State.powerOn_trace (c : Config) : (State.powerOn c).trace = [] := rfl
@[simp] theorem State.powerOn_responses (c : Config) : (State.powerOn c).responses = [] := rfl
@[simp] theorem State.powerOn_packets (c : Config) : (State.powerOn c).packets = [] := rfl
@[simp] theorem State.powerOn_txAnswers (c : Config) : (State.powerOn c).txAnswers = [] := rfl
@[simp] theorem State.powerOn_txSilent (c : Config) : (State.powerOn c).txSilent = false := rfl
@[simp] theorem State.powerOn_txDrawn (c : Config) : (State.powerOn c).txDrawn = 0 := rfl
@[simp] theorem State.powerOn_glyphAnswers (c : Config) : (State.powerOn c).glyphAnswers = [] := rfl
@[simp] theorem State.powerOn_glyphSilent (c : Config) : (State.powerOn c).glyphSilent = false := rfl
@[simp] theorem State.powerOn_glyphDrawn (c : Config) : (State.powerOn c).glyphDrawn = 0 := rfl
@[simp] theorem State.powerOn_glyphQueries (c : Config) : (State.powerOn c).glyphQueries = [] := rfl
@[simp] theorem State.powerOn_cfg (c : Config) : (State.powerOn c).cfg = c := rfl

end Sys2Proof.Machine
end

