-- ==== Sys2Proof/Laws/Script.lean ====
section
/-! SUPPORT. Everything the script of a protocol command can do, said once: it completes with every byte accepted, or
it ends in the abort at the first byte refused (`runScript_cases`). -/

namespace Sys2Proof.Machine

/-! ## Answers -/

theorem txAfter_succ (n : Nat) (s : State) : txAfter (n + 1) s = txAfter n s.txAnswered := rfl

theorem txNth_succ (n : Nat) (s : State) : txNth (n + 1) s = txNth n s.txAnswered := rfl

theorem txNth_zero (s : State) : txNth 0 s = s.txAnswer := rfl

/-- The answers depend on the Transport's fields only. -/
theorem txNth_congr : ∀ (n : Nat) {s t : State}, t.txAnswers = s.txAnswers → t.txDrawn = s.txDrawn → txNth n t = txNth n s
  | 0, s, t, h1, h2 => by simp only [txNth_zero, State.txAnswer, h1, h2]
  | n + 1, s, t, h1, h2 => by
      rw [txNth_succ, txNth_succ]
      exact txNth_congr n (by simp [h1]) (by simp [h1, h2])

/-- The listed answers come first, then the free ones. -/
theorem txNth_eq : ∀ (n : Nat) (s : State),
    txNth n s = s.txAnswers.getD n (Config.freeTxAnswer (s.txDrawn + (n - s.txAnswers.length)))
  | 0, s => by
      rw [txNth_zero, State.txAnswer]
      cases h : s.txAnswers <;> simp
  | n + 1, s => by
      rw [txNth_succ, txNth_eq n]
      cases h : s.txAnswers with
      | nil => simp [h]; congr 1; omega
      | cons a l => simp [h]

theorem txAfter_txAnswers : ∀ (n : Nat) (s : State), (txAfter n s).txAnswers = s.txAnswers.drop n
  | 0, _ => rfl
  | n + 1, s => by rw [txAfter_succ, txAfter_txAnswers n]; simp

theorem txAfter_txDrawn : ∀ (n : Nat) (s : State), (txAfter n s).txDrawn = s.txDrawn + (n - s.txAnswers.length)
  | 0, _ => by simp [txAfter]
  | n + 1, s => by
      rw [txAfter_succ, txAfter_txDrawn n]
      cases h : s.txAnswers with
      | nil => simp [h]; omega
      | cons a l => simp [h]

/-! ## Events and state of a script whose bytes are all accepted -/

/-- The events of a script whose bytes are all accepted. -/
def scriptEvents : List PeOp → List TxEvent
  | [] => []
  | .pulse :: k => .rstPulse :: scriptEvents k
  | .select :: k => .sel :: scriptEvents k
  | .deselect :: k => .desel :: scriptEvents k
  | .write b :: k => .byte b :: scriptEvents k
  | .invalidate :: k => scriptEvents k
  | .setGa _ _ :: k => scriptEvents k
  | .setDd _ :: k => scriptEvents k
  | .setMode _ :: k => scriptEvents k

/-- One operation whose byte, if it has one, is accepted. -/
def opDone : PeOp → State → State
  | .pulse, s => s.txResetPulse
  | .select, s => s.txSelect
  | .deselect, s => s.txDeselect
  | .write b, s => s.txAnswered.emit (.byte b)
  | .invalidate, s => { s with gaValid := false, ddValid := false }
  | .setGa v h, s => { s with gaV := v, gaH := h, gaValid := true }
  | .setDd a, s => { s with ddAddr := a, ddValid := true }
  | .setMode m, s => { s with mode := m }

/-- A script whose bytes are all accepted. -/
def scriptDone (ops : List PeOp) (s : State) : State := ops.foldl (fun t op => opDone op t) s

@[simp] theorem scriptDone_nil (s : State) : scriptDone [] s = s := rfl

@[simp] theorem scriptDone_cons (op : PeOp) (ops : List PeOp) (s : State) :
    scriptDone (op :: ops) s = scriptDone ops (opDone op s) := rfl

@[simp] theorem scriptDone_append (a b : List PeOp) (s : State) :
    scriptDone (a ++ b) s = scriptDone b (scriptDone a s) := List.foldl_append

@[simp] theorem scriptEvents_append (a b : List PeOp) : scriptEvents (a ++ b) = scriptEvents a ++ scriptEvents b := by
  induction a with
  | nil => rfl
  | cons op a ih => cases op <;> simp [scriptEvents, ih]

@[simp] theorem writeCount_append (a b : List PeOp) : writeCount (a ++ b) = writeCount a + writeCount b := by
  induction a with
  | nil => simp [writeCount]
  | cons op a ih => cases op <;> (simp [writeCount, ih]; try omega)

@[simp] theorem scriptEvents_sendFrame (rs : Bool) (b : Byte) : scriptEvents (sendFrame rs b) = frameEvents rs b := rfl

@[simp] theorem writeCount_sendFrame (rs : Bool) (b : Byte) : writeCount (sendFrame rs b) = 3 := rfl

@[simp] theorem opDone_fb (op : PeOp) (s : State) : (opDone op s).fb = s.fb := by cases op <;> simp [opDone]
@[simp] theorem opDone_cfg (op : PeOp) (s : State) : (opDone op s).cfg = s.cfg := by cases op <;> simp [opDone]
@[simp] theorem opDone_packets (op : PeOp) (s : State) : (opDone op s).packets = s.packets := by cases op <;> simp [opDone]
@[simp] theorem opDone_responses (op : PeOp) (s : State) : (opDone op s).responses = s.responses := by
  cases op <;> simp [opDone]
@[simp] theorem opDone_txSilent (op : PeOp) (s : State) : (opDone op s).txSilent = s.txSilent := by cases op <;> simp [opDone]
@[simp] theorem opDone_glyphAnswers (op : PeOp) (s : State) : (opDone op s).glyphAnswers = s.glyphAnswers := by
  cases op <;> simp [opDone]
@[simp] theorem opDone_glyphSilent (op : PeOp) (s : State) : (opDone op s).glyphSilent = s.glyphSilent := by
  cases op <;> simp [opDone]
@[simp] theorem opDone_glyphDrawn (op : PeOp) (s : State) : (opDone op s).glyphDrawn = s.glyphDrawn := by
  cases op <;> simp [opDone]
@[simp] theorem opDone_glyphQueries (op : PeOp) (s : State) : (opDone op s).glyphQueries = s.glyphQueries := by
  cases op <;> simp [opDone]

/-- A field that no operation changes, no script changes. -/
theorem scriptDone_field {α : Type} (f : State → α) (h : ∀ op s, f (opDone op s) = f s) (ops : List PeOp) :
    ∀ s, f (scriptDone ops s) = f s := by
  induction ops with
  | nil => intro s; rfl
  | cons op ops ih => intro s; rw [scriptDone_cons, ih, h]

@[simp] theorem scriptDone_fb (ops : List PeOp) (s : State) : (scriptDone ops s).fb = s.fb :=
  scriptDone_field State.fb opDone_fb ops s
@[simp] theorem scriptDone_cfg (ops : List PeOp) (s : State) : (scriptDone ops s).cfg = s.cfg :=
  scriptDone_field State.cfg opDone_cfg ops s
@[simp] theorem scriptDone_packets (ops : List PeOp) (s : State) : (scriptDone ops s).packets = s.packets :=
  scriptDone_field State.packets opDone_packets ops s
@[simp] theorem scriptDone_responses (ops : List PeOp) (s : State) : (scriptDone ops s).responses = s.responses :=
  scriptDone_field State.responses opDone_responses ops s
@[simp] theorem scriptDone_txSilent (ops : List PeOp) (s : State) : (scriptDone ops s).txSilent = s.txSilent :=
  scriptDone_field State.txSilent opDone_txSilent ops s
@[simp] theorem scriptDone_glyphAnswers (ops : List PeOp) (s : State) :
    (scriptDone ops s).glyphAnswers = s.glyphAnswers := scriptDone_field State.glyphAnswers opDone_glyphAnswers ops s
@[simp] theorem scriptDone_glyphSilent (ops : List PeOp) (s : State) : (scriptDone ops s).glyphSilent = s.glyphSilent :=
  scriptDone_field State.glyphSilent opDone_glyphSilent ops s
@[simp] theorem scriptDone_glyphDrawn (ops : List PeOp) (s : State) : (scriptDone ops s).glyphDrawn = s.glyphDrawn :=
  scriptDone_field State.glyphDrawn opDone_glyphDrawn ops s
@[simp] theorem scriptDone_glyphQueries (ops : List PeOp) (s : State) :
    (scriptDone ops s).glyphQueries = s.glyphQueries := scriptDone_field State.glyphQueries opDone_glyphQueries ops s

@[simp] theorem scriptDone_trace (ops : List PeOp) : ∀ s, (scriptDone ops s).trace = s.trace ++ scriptEvents ops := by
  induction ops with
  | nil => intro s; simp [scriptEvents]
  | cons op ops ih => intro s; rw [scriptDone_cons, ih]; cases op <;> simp [opDone, scriptEvents]

/-- The Transport's fields after a script whose bytes are all accepted: one answer used per byte. -/
theorem scriptDone_tx (ops : List PeOp) : ∀ s,
    (scriptDone ops s).txAnswers = (txAfter (writeCount ops) s).txAnswers ∧
      (scriptDone ops s).txDrawn = (txAfter (writeCount ops) s).txDrawn := by
  induction ops with
  | nil => intro s; exact ⟨rfl, rfl⟩
  | cons op ops ih =>
    intro s
    rw [scriptDone_cons, (ih _).1, (ih _).2]
    cases op <;> simp [opDone, writeCount, txAfter_txAnswers, txAfter_txDrawn, txAfter_succ]

@[simp] theorem scriptDone_txAnswers (ops : List PeOp) (s : State) :
    (scriptDone ops s).txAnswers = s.txAnswers.drop (writeCount ops) := by
  rw [(scriptDone_tx ops s).1, txAfter_txAnswers]

@[simp] theorem scriptDone_txDrawn (ops : List PeOp) (s : State) :
    (scriptDone ops s).txDrawn = s.txDrawn + (writeCount ops - s.txAnswers.length) := by
  rw [(scriptDone_tx ops s).2, txAfter_txDrawn]

/-! ## The inversion lemma -/

/-- A script whose bytes are all accepted runs to its end. -/
theorem runScript_accepts (ops rest : List PeOp) : ∀ s, (∀ k, k < writeCount ops → txNth k s = true) →
    runScript (ops ++ rest) s = runScript rest (scriptDone ops s) := by
  induction ops with
  | nil => intro s _; rfl
  | cons op ops ih =>
    intro s h
    have hcongr : ∀ t : State, t.txAnswers = s.txAnswers → t.txDrawn = s.txDrawn →
        (∀ k, k < writeCount ops → txNth k s = true) → ∀ k, k < writeCount ops → txNth k t = true := by
      intro t h1 h2 h3 k hk; rw [txNth_congr k h1 h2]; exact h3 k hk
    cases op with
    | write b =>
      have h0 : s.txAnswer = true := h 0 (by simp [writeCount])
      have h1 : ∀ k, k < writeCount ops → txNth k (s.txAnswered.emit (.byte b)) = true := by
        intro k hk
        refine (txNth_congr (t := s.txAnswered.emit (.byte b)) (s := s.txAnswered) k rfl rfl).trans ?_
        exact h (k + 1) (by simp [writeCount]; omega)
      rw [List.cons_append, runScript, if_pos h0]
      exact ih _ h1
    | pulse => exact ih _ (hcongr _ rfl rfl h)
    | select => exact ih _ (hcongr _ rfl rfl h)
    | deselect => exact ih _ (hcongr _ rfl rfl h)
    | invalidate => exact ih _ (hcongr _ rfl rfl h)
    | setGa v w => exact ih _ (hcongr _ rfl rfl h)
    | setDd a => exact ih _ (hcongr _ rfl rfl h)
    | setMode m => exact ih _ (hcongr _ rfl rfl h)

/-- The end of a script whose bytes are all accepted. -/
theorem runScript_done (ops : List PeOp) (s : State) (h : ∀ k, k < writeCount ops → txNth k s = true) :
    runScript ops s = (scriptDone ops s).respond .ok false := by
  have := runScript_accepts ops [] s h
  rwa [List.append_nil] at this

/-- The byte at which a script with a refused byte stops. -/
theorem script_split (ops : List PeOp) : ∀ k, k < writeCount ops →
    ∃ pre b post, ops = pre ++ .write b :: post ∧ writeCount pre = k := by
  induction ops with
  | nil => intro k hk; simp [writeCount] at hk
  | cons op ops ih =>
    intro k hk
    cases op with
    | write b =>
      cases k with
      | zero => exact ⟨[], b, ops, rfl, rfl⟩
      | succ k =>
        obtain ⟨pre, c, post, h1, h2⟩ := ih k (by simp [writeCount] at hk; omega)
        exact ⟨.write b :: pre, c, post, by rw [h1]; rfl, by simp [writeCount, h2]⟩
    | pulse => obtain ⟨pre, c, post, h1, h2⟩ := ih k hk; exact ⟨.pulse :: pre, c, post, by rw [h1]; rfl, h2⟩
    | select => obtain ⟨pre, c, post, h1, h2⟩ := ih k hk; exact ⟨.select :: pre, c, post, by rw [h1]; rfl, h2⟩
    | deselect => obtain ⟨pre, c, post, h1, h2⟩ := ih k hk; exact ⟨.deselect :: pre, c, post, by rw [h1]; rfl, h2⟩
    | invalidate => obtain ⟨pre, c, post, h1, h2⟩ := ih k hk; exact ⟨.invalidate :: pre, c, post, by rw [h1]; rfl, h2⟩
    | setGa v w => obtain ⟨pre, c, post, h1, h2⟩ := ih k hk; exact ⟨.setGa v w :: pre, c, post, by rw [h1]; rfl, h2⟩
    | setDd a => obtain ⟨pre, c, post, h1, h2⟩ := ih k hk; exact ⟨.setDd a :: pre, c, post, by rw [h1]; rfl, h2⟩
    | setMode m => obtain ⟨pre, c, post, h1, h2⟩ := ih k hk; exact ⟨.setMode m :: pre, c, post, by rw [h1]; rfl, h2⟩

/-- A script ends in the abort at the first byte refused. -/
theorem runScript_refuses (pre post : List PeOp) (b : Byte) (s : State)
    (h : ∀ j, j < writeCount pre → txNth j s = true) (hk : txNth (writeCount pre) s = false) :
    runScript (pre ++ .write b :: post) s = ((scriptDone pre s).txAnswered.emit (.fail b)).transportAbort := by
  rw [runScript_accepts pre _ s h, runScript]
  have : (scriptDone pre s).txAnswer = false := by
    rw [← txNth_zero, txNth_congr 0 (s := txAfter (writeCount pre) s) (scriptDone_tx pre s).1 (scriptDone_tx pre s).2]
    exact hk
  rw [this]; rfl

/-- Everything a script can do: every byte is accepted and it responds `OK`, or it stops at the first byte refused,
and aborts. -/
theorem runScript_cases (ops : List PeOp) (s : State) :
    ((∀ k, k < writeCount ops → txNth k s = true) ∧ runScript ops s = (scriptDone ops s).respond .ok false) ∨
    (∃ pre b post, ops = pre ++ .write b :: post ∧ TxFailsAt (writeCount pre) s ∧
      runScript ops s = ((scriptDone pre s).txAnswered.emit (.fail b)).transportAbort) := by
  by_cases h : ∀ k, k < writeCount ops → txNth k s = true
  · exact .inl ⟨h, runScript_done ops s h⟩
  · simp only [not_forall, Bool.not_eq_true] at h
    obtain ⟨k0, hk0⟩ := h
    have hex : ∃ k, k < writeCount ops ∧ txNth k s = false := ⟨k0, hk0.1, hk0.2⟩
    classical
    have hk := Nat.find_spec hex
    have hmin : ∀ j, j < Nat.find hex → txNth j s = true := by
      intro j hj
      have := Nat.find_min hex hj
      simp only [not_and, Bool.not_eq_false] at this
      exact this (by omega)
    obtain ⟨pre, b, post, h1, h2⟩ := script_split ops _ hk.1
    refine .inr ⟨pre, b, post, h1, ?_, ?_⟩
    · rw [h2]; exact ⟨hmin, hk.2⟩
    · rw [h1]; exact runScript_refuses pre post b s (by rw [h2]; exact hmin) (by rw [h2]; exact hk.2)

end Sys2Proof.Machine
end

