-- ==== Sys2Proof/Laws/Shapes.lean ====
section
/-! SUPPORT. Membership in the lists of pixels that the drawing commands share: ranges, boxes and bitmaps. -/

namespace Sys2Proof.Machine

theorem mem_intRange {a b x : Int} : x ∈ intRange a b ↔ a ≤ x ∧ x ≤ b := by
  simp only [intRange, List.mem_map, List.mem_range]
  constructor
  · rintro ⟨i, hi, rfl⟩; omega
  · rintro ⟨h1, h2⟩; exact ⟨(x - a).toNat, by omega, by omega⟩

/-- A pixel of a clipped box (`41_rasterizer.md` R123). -/
theorem mem_boxPts {xa ya xb yb x y : Int} :
    (x, y) ∈ boxPts xa ya xb yb ↔ (xa ≤ x ∧ x ≤ xb) ∧ (ya ≤ y ∧ y ≤ yb) ∧ InRange x y := by
  simp only [boxPts, List.mem_flatMap, List.mem_map, mem_intRange, Prod.mk.injEq, InRange]
  constructor
  · rintro ⟨y', hy, x', hx, rfl, rfl⟩; omega
  · intro h; exact ⟨y, by omega, x, by omega, rfl, rfl⟩

/-- On the grid, clipping takes nothing away. -/
theorem mem_boxPts_grid {xa ya xb yb : Int} {x y : Nat} (hx : x < fbWidth) (hy : y < fbHeight) :
    ((x : Int), (y : Int)) ∈ boxPts xa ya xb yb ↔ (xa ≤ x ∧ x ≤ xb) ∧ (ya ≤ y ∧ y ≤ yb) := by
  simp only [fbWidth, fbHeight] at hx hy
  rw [mem_boxPts, InRange]
  omega

theorem foldl_onto_append (blend : Blend) (px py : Nat) (a b : List Dot) (old : Pixel) :
    (a ++ b).foldl (Dot.onto blend px py) old = b.foldl (Dot.onto blend px py) (a.foldl (Dot.onto blend px py) old) :=
  List.foldl_append

/-- One row of a bitmap onto one pixel. -/
theorem foldl_onto_row (blend : Blend) (px py : Nat) (x yj : Int) (src : Nat → Pixel) (w : Nat) (old : Pixel) :
    ((List.range w).map fun (i : Nat) => (⟨x + i, yj, src i⟩ : Dot)).foldl (Dot.onto blend px py) old =
      if yj = py ∧ x ≤ px ∧ (px : Int) < x + w then blendPixel blend old (src (px - x).toNat) else old := by
  induction w with
  | zero => rw [if_neg (by omega)]; rfl
  | succ w ih =>
    rw [List.range_succ, List.map_append, foldl_onto_append, ih]
    simp only [List.map_cons, List.map_nil, List.foldl_cons, List.foldl_nil, Dot.onto]
    by_cases h1 : yj = py
    · by_cases h2 : x + w = px
      · rw [if_pos ⟨h2, h1⟩, if_neg (by omega), if_pos (by omega)]
        congr 2; omega
      · rw [if_neg (fun h => h2 h.1)]
        congr 1; simp only [eq_iff_iff]; omega
    · rw [if_neg (fun h => h1 h.2), if_neg (fun h => h1 h.1), if_neg (fun h => h1 h.1)]

/-- What compositing a bitmap does to one pixel of the grid: inside the box the blend with the source pixel, outside
nothing (`40_framebuffer.md` R107, `42_text.md` R154). -/
theorem Memory.getPixel_bitmap {m : Memory} (hm : m.wf = true) (blend : Blend) (x y : Int) (w h : Nat)
    (src : Nat → Nat → Pixel) {px py : Nat} (hpx : px < fbWidth) (hpy : py < fbHeight) :
    (m.plotDots blend (bitmapDots x y w h src)).getPixel px py =
      if (x ≤ px ∧ (px : Int) < x + w) ∧ (y ≤ py ∧ (py : Int) < y + h) then
        blendPixel blend (m.getPixel px py) (src (px - x).toNat (py - y).toNat)
      else m.getPixel px py := by
  rw [Memory.getPixel_plotDots blend hpx hpy _ hm]
  generalize m.getPixel px py = old
  induction h with
  | zero => rw [if_neg (by omega)]; rfl
  | succ h ih =>
    simp only [bitmapDots] at ih ⊢
    rw [List.range_succ, List.flatMap_append, foldl_onto_append, ih, List.flatMap_cons, List.flatMap_nil,
      List.append_nil, foldl_onto_row]
    by_cases hx : x ≤ px ∧ (px : Int) < x + w
    · by_cases hy : y + h = py
      · rw [if_pos ⟨hy, hx⟩, if_neg (by omega), if_pos (by omega)]
        congr 2; omega
      · rw [if_neg (fun h => hy h.1)]
        congr 1; simp only [eq_iff_iff]; omega
    · rw [if_neg (fun h => hx h.2), if_neg (fun h => hx h.1), if_neg (fun h => hx h.1)]

/-- Two drawings of the same pixels with one value are the same frame buffer. -/
theorem Memory.draw_congr {m : Memory} (hm : m.wf = true) {p q : List (Int × Int)} (v : Pixel)
    (h : ∀ x y : Nat, x < fbWidth → y < fbHeight → (((x : Int), (y : Int)) ∈ p ↔ ((x : Int), (y : Int)) ∈ q)) :
    m.draw p v = m.draw q v :=
  Memory.ext_pixel (Memory.draw_wf hm p v) (Memory.draw_wf hm q v) fun x y hx hy => by
    rw [Memory.getPixel_draw hm p v hx hy, Memory.getPixel_draw hm q v hx hy]
    exact if_congr (h x y hx hy) rfl rfl

end Sys2Proof.Machine
end

