-- ==== Sys2Proof/Laws/Commands.lean ====
section
/-! SUPPORT. What a protocol command can do, said once (`exec_protocol_cases`), with the facts about its script that
the statements need: how many bytes it sends, which events it causes, that select is held at every byte; and what a
`TEXT` leaves (`renderText_eq`). -/

namespace Sys2Proof.Machine

/-! ## Frames and groups of frames -/

@[simp] theorem writeCount_sendCmd (b : Byte) : writeCount (sendCmd b) = 3 := rfl
@[simp] theorem writeCount_sendData (b : Byte) : writeCount (sendData b) = 3 := rfl
@[simp] theorem scriptEvents_sendCmd (b : Byte) : scriptEvents (sendCmd b) = frameEvents false b := rfl
@[simp] theorem scriptEvents_sendData (b : Byte) : scriptEvents (sendData b) = frameEvents true b := rfl

theorem writeCount_flatMap {α : Type} (f : α → List PeOp) (n : Nat) (h : ∀ a, writeCount (f a) = n) (l : List α) :
    writeCount (l.flatMap f) = n * l.length := by
  induction l with
  | nil => rfl
  | cons a l ih => simp only [List.flatMap_cons, writeCount_append, h, ih, List.length_cons]; ring

theorem scriptEvents_flatMap {α : Type} (f : α → List PeOp) (l : List α) :
    scriptEvents (l.flatMap f) = l.flatMap fun a => scriptEvents (f a) := by
  induction l with
  | nil => rfl
  | cons a l ih => simp [List.flatMap_cons, ih]

/-- A field that none of the scripts changes, their concatenation does not change. -/
theorem scriptDone_flatMap {α β : Type} (f : State → β) (g : α → List PeOp)
    (h : ∀ a s, f (scriptDone (g a) s) = f s) (l : List α) : ∀ s, f (scriptDone (l.flatMap g) s) = f s := by
  induction l with
  | nil => intro s; rfl
  | cons a l ih => intro s; rw [List.flatMap_cons, scriptDone_append, ih, h]

/-- A frame leaves every field alone that a write leaves alone. -/
theorem scriptDone_sendFrame {β : Type} (f : State → β) (h : ∀ b s, f (opDone (.write b) s) = f s) (rs : Bool)
    (b : Byte) (s : State) : f (scriptDone (sendFrame rs b) s) = f s := by
  simp [sendFrame, frame, h]

/-- The accepted bytes among the events are the bytes the script hands over. -/
theorem scriptEvents_countP (ops : List PeOp) : (scriptEvents ops).countP TxEvent.isByte = writeCount ops := by
  induction ops with
  | nil => rfl
  | cons op k ih => cases op <;> first | exact ih | (simp only [scriptEvents, writeCount, List.countP_cons, ih]; rfl)

/-! ## Select is held at every byte (`43_protocol.md` R171) -/

/-- With select as the first argument says, the script holds select at every byte it hands over. -/
def selHeld : Bool → List PeOp → Bool
  | _, [] => true
  | _, .select :: k => selHeld true k
  | _, .deselect :: k => selHeld false k
  | b, .write _ :: k => b && selHeld b k
  | b, .pulse :: k => selHeld b k
  | b, .invalidate :: k => selHeld b k
  | b, .setGa _ _ :: k => selHeld b k
  | b, .setDd _ :: k => selHeld b k
  | b, .setMode _ :: k => selHeld b k

/-- The script has no select operation. -/
def selFree : List PeOp → Bool
  | [] => true
  | .select :: _ => false
  | .deselect :: _ => false
  | .write _ :: k => selFree k
  | .pulse :: k => selFree k
  | .invalidate :: k => selFree k
  | .setGa _ _ :: k => selFree k
  | .setDd _ :: k => selFree k
  | .setMode _ :: k => selFree k

theorem selHeld_true {a : Bool} : ∀ ops, selHeld false ops = true → selHeld a ops = true := by
  intro ops
  induction ops with
  | nil => intro; rfl
  | cons op k ih => cases op <;> simp [selHeld] <;> intro h <;> first | exact h | exact ih h

theorem selHeld_append (a b : List PeOp) : ∀ x, selHeld x a = true → selHeld false b = true → selHeld x (a ++ b) = true := by
  induction a with
  | nil => intro x _ h; exact selHeld_true (a := x) b h
  | cons op a ih =>
    intro x
    cases op <;> simp only [selHeld, List.cons_append, Bool.and_eq_true] <;> intro h1 h2 <;>
      first | exact ih _ h1 h2 | exact ⟨h1.1, ih _ h1.2 h2⟩

theorem selHeld_selFree (a b : List PeOp) : selFree a = true → selHeld true (a ++ b) = selHeld true b := by
  induction a with
  | nil => intro; rfl
  | cons op a ih =>
    cases op <;> simp only [selHeld, selFree, List.cons_append, Bool.true_and] <;> intro h <;>
      first | exact ih h | exact absurd h (by decide)

theorem selFree_append (a b : List PeOp) : selFree (a ++ b) = (selFree a && selFree b) := by
  induction a with
  | nil => simp [selFree]
  | cons op a ih => cases op <;> simp [selFree, ih]

theorem selFree_flatMap {α : Type} (f : α → List PeOp) (h : ∀ a, selFree (f a) = true) (l : List α) :
    selFree (l.flatMap f) = true := by
  induction l with
  | nil => rfl
  | cons a l ih => simp [List.flatMap_cons, selFree_append, h, ih]

/-- A bracket of select-free operations holds select. -/
theorem selHeld_bracket (x : Bool) (ops : List PeOp) (h : selFree ops = true) : selHeld x (bracket ops) = true := by
  simp only [bracket, List.cons_append, selHeld]
  rw [selHeld_selFree _ _ h]; rfl

theorem scriptDone_sel_of_selHeld (pre post : List PeOp) (b : Byte) : ∀ s : State,
    selHeld s.sel (pre ++ .write b :: post) = true → (scriptDone pre s).sel = true := by
  induction pre with
  | nil => intro s h; simp [selHeld] at h; simpa using h.1
  | cons op pre ih =>
    intro s h
    rw [scriptDone_cons]
    apply ih
    cases op <;> simp [selHeld, opDone] at h ⊢ <;>
      first | exact h | (obtain ⟨h1, h2⟩ := h; rw [h1] at h2 ⊢; exact h2)

/-! ## `protocolRun` -/

/-- All bytes accepted. -/
theorem protocolRun_accepts (ops : List PeOp) (s : State) (h : TxAccepts (writeCount ops) s) :
    protocolRun ops s = .next ((scriptDone ops s).respond .ok false) := by
  unfold protocolRun; rw [h.1]; simp [runScript_done ops s h.2]

/-- A Transport that answers `k + 1` writes and refuses the last of them does not stall a longer script. -/
theorem TxRefuses.not_stalls {k n : Nat} {s : State} (h : TxRefuses k s) : s.txStalls n = false := by
  have h0 := h.1
  simp only [State.txStalls, Bool.and_eq_false_iff, decide_eq_false_iff_not, not_lt] at h0 ⊢
  rcases h0 with h0 | h0
  · exact .inl h0
  · have h1 := h.2.2
    rw [txNth_eq] at h1
    have hl : k < s.txAnswers.length := by omega
    rw [List.getD_eq_getElem _ _ hl] at h1
    left; right
    rw [List.all_eq_false]
    exact ⟨_, List.getElem_mem hl, by simp [h1]⟩

/-- Byte number `k` refused: the script stops there, with select held, and aborts. -/
theorem protocolRun_refuses (ops : List PeOp) (s : State) (k : Nat) (hk : k < writeCount ops) (h : TxRefuses k s)
    (hs : selHeld s.sel ops = true) :
    ∃ pre b post, ops = pre ++ .write b :: post ∧ writeCount pre = k ∧ (scriptDone pre s).sel = true ∧
      protocolRun ops s = .next (((scriptDone pre s).txAnswered.emit (.fail b)).transportAbort) := by
  obtain ⟨pre, b, post, h1, h2⟩ := script_split ops k hk
  refine ⟨pre, b, post, h1, h2, scriptDone_sel_of_selHeld pre post b s (h1 ▸ hs), ?_⟩
  unfold protocolRun
  rw [h.not_stalls, h1, runScript_refuses pre post b s (by rw [h2]; exact h.2.1) (by rw [h2]; exact h.2.2)]
  rfl

/-- Cutting the events of a script at a byte: what came before, the byte refused, select released. -/
theorem refusedAt_scriptEvents (b : Byte) (post : List PeOp) : ∀ pre : List PeOp,
    refusedAt (writeCount pre) (scriptEvents (pre ++ .write b :: post)) = scriptEvents pre ++ [.fail b, .desel]
  | [] => rfl
  | op :: pre => by
      have ih := refusedAt_scriptEvents b post pre
      cases op <;> simp only [List.cons_append, scriptEvents, writeCount, refusedAt, ih]

/-- A script leaves the frame buffer alone (`40_framebuffer.md` R109). -/
@[simp] theorem runScript_fb (ops : List PeOp) (s : State) : (runScript ops s).fb = s.fb := by
  rcases runScript_cases ops s with ⟨_, h⟩ | ⟨pre, b, post, _, _, h⟩ <;> rw [h]
  · simp
  · simp only [State.transportAbort]; split <;> simp

/-- The state the abort leaves when byte number `writeCount pre` of a script is refused. -/
theorem transportAbort_aborted (pre post : List PeOp) (b : Byte) (s : State) (h : (scriptDone pre s).sel = true) :
    Aborted (writeCount pre) (scriptEvents (pre ++ .write b :: post)) s
      (((scriptDone pre s).txAnswered.emit (.fail b)).transportAbort) := by
  rw [Aborted, refusedAt_scriptEvents]
  unfold State.transportAbort
  simp [h, State.respond]
  decide

/-! ## The transfer of a `PRESENT` -/

theorem writeCount_rowScript (c : Config) (m : Memory) (y : Nat) : writeCount (rowScript c m y) = 54 := by
  simp [rowScript, writeCount, writeCount_flatMap _ 3 fun k => writeCount_sendData (m.fbByte y k), rowBytes]

theorem writeCount_transferScript (c : Config) (m : Memory) : writeCount (transferScript c m) = 3456 := by
  simp [transferScript, bracket, writeCount, writeCount_flatMap _ 54 (writeCount_rowScript c m), fbHeight]

theorem scriptEvents_rowScript (c : Config) (m : Memory) (y : Nat) :
    scriptEvents (rowScript c m y) =
      frameEvents false (c.cmdSetAddr ||| BitVec.ofNat 8 (y % 32)) ++
        frameEvents false (c.cmdSetAddr ||| BitVec.ofNat 8 (c.hBottom.toNat * (y / 32))) ++
        (List.range 16).flatMap fun k => frameEvents true (m.fbByte y k) := by
  simp only [rowScript, scriptEvents_append, scriptEvents_sendCmd, scriptEvents_flatMap, scriptEvents_sendData,
    scriptEvents, List.append_nil]
  simp [gdV, gdH0, gdRows, rowBytes]

theorem scriptEvents_transferScript (c : Config) (m : Memory) :
    scriptEvents (transferScript c m) = presentEvents c m := by
  simp only [transferScript, presentEvents, bracket, List.cons_append, scriptEvents, scriptEvents_append,
    scriptEvents_flatMap, scriptEvents_rowScript]
  rfl

theorem selFree_rowScript (c : Config) (m : Memory) (y : Nat) : selFree (rowScript c m y) = true := by
  simp only [rowScript, selFree_append, Bool.and_eq_true]
  exact ⟨⟨⟨rfl, rfl⟩, rfl⟩, selFree_flatMap _ (fun _ => rfl) _⟩

theorem selHeld_transferScript (x : Bool) (c : Config) (m : Memory) : selHeld x (transferScript c m) = true :=
  selHeld_bracket x _ (selFree_flatMap _ (selFree_rowScript c m) _)

/-! ## The protocol commands -/

/-- What a protocol command is: an immediate refusal, or the run of a script that holds select at every byte; which,
and the script, depend on `mode`, the configuration and the frame buffer only. -/
theorem exec_protocol_cases (i : Instr) (s : State) (hi : isProtocol i = true) :
    (∃ st, (st = .notReady ∨ st = .wrongMode ∨ st = .badOperand) ∧
       ∀ s' : State, s'.mode = s.mode → s'.cfg = s.cfg → exec i s' = .next (s'.respond st false)) ∨
    (∃ ops, (∀ x, selHeld x ops = true) ∧
       ∀ s' : State, s'.mode = s.mode → s'.cfg = s.cfg → s'.fb = s.fb → exec i s' = protocolRun ops s') := by
  cases i <;> simp [isProtocol] at hi
  case reset =>
    exact .inr ⟨resetScript s.cfg, fun x => by cases x <;> rfl, fun s' _ h _ => by simp [exec, execReset, h]⟩
  case gfxon =>
    cases h : s.mode
    · exact .inl ⟨.notReady, .inl rfl, fun s' h1 _ => by simp [exec, execGfxon, gated, h1]⟩
    · exact .inr ⟨gfxonScript s.cfg, fun x => by cases x <;> rfl,
        fun s' h1 h2 _ => by simp [exec, execGfxon, gated, h1, h2]⟩
    · exact .inr ⟨gfxonScript s.cfg, fun x => by cases x <;> rfl,
        fun s' h1 h2 _ => by simp [exec, execGfxon, gated, h1, h2]⟩
    · exact .inl ⟨.notReady, .inl rfl, fun s' h1 _ => by simp [exec, execGfxon, gated, h1]⟩
  case gfxoff =>
    cases h : s.mode
    · exact .inl ⟨.notReady, .inl rfl, fun s' h1 _ => by simp [exec, execGfxoff, gated, h1]⟩
    · exact .inr ⟨gfxoffScript s.cfg, fun x => by cases x <;> rfl,
        fun s' h1 h2 _ => by simp [exec, execGfxoff, gated, h1, h2]⟩
    · exact .inr ⟨gfxoffScript s.cfg, fun x => by cases x <;> rfl,
        fun s' h1 h2 _ => by simp [exec, execGfxoff, gated, h1, h2]⟩
    · exact .inl ⟨.notReady, .inl rfl, fun s' h1 _ => by simp [exec, execGfxoff, gated, h1]⟩
  case present =>
    cases h : s.mode
    · exact .inl ⟨.notReady, .inl rfl, fun s' h1 _ => by simp [exec, execPresent, gated, h1]⟩
    · exact .inr ⟨gfxonScript s.cfg ++ transferScript s.cfg s.fb,
        fun x => selHeld_append _ _ _ (by cases x <;> rfl) (selHeld_transferScript false s.cfg s.fb),
        fun s' h1 h2 h3 => by simp [exec, execPresent, gated, h1, h2, h3, presentScript]⟩
    · exact .inr ⟨transferScript s.cfg s.fb, fun x => selHeld_transferScript x s.cfg s.fb,
        fun s' h1 h2 h3 => by simp [exec, execPresent, gated, h1, h2, h3, presentScript]⟩
    · exact .inl ⟨.notReady, .inl rfl, fun s' h1 _ => by simp [exec, execPresent, gated, h1]⟩
  case wrtext row col chars =>
    cases hb : wrtextBadOperand s.cfg row col chars
    · cases h : s.mode
      · exact .inl ⟨.notReady, .inl rfl, fun s' h1 h2 => by simp [exec, execWrtext, gated, h1, h2, hb]⟩
      · refine .inr ⟨wrtextScript s.cfg row col chars, fun x => selHeld_bracket x _ ?_,
          fun s' h1 h2 _ => by simp [exec, execWrtext, gated, h1, h2, hb]⟩
        simp only [selFree_append, Bool.and_eq_true]
        exact ⟨⟨rfl, rfl⟩, selFree_flatMap _ (fun _ => rfl) _⟩
      · exact .inl ⟨.wrongMode, .inr (.inl rfl), fun s' h1 h2 => by simp [exec, execWrtext, gated, h1, h2, hb]⟩
      · exact .inl ⟨.notReady, .inl rfl, fun s' h1 h2 => by simp [exec, execWrtext, gated, h1, h2, hb]⟩
    · exact .inl ⟨.badOperand, .inr (.inr rfl), fun s' h1 h2 => by simp [exec, execWrtext, h2, hb]⟩

/-! ## `TEXT` -/

/-- What one character leaves of a canonical frame buffer is canonical. -/
theorem glyphComposite_wf {m : Memory} (hm : m.wf = true) (cur y : Int) (threshold : Byte) (g : GlyphAnswer) :
    (glyphComposite m cur y threshold g).wf = true := by
  cases g with
  | unsupported => exact hm
  | glyph g => exact Memory.plotDots_wf _ _ hm

/-- What the loop of `TEXT` can do: it changes the frame buffer, which stays canonical, and the GlyphSource's fields,
one query and one answer per character. -/
theorem renderText_eq (y : Int) (font size threshold : Byte) : ∀ (chars : List Word) (cur : Int) (s : State),
    ∃ m : Memory, (s.fb.wf = true → m.wf = true) ∧ renderText y font size threshold chars cur s =
      { s with
        fb := m
        glyphQueries := s.glyphQueries ++ chars.map (fun ch => ⟨font, size, ch⟩)
        glyphAnswers := s.glyphAnswers.drop chars.length
        glyphDrawn := s.glyphDrawn + (chars.length - s.glyphAnswers.length) }
  | [], cur, s => ⟨s.fb, id, by simp [renderText]⟩
  | ch :: rest, cur, s => by
      obtain ⟨m, h1, h2⟩ := renderText_eq y font size threshold rest
        (cur + glyphAdvance s.cfg (s.glyphAnswer ⟨font, size, ch⟩))
        { s.glyphAnswered ⟨font, size, ch⟩ with
          fb := glyphComposite (s.glyphAnswered ⟨font, size, ch⟩).fb cur y threshold (s.glyphAnswer ⟨font, size, ch⟩) }
      refine ⟨m, fun h => h1 (glyphComposite_wf (by simpa using h) _ _ _ _), ?_⟩
      simp only [renderText]
      rw [h2]
      apply State.ext <;> simp [State.glyphAnswered] <;> cases s.glyphAnswers <;> (simp; try omega)

/-- A character leaves every pixel outside its glyph's box alone (`42_text.md` R154). -/
theorem getPixel_glyphComposite {m : Memory} (hm : m.wf = true) (cur y : Int) (threshold : Byte) (g : GlyphAnswer)
    {px py : Nat} (hx : px < fbWidth) (hy : py < fbHeight)
    (h : ∀ gl, g = .glyph gl → ¬Box.Holds ⟨cur, y, gl.w.toNat, gl.h.toNat⟩ px py) :
    (glyphComposite m cur y threshold g).getPixel px py = m.getPixel px py := by
  cases g with
  | unsupported => rfl
  | glyph gl =>
    simp only [glyphComposite, glyphDots, Memory.getPixel_bitmap hm _ _ _ _ _ _ hx hy]
    exact if_neg (h gl rfl)

/-- The glyph boxes depend on the GlyphSource's fields and the configuration only. -/
theorem textBoxes_congr (y : Int) (font size : Byte) : ∀ (chars : List Word) (cur : Int) (s t : State),
    t.glyphAnswers = s.glyphAnswers → t.glyphDrawn = s.glyphDrawn → t.cfg = s.cfg →
    textBoxes y font size chars cur t = textBoxes y font size chars cur s
  | [], _, _, _, _, _, _ => rfl
  | ch :: rest, cur, s, t, h1, h2, h3 => by
      have e : t.glyphAnswer ⟨font, size, ch⟩ = s.glyphAnswer ⟨font, size, ch⟩ := by simp [State.glyphAnswer, h1, h2]
      have := textBoxes_congr y font size rest (cur + glyphAdvance s.cfg (s.glyphAnswer ⟨font, size, ch⟩))
        (s.glyphAnswered ⟨font, size, ch⟩) (t.glyphAnswered ⟨font, size, ch⟩)
        (by simp [State.glyphAnswered, h1]; cases s.glyphAnswers <;> simp)
        (by simp [State.glyphAnswered, h1]; cases s.glyphAnswers <;> simp [h2])
        (by simp [State.glyphAnswered, h1]; cases s.glyphAnswers <;> simp [h3])
      simp only [textBoxes, e, h3]
      rw [this]

end Sys2Proof.Machine
end

