-- ==== Sys2Proof/Laws/PerInstr.lean ====
section
/-! SUPPORT. What holds of every command, one lemma per constructor: the opcode field of the encoded packet is the
command's opcode, and no field of the header runs into another (`30_encoding.md` R72). -/

namespace Sys2Proof.Laws

/-- The opcode field and the low 24 bits of a header made of an opcode and small operands. -/
theorem header_fields {op low : Nat} (hop : op < 256) (hlow : low < 16777216) :
    slice (BitVec.ofNat 32 (op * 16777216 + low)) 31 24 = op ∧
      (BitVec.ofNat 32 (op * 16777216 + low)).toNat % 16777216 = low := by
  simp only [slice, BitVec.toNat_ofNat]
  omega

/-- The family: the header of the encoded command splits into its opcode and its small operands. -/
def HeaderSplits.Statement (i : Instr) : Prop :=
  i.wellFormed = true → opcodeOf (encode i) = i.opcode ∧ (encode i).header.toNat % 16777216 = i.headerLow

theorem bool_toNat_lt (b : Bool) : b.toNat < 2 := by cases b <;> decide

theorem blendCode_lt (b : Blend) : b.code < 4 := by cases b <;> decide

theorem fillCode_lt (f : Fill) : f.code < 2 := by cases f <;> decide

theorem HeaderSplits.clear (v : Pixel) : HeaderSplits.Statement (.clear v) := fun _ =>
  header_fields (by simp [Instr.opcode]) (by have := bool_toNat_lt v; simp only [Instr.headerLow]; omega)

theorem HeaderSplits.setpix (x y : Int) (v : Pixel) (b : Blend) : HeaderSplits.Statement (.setpix x y v b) := fun _ =>
  header_fields (by simp [Instr.opcode]) (by
    have := bool_toNat_lt v; have := blendCode_lt b; simp only [Instr.headerLow]; omega)

theorem HeaderSplits.getpix (x y : Int) : HeaderSplits.Statement (.getpix x y) := fun _ =>
  header_fields (by simp [Instr.opcode]) (by simp only [Instr.headerLow]; omega)

theorem HeaderSplits.blit (x y : Int) (b : Blend) (w h : Nat) (payload : List Word) :
    HeaderSplits.Statement (.blit x y b w h payload) := fun _ =>
  header_fields (by simp [Instr.opcode]) (by have := blendCode_lt b; simp only [Instr.headerLow]; omega)

theorem HeaderSplits.line (x0 y0 x1 y1 : Int) (v : Pixel) : HeaderSplits.Statement (.line x0 y0 x1 y1 v) := fun _ =>
  header_fields (by simp [Instr.opcode]) (by have := bool_toNat_lt v; simp only [Instr.headerLow]; omega)

theorem HeaderSplits.rect (x0 y0 x1 y1 : Int) (f : Fill) (v : Pixel) :
    HeaderSplits.Statement (.rect x0 y0 x1 y1 f v) := fun _ =>
  header_fields (by simp [Instr.opcode]) (by
    have := bool_toNat_lt v; have := fillCode_lt f; simp only [Instr.headerLow]; omega)

theorem HeaderSplits.circle (cx cy r : Int) (f : Fill) (v : Pixel) :
    HeaderSplits.Statement (.circle cx cy r f v) := fun _ =>
  header_fields (by simp [Instr.opcode]) (by
    have := bool_toNat_lt v; have := fillCode_lt f; simp only [Instr.headerLow]; omega)

theorem HeaderSplits.tri (x0 y0 x1 y1 x2 y2 : Int) (f : Fill) (v : Pixel) :
    HeaderSplits.Statement (.tri x0 y0 x1 y1 x2 y2 f v) := fun _ =>
  header_fields (by simp [Instr.opcode]) (by
    have := bool_toNat_lt v; have := fillCode_lt f; simp only [Instr.headerLow]; omega)

theorem HeaderSplits.text (x y : Int) (font size threshold : Byte) (chars : List Word) :
    HeaderSplits.Statement (.text x y font size threshold chars) := fun _ =>
  header_fields (by simp [Instr.opcode]) (by
    have := font.isLt; have := size.isLt; have := threshold.isLt; simp only [Instr.headerLow]; omega)

theorem HeaderSplits.reset : HeaderSplits.Statement .reset := fun _ => header_fields (by simp [Instr.opcode]) (by decide)

theorem HeaderSplits.gfxon : HeaderSplits.Statement .gfxon := fun _ => header_fields (by simp [Instr.opcode]) (by decide)

theorem HeaderSplits.gfxoff : HeaderSplits.Statement .gfxoff := fun _ => header_fields (by simp [Instr.opcode]) (by decide)

theorem HeaderSplits.present : HeaderSplits.Statement .present := fun _ => header_fields (by simp [Instr.opcode]) (by decide)

theorem HeaderSplits.wrtext (row col : Nat) (chars : List Word) : HeaderSplits.Statement (.wrtext row col chars) :=
  fun h => header_fields (by simp [Instr.opcode]) (by
    simp only [Instr.wellFormed, Field8.ok, Bool.and_eq_true, decide_eq_true_eq] at h
    simp only [Instr.headerLow]; omega)

end Sys2Proof.Laws
end

