-- ==== Sys2Proof/Tests/Slice0.lean ====
section
/-! SUPPORT. Our own tests: the `WellFormed` smoke, words written out from the spec's encodings, one step of each command
on a small state with the result the spec prints, and for each statement of `Obligations.lean` with hypotheses a state
and operands that meet them together. -/

namespace Sys2Proof.Tests

open Sys2Proof.Machine

/-- A power-on frame buffer for the tests. -/
def blank : Vector Byte fbBytes := Vector.replicate fbBytes 0

/-- A small state: nothing drawn, `DEFAULT_ADVANCE` 2, the given mode, frame buffer and answers of the ports. -/
def st (mode : Mode) (fb : Memory) (tx : List Bool) (glyphs : List GlyphAnswer) : State :=
  { State.reset with
    mode := mode, fb := fb, txAnswers := tx, glyphAnswers := glyphs, cfg := Config.standard 2 0 blank }

/-- The outcome is a next state with the property. -/
def nextIs (o : Host.Outcome State Fault Refusal) (p : State → Bool) : Bool :=
  match o with
  | .next t => p t
  | .fault _ => false
  | .refused _ => false

/-! ## `WellFormed`: one ill-formed term for each check -/

theorem test_wf_x_above : (Instr.setpix 32768 0 true .set).wellFormed = false := by decide
theorem test_wf_x_below : (Instr.setpix (-32769) 0 true .set).wellFormed = false := by decide
theorem test_wf_y : (Instr.getpix 0 32768).wellFormed = false := by decide
theorem test_wf_blit_x : (Instr.blit 32768 0 .set 0 0 []).wellFormed = false := by decide
theorem test_wf_blit_y : (Instr.blit 0 32768 .set 0 0 []).wellFormed = false := by decide
theorem test_wf_blit_w : (Instr.blit 0 0 .set 256 0 []).wellFormed = false := by decide
theorem test_wf_blit_h : (Instr.blit 0 0 .set 0 256 []).wellFormed = false := by decide
theorem test_wf_blit_payload : (Instr.blit 0 0 .set 33 1 [0]).wellFormed = false := by decide
theorem test_wf_line : (Instr.line 0 0 0 32768 true).wellFormed = false := by decide
theorem test_wf_rect : (Instr.rect 0 0 (-32769) 0 .filled true).wellFormed = false := by decide
theorem test_wf_radius : (Instr.circle 0 0 32768 .filled true).wellFormed = false := by decide
theorem test_wf_tri : (Instr.tri 0 0 0 0 32768 0 .filled true).wellFormed = false := by decide
theorem test_wf_text : (Instr.text 0 (-32769) 0 0 0 []).wellFormed = false := by decide
theorem test_wf_row : (Instr.wrtext 256 0 []).wellFormed = false := by decide
theorem test_wf_col : (Instr.wrtext 0 256 []).wellFormed = false := by decide

/-! ## Decoding: packets written out from `30_encoding.md` R72 to R74 -/

theorem test_decode_clear : decode ⟨0x01000001, []⟩ = .instr (.clear true) := by decide
theorem test_decode_setpix : decode ⟨0x02000005, [0x000A000A]⟩ = .instr (.setpix 10 10 true .xor) := by decide
theorem test_decode_getpix : decode ⟨0x03000000, [0xFFFF8000]⟩ = .instr (.getpix (-32768) (-1)) := by decide
theorem test_decode_blit : decode ⟨0x04000006, [0x003E007E, 0x00000221, 1, 2, 3, 4]⟩ =
    .instr (.blit 126 62 .and 33 2 [1, 2, 3, 4]) := by decide
theorem test_decode_line : decode ⟨0x10000001, [0x00000000, 0x00020005]⟩ = .instr (.line 0 0 5 2 true) := by decide
theorem test_decode_rect : decode ⟨0x11000009, [0x00040005, 0x00020002]⟩ =
    .instr (.rect 5 4 2 2 .filled true) := by decide
theorem test_decode_circle : decode ⟨0x12000000, [0x000B000A, 0x0000FFFD]⟩ =
    .instr (.circle 10 11 (-3) .outline false) := by decide
theorem test_decode_tri : decode ⟨0x13000009, [0x00000001, 0x00020003, 0x00040005]⟩ =
    .instr (.tri 1 0 3 2 5 4 .filled true) := by decide
theorem test_decode_text : decode ⟨0x20080380, [0x0005000A, 0x41]⟩ = .instr (.text 10 5 3 8 0x80 [0x41]) := by decide
theorem test_decode_reset : decode ⟨0x40000000, []⟩ = .instr .reset := by decide
theorem test_decode_gfxon : decode ⟨0x41000000, []⟩ = .instr .gfxon := by decide
theorem test_decode_gfxoff : decode ⟨0x42000000, []⟩ = .instr .gfxoff := by decide
theorem test_decode_present : decode ⟨0x43000000, []⟩ = .instr .present := by decide
theorem test_decode_wrtext : decode ⟨0x44000201, [0x48, 0x69]⟩ = .instr (.wrtext 1 2 [0x48, 0x69]) := by decide

/-- `30_encoding.md` R77: a reserved bit, a reserved opcode, a wrong length, reserved operand bits. -/
theorem test_decode_illegal :
    decode ⟨0x44010201, [0x48]⟩ = .illegal .reservedHeaderBits ∧ decode ⟨0x14000000, []⟩ = .illegal .unknownOpcode ∧
      decode ⟨0x04000000, [0, 0x00000101]⟩ = .illegal .wrongLength ∧
      decode ⟨0x04000000, [0, 0x00010000]⟩ = .illegal .reservedOperandBits ∧
      decode ⟨0x20000000, []⟩ = .illegal .wrongLength := by decide

/-- No two rows of the opcode table match one header: each pair differs in a bit that both masks name. -/
theorem test_rows_disjoint :
    opcodeTable.Pairwise fun r r' => (r.matchBits ^^^ r'.matchBits) &&& (r.maskBits &&& r'.maskBits) ≠ 0 := by decide

/-! ## One step of each command -/

/-- `40_framebuffer.md` R102: after `CLEAR 1` every byte of the packed view is 0xFF. -/
theorem test_clear : nextIs (exec (.clear true) (st .error [] [] []))
    (fun t => t.fb.fbByte 0 0 == 0xFF && t.fb.fbByte 63 15 == 0xFF && t.responses == [0x30]) = true := by
  decide +kernel

/-- `40_framebuffer.md` R104. -/
theorem test_setpix : nextIs (exec (.setpix 10 10 true .xor) (st .uninitialized [] [] []))
    (fun t => t.fb == [(161, 0x20)] && t.responses == [0x00]) = true := by decide

theorem test_setpix_off_grid : nextIs (exec (.setpix 128 0 true .set) (st .text [] [] []))
    (fun t => t.fb == [] && t.responses == [0x10]) = true := by decide

/-- `40_framebuffer.md` R105: bit 8 of the response; 0 off the grid. -/
theorem test_getpix : nextIs (exec (.getpix 127 63) (st .graphics [(1023, 0x01)] [] []))
    (fun t => t.responses == [0x120]) = true := by decide

theorem test_getpix_off_grid : nextIs (exec (.getpix 128 63) (st .graphics [(1023, 0x01)] [] []))
    (fun t => t.responses == [0x20]) = true := by decide

/-- `40_framebuffer.md` R107: only the four pixels of the grid are written, (127,63) with 0. -/
theorem test_blit : nextIs (exec (.blit 126 62 .set 3 3 [0xE0000000, 0xA0000000, 0xE0000000]) (st .text [(1023, 0x01)] [] []))
    (fun t => t.fb == [(1007, 0x03), (1023, 0x02)]) = true := by decide

/-- `41_rasterizer.md` R121: the same six pixels from either end. -/
theorem test_line : nextIs (exec (.line 0 0 5 2 true) (st .text [] [] []))
    (fun t => t.fb == [(0, 0xC0), (16, 0x30), (32, 0x0C)]) = true := by decide

theorem test_line_backwards : nextIs (exec (.line 5 2 0 0 true) (st .text [] [] []))
    (fun t => t.fb == [(0, 0xC0), (16, 0x30), (32, 0x0C)]) = true := by decide

/-- `41_rasterizer.md` R125. -/
theorem test_rect_filled : nextIs (exec (.rect 5 4 2 2 .filled true) (st .text [] [] []))
    (fun t => t.fb == [(32, 0x3C), (48, 0x3C), (64, 0x3C)]) = true := by decide

theorem test_rect_outline : nextIs (exec (.rect 5 4 2 2 .outline true) (st .text [] [] []))
    (fun t => t.fb == [(32, 0x3C), (48, 0x24), (64, 0x3C)]) = true := by decide

/-- `41_rasterizer.md` R130: half-widths 1, 2, 2, 2, 1. -/
theorem test_circle_filled : nextIs (exec (.circle 10 10 2 .filled true) (st .text [] [] []))
    (fun t => t.fb == [(129, 0x70), (145, 0xF8), (161, 0xF8), (177, 0xF8), (193, 0x70)]) = true := by decide

/-- `41_rasterizer.md` R126: a negative radius draws one pixel. -/
theorem test_circle_negative : nextIs (exec (.circle 10 10 (-3) .outline true) (st .text [] [] []))
    (fun t => t.fb == [(161, 0x20)]) = true := by decide

/-- `41_rasterizer.md` R135: 10 pixels, and the 6 of the adjacent triangle. -/
theorem test_tri : nextIs (exec (.tri 0 0 4 0 0 4 .filled true) (st .text [] [] []))
    (fun t => t.fb == [(0, 0xF0), (16, 0xE0), (32, 0xC0), (48, 0x80)]) = true := by decide

theorem test_tri_adjacent : nextIs (exec (.tri 4 0 4 4 0 4 .filled true) (st .text [] [] []))
    (fun t => t.fb == [(16, 0x10), (32, 0x30), (48, 0x70)]) = true := by decide

/-- The glyph of `42_text.md` R151. -/
def glyphA : Glyph where
  adv := 4
  w := 3
  h := 2
  cov := [0, 200, 0, 255, 127, 128]
  cov_length := by decide

/-- `42_text.md` R151: the second glyph stands 6 columns to the right, after the advance of 4 and the default of 2. -/
theorem test_text : nextIs (exec (.text 10 5 0 8 128 [0x41, 0x3F, 0x41])
      (st .text [] [] [.glyph glyphA, .unsupported, .glyph glyphA]))
    (fun t => t.fb == [(81, 0x10), (82, 0x40), (97, 0x28), (98, 0xA0)] && t.responses == [0x10] &&
      t.glyphQueries == [⟨0, 8, 0x41⟩, ⟨0, 8, 0x3F⟩, ⟨0, 8, 0x41⟩]) = true := by decide

/-- `43_protocol.md` R165. -/
theorem test_reset : nextIs (exec .reset (st .uninitialized [] (List.replicate 12 true) []))
    (fun t => t.trace == [.rstPulse, .sel, .byte 0xF8, .byte 0x30, .byte 0x00, .byte 0xF8, .byte 0x00, .byte 0x10,
      .byte 0xF8, .byte 0x00, .byte 0x60, .byte 0xF8, .byte 0x00, .byte 0xC0, .desel] &&
      t.responses == [0x10] && t.mode == .text) = true := by decide

/-- `60_exceptions.md` R196: the second byte is refused. -/
theorem test_reset_refused : nextIs (exec .reset (st .text [] [true, false] []))
    (fun t => t.trace == [.rstPulse, .sel, .byte 0xF8, .fail 0x30, .desel] && t.responses == [0x31] &&
      t.mode == .error && !t.sel) = true := by decide

/-- `43_protocol.md` R166. -/
theorem test_gfxon : nextIs (exec .gfxon (st .text [] [true, true, true] []))
    (fun t => t.trace == [.sel, .byte 0xF8, .byte 0x30, .byte 0x60, .desel] && t.responses == [0x20]) = true := by decide

/-- `43_protocol.md` R167. -/
theorem test_gfxoff : nextIs (exec .gfxoff (st .graphics [] [true, true, true] []))
    (fun t => t.trace == [.sel, .byte 0xF8, .byte 0x30, .byte 0x00, .desel] && t.responses == [0x10]) = true := by decide

/-- `43_protocol.md` R168, R169: the address frames of row 0; then the first byte of the first data frame is
refused. -/
theorem test_present_refused : nextIs (exec .present (st .graphics [] (List.replicate 6 true ++ [false]) []))
    (fun t => t.trace == [.sel, .byte 0xF8, .byte 0x80, .byte 0x00, .byte 0xF8, .byte 0x80, .byte 0x00, .fail 0xFA,
      .desel] && t.responses == [0x31] && !t.gaValid) = true := by decide +kernel

/-- `43_protocol.md` R169: the frames of group 40 with only pixel (0,40) set. -/
theorem test_present_row :
    (rowScript (Config.standard 2 0 blank) [(640, 0x80)] 40).take 13 =
      [.write 0xF8, .write 0x80, .write 0x80, .write 0xF8, .write 0x80, .write 0x80, .setGa 8 8,
        .write 0xFA, .write 0x80, .write 0x00, .write 0xFA, .write 0x00, .write 0x00] := by decide

/-- `43_protocol.md` R170. -/
theorem test_wrtext : nextIs (exec (.wrtext 1 2 [0x48, 0x69]) (st .text [] (List.replicate 9 true) []))
    (fun t => t.trace == [.sel, .byte 0xF8, .byte 0x90, .byte 0x20, .byte 0xFA, .byte 0x40, .byte 0x80,
      .byte 0xFA, .byte 0x60, .byte 0x90, .desel] && t.responses == [0x10] && t.ddAddr == 0x12) = true := by decide

/-- `60_exceptions.md` R200: `BAD_OPERAND` before `NOT_READY`. -/
theorem test_wrtext_priority : nextIs (exec (.wrtext 9 0 [0x41]) (st .error [] [] []))
    (fun t => t.responses == [0x34] && t.trace == []) = true := by decide

/-! ## Hypotheses that can be met

One theorem per statement of `Obligations.lean` with hypotheses, named after it. -/

/-- A Transport that is to accept `n` bytes accepts them. -/
theorem txAccepts_replicate (n m : Nat) (s : State) (h : s.txAnswers = List.replicate (n + m) true) : TxAccepts n s := by
  refine ⟨?_, fun k hk => ?_⟩
  · simp only [State.txStalls, h, List.length_replicate, Bool.and_eq_false_iff, decide_eq_false_iff_not]
    exact .inr (by omega)
  · rw [txNth_eq, h, List.getD_eq_getElem _ _ (by simp; omega), List.getElem_replicate]

/-- A Transport that is to accept `k` bytes and refuse the next one does so. -/
theorem txRefuses_replicate (k : Nat) (s : State) (h : s.txAnswers = List.replicate k true ++ [false]) :
    TxRefuses k s := by
  refine ⟨?_, fun j hj => ?_, ?_⟩
  · simp [State.txStalls, h]
  · rw [txNth_eq, h, List.getD_eq_getElem _ _ (by simp; omega), List.getElem_append_left (by simpa using hj),
      List.getElem_replicate]
  · rw [txNth_eq, h, List.getD_eq_getElem _ _ (by simp), List.getElem_append_right (by simp)]
    simp

theorem test_hyp_DecodeOfEncode : (Instr.blit (-32768) 32767 .and 255 1 (List.replicate 8 0xFFFFFFFF)).wellFormed = true ∧
    (Instr.wrtext 255 255 []).wellFormed = true := by decide

theorem test_hyp_EncodeOfDecode : decode ⟨0x44000201, [0x48]⟩ = .instr (.wrtext 1 2 [0x48]) := by decide

theorem test_hyp_StepRunsTheDecodedPacket :
    (State.reset.withFetchWord 32 0x43000000).packets = [⟨0x43000000, []⟩] ∧ decode ⟨0x43000000, []⟩ = .instr .present ∧
      decodeTableWord 32 0x43000000 = some .present ∧ decodeTableWord 64 0x0001000203000000 = some (.getpix 2 1) ∧
      State.reset.packets = [] := by
  refine ⟨?_, by decide, by decide, by decide, rfl⟩
  show [packetOfTableWord 32 0x43000000] = _
  decide

/-- The packet of one zero word is no encoding, for no command has opcode 0. -/
theorem test_hyp_IllegalPacketAnsweredAndNothingElse : ∀ i : Instr, i.wellFormed = true → encode i ≠ ⟨0, []⟩ := by
  intro i hi h
  have h0 : opcodeOf (encode i) = 0 := by rw [h]; decide
  have h1 : opcodeOf (encode i) = i.opcode := by
    cases i with
    | clear v => exact (Laws.HeaderSplits.clear v hi).1
    | setpix x y v b => exact (Laws.HeaderSplits.setpix x y v b hi).1
    | getpix x y => exact (Laws.HeaderSplits.getpix x y hi).1
    | blit x y b w n p => exact (Laws.HeaderSplits.blit x y b w n p hi).1
    | line x0 y0 x1 y1 v => exact (Laws.HeaderSplits.line x0 y0 x1 y1 v hi).1
    | rect x0 y0 x1 y1 f v => exact (Laws.HeaderSplits.rect x0 y0 x1 y1 f v hi).1
    | circle cx cy r f v => exact (Laws.HeaderSplits.circle cx cy r f v hi).1
    | tri x0 y0 x1 y1 x2 y2 f v => exact (Laws.HeaderSplits.tri x0 y0 x1 y1 x2 y2 f v hi).1
    | text x y f z c l => exact (Laws.HeaderSplits.text x y f z c l hi).1
    | reset => exact (Laws.HeaderSplits.reset hi).1
    | gfxon => exact (Laws.HeaderSplits.gfxon hi).1
    | gfxoff => exact (Laws.HeaderSplits.gfxoff hi).1
    | present => exact (Laws.HeaderSplits.present hi).1
    | wrtext row col l => exact (Laws.HeaderSplits.wrtext row col l hi).1
  rw [h0] at h1
  cases i <;> simp [Instr.opcode] at h1

/-- A state whose host offers `GETPIX 127, 63`. -/
def offered : State := { st .text [(1023, 0x01)] [] [] with packets := [⟨0x03000000, [0x003F007F]⟩] }

theorem test_hyp_OneResponseWordPerPacket : ∃ t, offered.packets = ⟨0x03000000, [0x003F007F]⟩ :: [] ∧
    step offered = .next t ∧ t.responses = [0x110] := ⟨_, rfl, rfl, by decide⟩

theorem test_hyp_SetpixBlendsOnePixel : Coord16 (-32768) ∧ Coord16 32767 ∧ (st .text [(0, 0x80)] [] []).fb.wf = true :=
  ⟨by unfold Coord16; decide, by unfold Coord16; decide, by decide⟩

theorem test_hyp_GetpixAnswersThePixel :
    (((0 : Int) ≤ 127 ∧ (127 : Int) ≤ 127) ∧ ((0 : Int) ≤ 63 ∧ (63 : Int) ≤ 63)) ∧
      ¬(((0 : Int) ≤ 128 ∧ (128 : Int) ≤ 127) ∧ ((0 : Int) ≤ 63 ∧ (63 : Int) ≤ 63)) ∧
      ¬(((0 : Int) ≤ 0 ∧ (0 : Int) ≤ 127) ∧ ((0 : Int) ≤ -1 ∧ (-1 : Int) ≤ 63)) := by decide

/-- Between the write of (127, 63) and its reading: a `SETPIX` beside it, a `BLIT` that ends beside it, a `LINE` and a
`GFXON`. -/
theorem test_hyp_GetpixAfterSetpixSet : ∃ t u, (st .text [] [true, true, true] []).fb.wf = true ∧
    exec (.setpix 127 63 true .set) (st .text [] [true, true, true] []) = .next t ∧
    RunMisses 127 63 [.setpix 126 63 true .xor, .blit 125 62 .set 2 2 [0, 0], .line 0 0 5 2 true, .gfxon] t u ∧
    u.mode = .graphics :=
  ⟨_, _, by decide, rfl,
    ⟨by unfold Misses; decide, _, rfl, by unfold Misses Box.Holds; decide, _, rfl, by unfold Misses; decide, _, rfl,
      trivial, _, rfl, rfl⟩,
    rfl⟩

/-- A `SETPIX` that misses (0, 0), and one whose shape misses the whole grid. -/
theorem test_hyp_MissedPixelsAreLeftAlone : ∃ t, (st .text [(0, 0x80)] [] []).fb.wf = true ∧
    exec (.setpix 128 63 true .set) (st .text [(0, 0x80)] [] []) = .next t ∧
    Misses 0 0 (.setpix 128 63 true .set) (st .text [(0, 0x80)] [] []) ∧
    ∀ x y : Int, (0 ≤ x ∧ x ≤ 127) ∧ (0 ≤ y ∧ y ≤ 63) →
      Misses x y (.setpix 128 63 true .set) (st .text [(0, 0x80)] [] []) :=
  ⟨_, by decide, rfl, by unfold Misses; decide, fun x y h => by unfold Misses; omega⟩

theorem test_hyp_BlitCompositesItsBox :
    ([0xE0000000, 0xA0000000, 0xE0000000] : List Word).length = 3 * ((3 + 31) / 32) ∧ ([] : List Word).length = 255 * ((0 + 31) / 32) ∧
      (127 : Int) = 126 + (1 : Nat) ∧ ¬(((126 : Int) ≤ 125 ∧ (125 : Int) < 126 + (3 : Nat)) ∧ ((62 : Int) ≤ 62 ∧ (62 : Int) < 62 + (3 : Nat))) := by
  decide

theorem test_hyp_BlitPaddingHasNoEffect : ∀ i j : Nat, i < 3 → j < 1 →
    (([0xE0000000] : List Word).getD (j * ((3 + 31) / 32) + i / 32) 0).getLsbD (31 - i % 32) =
      (([0xE0000001] : List Word).getD (j * ((3 + 31) / 32) + i / 32) 0).getLsbD (31 - i % 32) := by
  intro i j hi hj
  have hj : j = 0 := by omega
  subst hj
  interval_cases i <;> decide

theorem test_hyp_DrawingTwiceIsDrawingOnce : ∃ t u, isIdempotent (.blit 0 0 .clear 2 1 [0x80000000]) = true ∧
    (st .text [(0, 0xC0)] [] []).fb.wf = true ∧
    exec (.blit 0 0 .clear 2 1 [0x80000000]) (st .text [(0, 0xC0)] [] []) = .next t ∧
    exec (.blit 0 0 .clear 2 1 [0x80000000]) t = .next u ∧ t.fb = [(0, 0x40)] :=
  ⟨_, _, by decide, by decide, rfl, rfl, by decide⟩

theorem test_hyp_LinePathIsEightConnected : ((0 : Int) < 2 ∨ ((0 : Int) = 2 ∧ (0 : Int) ≤ 1)) ∧
    (linePts 0 0 2 1)[1]? = some (1, 0) ∧ (linePts 0 0 2 1)[1 + 1]? = some (2, 1) := by decide

/-- The largest places of the grid and of the packed view, for the statements whose only bounds these are. -/
theorem test_hyp_ClearMakesEveryPixelTheValue : 127 < 128 ∧ 63 < 64 := by decide

theorem test_hyp_ExportRowsIsThePackedView : 63 < 64 ∧ 15 < 16 ∧ 7 < 8 := by decide

theorem test_hyp_PowerOnState : 127 < 128 ∧ 63 < 64 ∧ 16 * 63 + 127 / 8 = 1023 := by decide

theorem test_hyp_LineDrawsItsPath : Coord16 32767 ∧ Coord16 (-32768) ∧ (st .text [(16, 0x01)] [] []).fb.wf = true :=
  ⟨by unfold Coord16; decide, by unfold Coord16; decide, by decide⟩

theorem test_hyp_OutlineTriangleDrawsItsEdges : Coord16 4 ∧ Coord16 (-1) ∧ (st .error [(16, 0x01)] [] []).fb.wf = true :=
  ⟨by unfold Coord16; decide, by unfold Coord16; decide, by decide⟩

theorem test_hyp_TriangleVertexOrderDoesNotMatter : (st .graphics [(1023, 0xFF)] [] []).fb.wf = true := by decide

/-- `41_rasterizer.md` R122: at (1, 0) the line passes midway. -/
theorem test_hyp_LinePathTieRule : ((1, 0) : Int × Int) ∈ linePts 0 0 2 1 ∧ ((0, 1) : Int × Int) ∈ linePts 0 0 1 2 := by decide

theorem test_hyp_RectDrawsItsBox : Coord16 5 ∧ Coord16 (-32768) ∧ (st .text [] [] []).fb.wf = true :=
  ⟨by unfold Coord16; decide, by unfold Coord16; decide, by decide⟩

theorem test_hyp_FilledRectPixelCount : (st .text [] [] []).fb = [] ∧ ((0 : Int) ≤ 127 ∧ (127 : Int) ≤ 127) ∧
    ((0 : Int) ≤ 0 ∧ (0 : Int) ≤ 127) ∧ ((0 : Int) ≤ 63 ∧ (63 : Int) ≤ 63) ∧ ((0 : Int) ≤ 0 ∧ (0 : Int) ≤ 63) := by decide

theorem test_hyp_OctantFollowsTheMidpointRule : (0 : Int) ≤ 0 ∧ octant 0 = [(0, 0)] ∧
    octant 4 = [(0, 4), (1, 4), (2, 3), (3, 3)] := by decide

theorem test_hyp_CircleDrawsItsOctants : OnCircle .outline (2 : Int) (1 : Int) (octant (max 2 0)) ∧
    ¬OnCircle .outline (0 : Int) (0 : Int) (octant (max 2 0)) ∧ OnCircle .filled (0 : Int) (0 : Int) (octant (max (-1) 0)) := by
  refine ⟨⟨1, 2, by decide, by decide⟩, ?_, ⟨0, 0, by decide, by decide⟩⟩
  rintro ⟨a, b, h, h'⟩
  have : (a, b) = (0, 2) ∨ (a, b) = (1, 2) := by simpa [octant, octantLoop] using h
  rcases this with h | h <;> simp only [Prod.mk.injEq] at h <;> obtain ⟨rfl, rfl⟩ := h <;> revert h' <;> decide

theorem test_hyp_CircleOutlineIsEightfoldSymmetric : ((10 + 2, 10 + -1) : Int × Int) ∈ circlePts 10 10 2 .outline := by decide

theorem test_hyp_FilledCircleHasNoGaps : (st .text [] [] []).fb = [] ∧ (((8 : Nat) : Int) - 10).natAbs ≤ max (2 : Int) 0 ∧
    max (2 : Int) 0 < (((13 : Nat) : Int) - 10).natAbs := by decide

theorem test_hyp_CircleSpansAreLines : Memory.wf [(1023, 0x01)] = true := by decide

theorem test_hyp_FilledTriangleDrawsItsInside :
    (0 : Int) < (4 - 0) * (4 - 0) - (0 - 0) * (0 - 0) ∧ ((0 : Int) - 0) * (0 - 0) - (4 - 0) * (4 - 0) < 0 := by decide

theorem test_hyp_CollinearTriangleDrawsItsLongestEdge :
    ((3 : Int) - 1) * (9 - 1) - (9 - 1) * (3 - 1) = 0 ∧ ((1 : Int) - 1) * (1 - 1) - (1 - 1) * (1 - 1) = 0 := by decide

theorem test_hyp_SharedEdgeIsDrawnOnce :
    0 < edgeFn (4, 0) (0, 4) (0, 0) ∧ edgeFn (4, 0) (0, 4) (4, 4) < 0 ∨
      0 < edgeFn (0, 4) (4, 0) (0, 0) ∧ edgeFn (0, 4) (4, 0) (4, 4) < 0 ∧ InRange 2 2 ∧ edgeFn (0, 4) (4, 0) (2, 2) = 0 ∧
        (0 : Int) < (2 - 0) * (4 - 0) + (2 - 4) * (0 - 4) ∧
        ((2 : Int) - 0) * (4 - 0) + (2 - 4) * (0 - 4) < (4 - 0) ^ 2 + (0 - 4) ^ 2 := by decide

/-- Two states for `TEXT`: the first character supported, and not. -/
def textState (g : GlyphAnswer) : State := st .graphics [(0, 0xFF)] [] [g]

theorem test_hyp_TextQueriesEachCharacterAndCompletes :
    (textState .unsupported).fb.wf = true ∧ (textState .unsupported).glyphStalls 1 = false ∧
      Coord16 (-1) := ⟨by decide, by decide, by unfold Coord16; decide⟩

theorem test_hyp_TextRendersCharacterByCharacter :
    (textState (.glyph glyphA)).glyphStalls (0 + 1) = false ∧
      (textState (.glyph glyphA)).glyphAnswer ⟨0, 8, 0x41⟩ = .glyph glyphA ∧
      (textState .unsupported).glyphAnswer ⟨0, 8, 0x3F⟩ = .unsupported := by decide

/-- Inside the box, at its last pixel, and just outside it. -/
theorem test_hyp_GlyphIsThresholdedIntoItsBox :
    (textState (.glyph glyphA)).fb.wf = true ∧ (textState (.glyph glyphA)).glyphStalls 1 = false ∧
      (textState (.glyph glyphA)).glyphAnswer ⟨0, 8, 0x41⟩ = .glyph glyphA ∧ 2 < glyphA.w.toNat ∧ 1 < glyphA.h.toNat ∧
      glyphA.cov[1 * glyphA.w.toNat + 2]? = some 128 ∧
      ¬(((10 : Int) ≤ 13 ∧ (13 : Int) < 10 + glyphA.w.toNat) ∧ ((5 : Int) ≤ 5 ∧ (5 : Int) < 5 + glyphA.h.toNat)) := by decide

theorem test_hyp_UnsupportedGlyphIsSkipped : (textState .unsupported).glyphStalls (0 + 1) = false ∧
    (textState .unsupported).glyphAnswer ⟨0, 8, 0x3F⟩ = .unsupported := by decide

theorem test_hyp_TextStaysInsideItsGlyphBoxes : ∃ t, (textState (.glyph glyphA)).fb.wf = true ∧
    exec (.text 10 5 0 8 128 [0x41]) (textState (.glyph glyphA)) = .next t ∧
    textBoxes 5 0 8 [0x41] 10 (textState (.glyph glyphA)) = [⟨10, 5, 3, 2⟩] := ⟨_, by decide, rfl, by decide⟩

theorem test_hyp_ResetReinitializes : TxAccepts 12 (st .error [] (List.replicate 12 true) []) ∧
    TxRefuses 11 (st .text [] (List.replicate 11 true ++ [false]) []) :=
  ⟨txAccepts_replicate 12 0 _ rfl, txRefuses_replicate 11 _ rfl⟩

theorem test_hyp_GfxonEntersGraphics : (st .text [] [true, true, true] []).mode = .text ∧
    TxAccepts 3 (st .text [] [true, true, true] []) ∧ TxRefuses 2 (st .text [] [true, true, false] []) ∧
    (st .uninitialized [] [] []).mode = .uninitialized :=
  ⟨rfl, txAccepts_replicate 3 0 _ rfl, txRefuses_replicate 2 _ rfl, rfl⟩

theorem test_hyp_GfxoffReturnsToText : (st .graphics [] [true, true, true] []).mode = .graphics ∧
    TxAccepts 3 (st .graphics [] [true, true, true] []) ∧ TxRefuses 0 (st .graphics [] [false] []) ∧
    (st .error [] [] []).mode = .error :=
  ⟨rfl, txAccepts_replicate 3 0 _ rfl, txRefuses_replicate 0 _ rfl, rfl⟩

theorem test_hyp_PresentSendsEveryRow :
    (st .uninitialized [] [] []).mode = .uninitialized ∧ (st .error [] [] []).mode = .error ∧
      TxAccepts 3456 (st .graphics [] (List.replicate (3456 + 0) true) []) ∧
      TxRefuses 3455 (st .graphics [] (List.replicate 3455 true ++ [false]) []) ∧
      TxAccepts 3459 (st .text [] (List.replicate (3459 + 0) true) []) ∧
      TxRefuses 3458 (st .text [] (List.replicate 3458 true ++ [false]) []) :=
  ⟨rfl, rfl, txAccepts_replicate 3456 0 _ rfl, txRefuses_replicate 3455 _ rfl, txAccepts_replicate 3459 0 _ rfl,
    txRefuses_replicate 3458 _ rfl⟩

/-- The abort's trace: the byte numbered 2, of four, with an event of select before them. -/
theorem test_refusedAt : refusedAt 2 [.sel, .byte 1, .byte 2, .byte 3, .byte 4, .desel] =
    ([.sel, .byte 1, .byte 2, .fail 3, .desel] : List TxEvent) := by decide

/-- A `PRESENT` in `GRAPHICS` over a Transport that is to accept its 3456 bytes. -/
theorem present_completes_graphics (s : State) (h : s.mode = .graphics)
    (ht : s.txAnswers = List.replicate (3456 + 0) true) : ∃ t, exec .present s = .next t := by
  have h1 : exec .present s = protocolRun (transferScript s.cfg s.fb) s := by
    simp [exec, execPresent, gated, h, presentScript]
  rw [h1, protocolRun_accepts _ _ (by rw [writeCount_transferScript]; exact txAccepts_replicate 3456 0 s ht)]
  exact ⟨_, rfl⟩

/-- A `PRESENT` in `TEXT` over a Transport that is to accept its 3459 bytes. -/
theorem present_completes_text (s : State) (h : s.mode = .text) (ht : s.txAnswers = List.replicate (3459 + 0) true) :
    ∃ t, exec .present s = .next t := by
  have h1 : exec .present s = protocolRun (gfxonScript s.cfg ++ transferScript s.cfg s.fb) s := by
    simp [exec, execPresent, gated, h, presentScript]
  have h2 : writeCount (gfxonScript s.cfg ++ transferScript s.cfg s.fb) = 3459 := by
    rw [writeCount_append, writeCount_transferScript]; rfl
  rw [h1, protocolRun_accepts _ _ (by rw [h2]; exact txAccepts_replicate 3459 0 s ht)]
  exact ⟨_, rfl⟩

theorem test_hyp_PresentPutsEveryPixelWhereGdAddrSays :
    (st .graphics [] (List.replicate (3456 + 0) true) []).cfg = Config.standard 2 0 blank ∧
      TxAccepts 3456 (st .graphics [] (List.replicate (3456 + 0) true) []) ∧
      (∃ t, exec .present (st .graphics [] (List.replicate (3456 + 0) true) []) = .next t) ∧
      TxAccepts 3459 (st .text [] (List.replicate (3459 + 0) true) []) ∧
      ∃ t, exec .present (st .text [] (List.replicate (3459 + 0) true) []) = .next t :=
  ⟨rfl, txAccepts_replicate 3456 0 _ rfl, present_completes_graphics _ rfl rfl, txAccepts_replicate 3459 0 _ rfl,
    present_completes_text _ rfl rfl⟩

theorem test_hyp_GdAddrIsABijection : (Config.standard 2 0 blank).hBottom = 8 ∧
    gdAddr (Config.standard 2 0 blank) 127 63 = ⟨31, 15, 1, 0⟩ := by decide

theorem test_hyp_WrtextSendsItsCharacters :
    3 < (Config.standard 2 0 blank).textRows ∧ 7 < (Config.standard 2 0 blank).textCells ∧ (∀ ch ∈ ([0x7F] : List Word), ch.toNat ≤ 0x7F) ∧
      TxAccepts (3 + 3 * 1) (st .text [] (List.replicate 6 true) []) ∧
      TxRefuses 5 (st .text [] (List.replicate 5 true ++ [false]) []) ∧ (Config.standard 2 0 blank).wf = true ∧
      (∃ ch ∈ ([0x80] : List Word), 0x7F < ch.toNat) :=
  ⟨by decide, by decide, by simp, txAccepts_replicate 6 0 _ rfl, txRefuses_replicate 5 _ rfl, by decide,
    0x80, by decide, by decide⟩

theorem test_hyp_NotReadyWithoutReset : (st .error [] [] []).mode = .error ∧
    (st .uninitialized [] [] []).mode = .uninitialized ∧ (st .error [] [] []).cfg.textRows = 4 ∧
    (st .error [] [] []).cfg.textCells = 8 ∧ 3 ≤ 3 ∧ 7 ≤ 7 ∧ ∀ ch ∈ ([0x7F] : List Word), ch.toNat ≤ 0x7F :=
  ⟨rfl, rfl, rfl, rfl, by decide, by decide, by simp⟩

theorem test_hyp_WrtextRefusals :
    ({ st .graphics [] [] [] with packets := [⟨BitVec.ofNat 32 (0x44000000 + 8 * 256 + 4), [0x80]⟩] } : State).packets =
      ⟨BitVec.ofNat 32 (0x44000000 + 8 * 256 + 4), [0x80]⟩ :: [] ∧ (st .graphics [] [] []).cfg = Config.standard 2 0 blank ∧
      3 < 4 ∧ 7 < 8 ∧ 0x7F < (0x80 : Word).toNat := ⟨rfl, rfl, by decide, by decide, by decide⟩

/-- `GFXON` over a Transport that accepts three bytes, and the second refused. -/
theorem test_hyp_TransportErrorAborts : ∃ u,
    exec .gfxon { st .text [] [true, false] [] with txAnswers := [true, true, true], txDrawn := 0, txSilent := false } =
      .next u ∧
    u.trace = (st .text [] [true, false] []).trace ++ ([.sel, .byte 0xF8, .byte 0x30, .byte 0x60, .desel] : List TxEvent) ∧
    u.responses = (st .text [] [true, false] []).responses ++ ([0x20] : List Word) ∧ slice 0x20 2 0 = 0 ∧
    1 < ([.sel, .byte 0xF8, .byte 0x30, .byte 0x60, .desel] : List TxEvent).countP TxEvent.isByte ∧
    TxRefuses 1 (st .text [] [true, false] []) :=
  ⟨_, rfl, by decide, by decide, by decide, by decide, txRefuses_replicate 1 _ rfl⟩

theorem test_hyp_TransportErrorExactlyWhenAByteIsRefused : ∃ t, exec .gfxon (st .text [] [true, false] []) = .next t ∧
    t.trace = ([.sel, .byte 0xF8, .fail 0x30, .desel] : List TxEvent) := ⟨_, rfl, by decide⟩

/-- Ports that answer, and ports that do not. -/
theorem test_hyp_OnlyASilentPortHangs : PortsAnswer (st .text [] [] []) ∧
    exec .reset { st .text [] [] [] with txSilent := true } = .fault .transportSilent ∧
    exec (.text 0 0 0 0 0 [0x41]) { st .text [] [] [] with glyphSilent := true } = .fault .glyphSourceSilent :=
  ⟨⟨rfl, rfl⟩, rfl, rfl⟩

theorem test_hyp_ModeTransitions : ∃ t, exec .gfxoff (st .graphics [] [true, true, true] []) = .next t ∧ t.mode = .text :=
  ⟨_, rfl, by decide⟩

theorem test_hyp_OnlyResetLeavesError : ∃ t, exec .reset (st .error [] (List.replicate 12 true) []) = .next t ∧
    t.mode = .text := ⟨_, rfl, by decide⟩

theorem test_hyp_DrawingAndProtocolAreIndependent : ∃ t, isProtocol (.getpix 0 0) = false ∧
    exec (.getpix 0 0) (st .error [(0, 0x80)] [] []) = .next t ∧ isProtocol .gfxon = true ∧
    (st .text [(0, 0x80)] [] []).fb = (st .error [(0, 0x80)] [] []).fb := ⟨_, rfl, rfl, rfl, rfl⟩

theorem test_hyp_RefusedPacketsChangeNothing : ∃ t,
    step { st .text [] [] [] with packets := [⟨0, []⟩] } = .next t ∧
    t.responses = (st .text [] [] []).responses ++ [0x15] ∧ slice 0x15 2 0 ≠ 0 ∧ slice 0x15 2 0 ≠ 1 :=
  ⟨_, rfl, by decide, by decide, by decide⟩

theorem test_hyp_OutputsOnlyGrow : ∃ t, exec (.setpix 0 0 true .set) (st .text [] [] []) = .next t := ⟨_, rfl⟩

theorem test_hyp_EveryStepKeepsTheInvariant : Inv offered ∧ ∃ t, step offered = .next t := by
  refine ⟨⟨by decide, rfl, rfl, fun h => ?_, fun h => ?_, fun h => ?_, fun q hq => ?_⟩, _, rfl⟩
  · exact ⟨rfl, rfl⟩
  · exact absurd h (by decide)
  · exact absurd h (by decide)
  · exact absurd hq (by simp [offered, st, State.reset, State.powerOn])

end Sys2Proof.Tests
end

section
/-! The transitions of `mode` (`10_state.md` R23). One inversion lemma (`exec_modeStep`) says for every command which
mode it leaves: the one of the rule's table when no byte is refused, `ERROR` when one is. -/

namespace Sys2Proof.Machine

/-! ## Commands that cause no event -/

/-- A drawing command responds once and leaves `mode` and the trace alone (`40_framebuffer.md` R109). -/
theorem exec_drawing_frame {i : Instr} {s t : State} (hi : isProtocol i = false) (h : exec i s = .next t) :
    t.mode = s.mode ∧ t.trace = s.trace ∧ ∃ q, t.responses = s.responses ++ [q] := by
  cases i with
  | clear | setpix | getpix | blit | line | rect | circle | tri =>
    cases h; exact ⟨State.respond_mode .., State.respond_trace .., _, State.respond_responses ..⟩
  | text x y font size threshold chars =>
    simp only [exec, execText] at h
    split at h
    · cases h
    · obtain ⟨m, -, hm⟩ := renderText_eq y font size threshold chars x s
      rw [hm] at h
      cases h
      exact ⟨rfl, rfl, _, rfl⟩
  | reset | gfxon | gfxoff | present | wrtext => cases hi

/-- What `Gate` can do (`43_protocol.md` R164): let the command through in `TEXT` and `GRAPHICS`, or refuse it. -/
theorem gated_cases (s : State) (k : Host.Outcome State Fault Refusal) :
    ((s.mode = .text ∨ s.mode = .graphics) ∧ gated s k = k) ∨
      ((s.mode = .uninitialized ∨ s.mode = .error) ∧ gated s k = .next (s.respond .notReady false)) := by
  unfold gated
  cases s.mode <;> simp

/-! ## Scripts -/

/-- No byte of a script that runs to its end is refused. -/
theorem fail_notMem_scriptEvents (b : Byte) (ops : List PeOp) : .fail b ∉ scriptEvents ops := by
  induction ops with
  | nil => simp [scriptEvents]
  | cons op ops ih => cases op <;> simp [scriptEvents, ih]

/-- The run of a script leaves the mode the script sets, with no byte refused, or it leaves `ERROR`, with one refused
(`60_exceptions.md` R196). -/
theorem protocolRun_mode_cases {ops : List PeOp} {s t : State} (h : protocolRun ops s = .next t) :
    ∃ ev q, t.trace = s.trace ++ ev ∧ t.responses = s.responses ++ [q] ∧
      (((∀ b, .fail b ∉ ev) ∧ t.mode = (scriptDone ops s).mode) ∨ ((∃ b, .fail b ∈ ev) ∧ t.mode = .error)) := by
  unfold protocolRun at h
  split at h
  · cases h
  · obtain rfl : runScript ops s = t := by simpa using h
    rcases runScript_cases ops s with ⟨-, hrun⟩ | ⟨pre, b, post, -, -, hrun⟩ <;> rw [hrun]
    · exact ⟨scriptEvents ops, responseWord .ok (scriptDone ops s).mode false, by simp, by simp,
        .inl ⟨fun b => fail_notMem_scriptEvents b ops, rfl⟩⟩
    · exact ⟨scriptEvents pre ++ .fail b :: (if (scriptDone pre s).sel then [.desel] else []),
        responseWord .transportError .error false, by simp, by simp, .inr ⟨⟨b, by simp⟩, by simp⟩⟩

@[simp] theorem scriptDone_sendCmd_mode (b : Byte) (s : State) : (scriptDone (sendCmd b) s).mode = s.mode :=
  scriptDone_sendFrame State.mode (by simp [opDone]) false b s

@[simp] theorem scriptDone_sendData_mode (b : Byte) (s : State) : (scriptDone (sendData b) s).mode = s.mode :=
  scriptDone_sendFrame State.mode (by simp [opDone]) true b s

/-- A bracket of frames leaves `mode` as the frames leave it. -/
theorem scriptDone_bracket_mode {frames : List PeOp} (h : ∀ s, (scriptDone frames s).mode = s.mode) (s : State) :
    (scriptDone (bracket frames) s).mode = s.mode := by
  simp [bracket, opDone, h]

@[simp] theorem scriptDone_resetScript_mode (c : Config) (s : State) : (scriptDone (resetScript c) s).mode = .text := by
  simp [resetScript, opDone]

@[simp] theorem scriptDone_gfxonScript_mode (c : Config) (s : State) :
    (scriptDone (gfxonScript c) s).mode = .graphics := by
  simp [gfxonScript, opDone]

@[simp] theorem scriptDone_gfxoffScript_mode (c : Config) (s : State) :
    (scriptDone (gfxoffScript c) s).mode = .text := by
  simp [gfxoffScript, opDone]

@[simp] theorem scriptDone_rowScript_mode (c : Config) (m : Memory) (y : Nat) (s : State) :
    (scriptDone (rowScript c m y) s).mode = s.mode := by
  simp [rowScript, opDone, scriptDone_flatMap State.mode]

@[simp] theorem scriptDone_transferScript_mode (c : Config) (m : Memory) (s : State) :
    (scriptDone (transferScript c m) s).mode = s.mode :=
  scriptDone_bracket_mode (scriptDone_flatMap State.mode (rowScript c m) (scriptDone_rowScript_mode c m) _) s

@[simp] theorem scriptDone_wrtextScript_mode (c : Config) (row col : Nat) (chars : List Word) (s : State) :
    (scriptDone (wrtextScript c row col chars) s).mode = s.mode :=
  scriptDone_bracket_mode (fun s => by simp [opDone, scriptDone_flatMap State.mode]) s

/-! ## The table of `10_state.md` R23 -/

/-- The mode a command leaves when no byte of it is refused: the first four rows of the table, and every other pair. -/
def modeAfter : Instr → Mode → Mode
  | .reset, _ => .text
  | .gfxon, .text => .graphics
  | .gfxon, .graphics => .graphics
  | .gfxoff, .text => .text
  | .gfxoff, .graphics => .text
  | .present, .text => .graphics
  | _, m => m

theorem modeAfter_gfxon {m : Mode} (h : m = .text ∨ m = .graphics) : modeAfter .gfxon m = .graphics := by
  rcases h with rfl | rfl <;> rfl

theorem modeAfter_gfxoff {m : Mode} (h : m = .text ∨ m = .graphics) : modeAfter .gfxoff m = .text := by
  rcases h with rfl | rfl <;> rfl

/-- A pair without a row of its own leaves `mode` alone. -/
theorem modeAfter_of_no_row {i : Instr} {m : Mode}
    (h : ¬(i = .reset ∨ ((i = .gfxon ∨ i = .gfxoff) ∧ (m = .text ∨ m = .graphics)) ∨ (i = .present ∧ m = .text))) :
    modeAfter i m = m := by
  unfold modeAfter
  split <;> simp_all

/-- The gate's modes are the table's: where it refuses, only `RESET` has a row. -/
theorem modeAfter_of_shut {i : Instr} {m : Mode} (hi : i ≠ .reset) (h : m = .uninitialized ∨ m = .error) :
    modeAfter i m = m :=
  modeAfter_of_no_row (by rcases h with rfl | rfl <;> simp [hi])

/-- What one command does to `mode`, beside the events it causes and its response: the table's mode when no byte is
refused, `ERROR` when one is; and from the modes the gate shuts out, only a `RESET` gets to send a byte. -/
def ModeStep (i : Instr) (s t : State) : Prop :=
  ∃ ev q, t.trace = s.trace ++ ev ∧ t.responses = s.responses ++ [q] ∧
    (((∀ b, .fail b ∉ ev) ∧ t.mode = modeAfter i s.mode) ∨
      ((∃ b, .fail b ∈ ev) ∧ t.mode = .error ∧ (s.mode = .uninitialized ∨ s.mode = .error → i = .reset)))

/-- A response without an event. -/
theorem ModeStep.of_respond {i : Instr} {s t : State} {st : Status} (hm : modeAfter i s.mode = s.mode)
    (h : .next (s.respond st false) = (.next t : Host.Outcome State Fault Refusal)) : ModeStep i s t := by
  cases h
  exact ⟨[], _, by simp, rfl, .inl ⟨by simp, hm.symm⟩⟩

/-- The run of a script that sets the table's mode. -/
theorem ModeStep.of_protocolRun {i : Instr} {s t : State} {ops : List PeOp} (h : protocolRun ops s = .next t)
    (hm : (scriptDone ops s).mode = modeAfter i s.mode)
    (hi : s.mode = .uninitialized ∨ s.mode = .error → i = .reset) : ModeStep i s t := by
  obtain ⟨ev, q, htrace, hresp, ⟨hok, hmode⟩ | ⟨hfail, hmode⟩⟩ := protocolRun_mode_cases h
  · exact ⟨ev, q, htrace, hresp, .inl ⟨hok, hmode.trans hm⟩⟩
  · exact ⟨ev, q, htrace, hresp, .inr ⟨hfail, hmode, hi⟩⟩

/-- The same in a mode the gate lets through. -/
theorem ModeStep.of_protocolRun_open {i : Instr} {s t : State} {ops : List PeOp}
    (ho : s.mode = .text ∨ s.mode = .graphics) (h : protocolRun ops s = .next t)
    (hm : (scriptDone ops s).mode = modeAfter i s.mode) : ModeStep i s t :=
  .of_protocolRun h hm fun hshut => by rcases ho with ho | ho <;> simp [ho] at hshut

/-- A gated command, from what it does in the two modes the gate lets through. -/
theorem ModeStep.of_gated {i : Instr} {s t : State} {k : Host.Outcome State Fault Refusal} (hi : i ≠ .reset)
    (h : gated s k = .next t)
    (hk : s.mode = .text ∨ s.mode = .graphics → k = .next t → ModeStep i s t) : ModeStep i s t := by
  rcases gated_cases s k with ⟨hopen, hg⟩ | ⟨hshut, hg⟩ <;> rw [hg] at h
  · exact hk hopen h
  · exact .of_respond (modeAfter_of_shut hi hshut) h

/-- A gated command that runs a script. -/
theorem ModeStep.of_gated_protocolRun {i : Instr} {s t : State} {ops : List PeOp} (hi : i ≠ .reset)
    (h : gated s (protocolRun ops s) = .next t)
    (hm : s.mode = .text ∨ s.mode = .graphics → (scriptDone ops s).mode = modeAfter i s.mode) : ModeStep i s t :=
  .of_gated hi h fun ho hrun => .of_protocolRun_open ho hrun (hm ho)

/-- The script of `PRESENT` sets the table's mode: the automatic `GFXON` of `TEXT` does, the transfer sets none. -/
theorem scriptDone_presentScript_mode {s : State} (h : s.mode = .text ∨ s.mode = .graphics) :
    (scriptDone (presentScript s) s).mode = modeAfter .present s.mode := by
  rcases h with h | h <;> simp [presentScript, h, modeAfter]

/-- `WRTEXT` has no row: its refusals and its script leave `mode` alone. -/
theorem execWrtext_modeStep {row col : Nat} {chars : List Word} {s t : State}
    (h : execWrtext row col chars s = .next t) : ModeStep (.wrtext row col chars) s t := by
  unfold execWrtext at h
  split at h
  · exact .of_respond rfl h
  · refine .of_gated (by simp) h fun ho hk => ?_
    split at hk
    · exact .of_respond rfl hk
    · exact .of_protocolRun_open ho hk (scriptDone_wrtextScript_mode ..)

/-- What every command does to `mode`. -/
theorem exec_modeStep {i : Instr} {s t : State} (h : exec i s = .next t) : ModeStep i s t := by
  cases hi : isProtocol i with
  | false =>
    obtain ⟨hmode, htrace, q, hresp⟩ := exec_drawing_frame hi h
    refine ⟨[], q, by simp [htrace], hresp, .inl ⟨by simp, hmode.trans (modeAfter_of_no_row ?_).symm⟩⟩
    rintro (rfl | ⟨rfl | rfl, -⟩ | ⟨rfl, -⟩) <;> cases hi
  | true =>
    cases i with
    | reset => exact .of_protocolRun h (scriptDone_resetScript_mode ..) fun _ => rfl
    | gfxon =>
      exact .of_gated_protocolRun (by simp) h fun ho => (scriptDone_gfxonScript_mode ..).trans (modeAfter_gfxon ho).symm
    | gfxoff =>
      exact .of_gated_protocolRun (by simp) h fun ho => (scriptDone_gfxoffScript_mode ..).trans (modeAfter_gfxoff ho).symm
    | present => exact .of_gated_protocolRun (by simp) h scriptDone_presentScript_mode
    | wrtext row col chars => exact execWrtext_modeStep h
    | clear | setpix | getpix | blit | line | rect | circle | tri | text => cases hi

/-- Settles O51: every command makes a `ModeStep`, and `modeAfter` is the table read row by row. -/
theorem modeTransitions : Obligations.ModeTransitions := by
  intro i s t h
  obtain ⟨ev, q, htrace, hresp, ⟨hok, hmode⟩ | ⟨hfail, hmode, hreset⟩⟩ := exec_modeStep h
  · have hnone : ¬∃ b, TxEvent.fail b ∈ ev := fun ⟨b, hb⟩ => hok b hb
    refine ⟨ev, q, htrace, hresp, fun hf => absurd hf hnone, fun _ => ?_, fun hf => absurd hf hnone⟩
    rw [hmode]
    refine ⟨?reset, ?gfxon, ?gfxoff, ?present, modeAfter_of_no_row⟩
    case reset => rintro rfl; rfl
    case gfxon => rintro rfl; exact modeAfter_gfxon
    case gfxoff => rintro rfl; exact modeAfter_gfxoff
    case present => rintro rfl hs; rw [hs]; rfl
  · obtain ⟨b, hb⟩ := hfail
    exact ⟨ev, q, htrace, hresp, fun _ => hmode, fun hok => absurd hb (hok b), fun _ => hreset⟩

end Sys2Proof.Machine
end

section
/-! The controller's addresses (`20_memory.md` R46): `gdAddr` and its inverse, `gdPixel`, each undo the other. -/

namespace Sys2Proof.Machine

/-- `GdAddr` written out, for controllers whose bottom half starts at word 8. -/
theorem gdAddr_eq {c : Config} (hc : c.hBottom = 8) (x y : Nat) :
    gdAddr c x y = ⟨y % 32, x / 16 + 8 * (y / 32), x / 8 % 2, 7 - x % 8⟩ := by
  simp [gdAddr, gdV, gdH0, gdRows, pixelBit, hc]

/-- The pixel at a place in the GDRAM: the inverse of `GdAddr` that R46 gives. -/
def gdPixel (p : GdPlace) : Nat × Nat :=
  (16 * (p.h % 8) + 8 * p.byte + (7 - p.bit), p.v + 32 * (p.h / 8))

/-- The word address of a pixel on the grid is one of the 16. -/
theorem gdAddr_h_lt {c : Config} (hc : c.hBottom = 8) {x y : Nat} (hx : x < 128) (hy : y < 64) :
    (gdAddr c x y).h < 16 := by
  simp only [gdAddr_eq hc]
  omega

/-- A row of a half holds 8 words, so `H` splits into the half and the word of the row. -/
theorem gdPixel_gdAddr {c : Config} (hc : c.hBottom = 8) {x : Nat} (hx : x < 128) (y : Nat) :
    gdPixel (gdAddr c x y) = (x, y) := by
  have hword : (x / 16 + 8 * (y / 32)) % 8 = x / 16 := by omega
  have hhalf : (x / 16 + 8 * (y / 32)) / 8 = y / 32 := by omega
  simp only [gdPixel, gdAddr_eq hc, hword, hhalf, Prod.mk.injEq]
  omega

theorem gdAddr_gdPixel {c : Config} (hc : c.hBottom = 8) {p : GdPlace} (hv : p.v < 32) (hbyte : p.byte < 2)
    (hbit : p.bit < 8) : gdAddr c (gdPixel p).1 (gdPixel p).2 = p := by
  obtain ⟨v, h, byte, bit⟩ := p
  simp only [gdPixel, gdAddr_eq hc, GdPlace.mk.injEq] at *
  omega

/-- Settles O44: `gdPixel` is a left inverse of `gdAddr` on the grid and a right inverse on the GDRAM's places. -/
theorem gdAddrIsABijection : Obligations.GdAddrIsABijection := by
  intro c hc
  refine ⟨fun x y hx hy => ?_, fun v h byte bit hv _ hbyte hbit => ?_, gdAddr_eq hc 0 40⟩
  · obtain ⟨hxInv, hyInv⟩ := Prod.mk.inj (gdPixel_gdAddr hc hx y)
    exact ⟨gdAddr_eq hc x y, gdAddr_h_lt hc hx hy, hyInv.symm, hxInv.symm⟩
  · exact gdAddr_gdPixel hc (p := ⟨v, h, byte, bit⟩) hv hbyte hbit

end Sys2Proof.Machine
end

section
/-! The bytes of a serial frame (`30_encoding.md` R82): the sync byte, then the source byte's two halves, each in the
high half of a byte of its own. -/

namespace Sys2Proof.Machine

/-- Masking with `0xF0` keeps the high half of a byte. -/
theorem and_highNibble (b : Byte) : b &&& 0xF0 = BitVec.ofNat 8 (b.toNat / 16 * 16) := by
  have hmask : b &&& (0xF0 : Byte) = b >>> 4 <<< 4 := (BitVec.shiftLeft_ushiftRight (x := b) (n := 4)).symm
  apply BitVec.eq_of_toNat_eq
  rw [hmask, BitVec.toNat_shiftLeft, BitVec.toNat_ushiftRight, Nat.shiftRight_eq_div_pow, Nat.shiftLeft_eq,
    BitVec.toNat_ofNat]

/-- Moved up by half a byte, the low half is the high one. -/
theorem shiftLeft_and_highNibble (b : Byte) : (b <<< 4) &&& 0xF0 = BitVec.ofNat 8 (b.toNat % 16 * 16) := by
  have hhalf : b.toNat * 16 % 256 / 16 * 16 = b.toNat % 16 * 16 := by omega
  rw [and_highNibble, BitVec.toNat_shiftLeft, Nat.shiftLeft_eq]
  exact congrArg _ hhalf

theorem syncByte_eq (rs : Bool) : syncBase ||| (if rs then 0x02 else 0x00) = BitVec.ofNat 8 (0xF8 + 2 * rs.toNat) := by
  cases rs <;> decide

/-- Settles O38, byte by byte. -/
theorem frameBytes : Obligations.FrameBytes := by
  intro rs b
  rw [frame, syncByte_eq, and_highNibble, shiftLeft_and_highNibble]

end Sys2Proof.Machine
end

section
/-! The response word (`30_encoding.md` R76): its fields, and that every command ends in exactly one `Respond`, with
the value bit 0 unless the command is `GETPIX`. -/

namespace Sys2Proof.Machine

/-! ## The fields of the word -/

theorem Status.code_le (st : Status) : st.code ≤ 5 := by cases st <;> decide

theorem Mode.code_lt (m : Mode) : m.code < 4 := by cases m <;> decide

section
variable (st : Status) (m : Mode) (v : Pixel)

/-- The fields fill the word without a carry. -/
theorem responseWord_toNat : (responseWord st m v).toNat = v.toNat * 256 + m.code * 16 + st.code := by
  have hst := st.code_le
  have hm := m.code_lt
  have hv := v.toNat_lt
  rw [responseWord, BitVec.toNat_ofNat]
  omega

@[simp] theorem slice_responseWord_status : slice (responseWord st m v) 2 0 = st.code := by
  have hst := st.code_le
  simp only [slice, responseWord_toNat]
  omega

@[simp] theorem slice_responseWord_mode : slice (responseWord st m v) 5 4 = m.code := by
  have hst := st.code_le
  have hm := m.code_lt
  simp only [slice, responseWord_toNat]
  omega

@[simp] theorem slice_responseWord_value : slice (responseWord st m v) 8 8 = v.toNat := by
  have hst := st.code_le
  have hm := m.code_lt
  have hv := v.toNat_lt
  simp only [slice, responseWord_toNat]
  omega

/-- The bits between and above the fields are 0. -/
theorem slice_responseWord_reserved : slice (responseWord st m v) 3 3 = 0 ∧ slice (responseWord st m v) 7 6 = 0 ∧
    slice (responseWord st m v) 31 9 = 0 := by
  have hst := st.code_le
  have hm := m.code_lt
  have hv := v.toNat_lt
  simp only [slice, responseWord_toNat]
  omega

end

/-! ## One response for each command -/

/-- A run of a script responds once, with value 0. -/
theorem protocolRun_responds {ops : List PeOp} {s t : State} (h : protocolRun ops s = .next t) :
    ∃ st, t.responses = s.responses ++ [responseWord st t.mode false] := by
  unfold protocolRun at h
  split at h
  · cases h
  · obtain rfl : runScript ops s = t := by simpa using h
    rcases runScript_cases ops s with ⟨-, hrun⟩ | ⟨pre, b, post, -, -, hrun⟩ <;> rw [hrun]
    · exact ⟨.ok, by simp⟩
    · exact ⟨.transportError, by simp⟩

/-- A drawing command answers `OK`; only `GETPIX` has a value to give (`40_framebuffer.md` R105, R109). -/
theorem exec_drawing_responds {i : Instr} {s t : State} (hi : isProtocol i = false) (h : exec i s = .next t) :
    ∃ v, t.responses = s.responses ++ [responseWord .ok t.mode v] ∧ (v = true → ∃ x y, i = .getpix x y) := by
  cases i with
  | getpix x y => cases h; exact ⟨_, rfl, fun _ => ⟨x, y, rfl⟩⟩
  | clear | setpix | blit | line | rect | circle | tri => cases h; exact ⟨false, rfl, by simp⟩
  | text x y font size threshold chars =>
    simp only [exec, execText] at h
    split at h
    · cases h
    · obtain ⟨m, -, hm⟩ := renderText_eq y font size threshold chars x s
      rw [hm] at h
      cases h
      exact ⟨false, rfl, by simp⟩
  | reset | gfxon | gfxoff | present | wrtext => cases hi

/-- A protocol command responds with value 0: refused at once, or from its script. -/
theorem exec_protocol_responds {i : Instr} {s t : State} (hi : isProtocol i = true) (h : exec i s = .next t) :
    ∃ st, t.responses = s.responses ++ [responseWord st t.mode false] := by
  rcases exec_protocol_cases i s hi with ⟨st, -, hrefuse⟩ | ⟨ops, -, hrun⟩
  · rw [hrefuse s rfl rfl] at h
    cases h
    exact ⟨st, rfl⟩
  · rw [hrun s rfl rfl rfl] at h
    exact protocolRun_responds h

/-- Every command responds once, and a value of 1 is an `OK` of `GETPIX`. -/
theorem exec_responds {i : Instr} {s t : State} (h : exec i s = .next t) :
    ∃ st v, t.responses = s.responses ++ [responseWord st t.mode v] ∧
      (v = true → st = .ok ∧ ∃ x y, i = .getpix x y) := by
  cases hi : isProtocol i with
  | false =>
    obtain ⟨v, hresp, hv⟩ := exec_drawing_responds hi h
    exact ⟨.ok, v, hresp, fun hv1 => ⟨rfl, hv hv1⟩⟩
  | true =>
    obtain ⟨st, hresp⟩ := exec_protocol_responds hi h
    exact ⟨st, false, hresp, by simp⟩

/-! ## One response for each packet -/

/-- A step on a packet that decodes runs its command, with the packet consumed. -/
theorem step_of_decode_instr {s : State} {p : Packet} {rest : List Packet} {i : Instr} (hs : s.packets = p :: rest)
    (hp : decode p = .instr i) : step s = exec i { s with packets := rest } := by
  simp only [step, State.fetch, hs, hp]

/-- A step on an illegal packet answers and consumes it. -/
theorem step_of_decode_illegal {s : State} {p : Packet} {rest : List Packet} {why : Reject}
    (hs : s.packets = p :: rest) (hp : decode p = .illegal why) :
    step s = .next { s with packets := rest }.illegalCommand := by
  simp only [step, State.fetch, hs, hp]

/-- Every packet gets one response, and a value of 1 is an `OK` of `GETPIX`. -/
theorem step_responds {s t : State} {p : Packet} {rest : List Packet} (hs : s.packets = p :: rest)
    (h : step s = .next t) :
    ∃ st v, t.responses = s.responses ++ [responseWord st t.mode v] ∧
      (v = true → st = .ok ∧ ∃ x y, decode p = .instr (.getpix x y)) := by
  cases hp : decode p with
  | instr i =>
    rw [step_of_decode_instr hs hp] at h
    obtain ⟨st, v, hresp, hv⟩ := exec_responds h
    exact ⟨st, v, hresp, by simpa using hv⟩
  | illegal why =>
    rw [step_of_decode_illegal hs hp] at h
    cases h
    exact ⟨.illegalCommand, false, rfl, by simp⟩

/-- Settles O7: the response of the packet is a `responseWord`, whose fields are known. -/
theorem oneResponseWordPerPacket : Obligations.OneResponseWordPerPacket := by
  intro s t p rest hs h
  obtain ⟨st, v, hresp, hv⟩ := step_responds hs h
  obtain ⟨h3, h76, h319⟩ := slice_responseWord_reserved st t.mode v
  refine ⟨_, hresp, slice_responseWord_mode .., ?_, h3, h76, h319, fun hval => ?_⟩
  · simpa using st.code_le
  · obtain ⟨rfl, hget⟩ := hv (by simpa using hval)
    exact ⟨slice_responseWord_status .., hget⟩

end Sys2Proof.Machine
end

section
/-! `BLIT` (`30_encoding.md` R74, R84, `40_framebuffer.md` R107): its packet, and its bitmap on the frame buffer. -/

namespace Sys2Proof.Machine

/-! ## A point word (`30_encoding.md` R73) -/

theorem toNat_append16 (a b : BitVec 16) : (a ++ b).toNat = a.toNat * 65536 + b.toNat := by
  rw [BitVec.toNat_append, ← Nat.shiftLeft_add_eq_or_of_lt b.isLt, Nat.shiftLeft_eq]

/-- Sign extension undoes the reduction of a coordinate to 16 bits. -/
theorem sext16_ofInt {x : Int} (hx : Coord16 x) : sext16 (BitVec.ofInt 16 x).toNat = x := by
  obtain ⟨hlo, hhi⟩ := hx
  simp only [sext16, BitVec.toNat_ofInt]
  omega

theorem pointX_append {x : Int} (hx : Coord16 x) (y : BitVec 16) : pointX (y ++ BitVec.ofInt 16 x) = x := by
  have hlow : slice (y ++ BitVec.ofInt 16 x) 15 0 = (BitVec.ofInt 16 x).toNat := by
    simp only [slice, toNat_append16]
    omega
  rw [pointX, hlow, sext16_ofInt hx]

theorem pointY_append {y : Int} (hy : Coord16 y) (x : BitVec 16) : pointY (BitVec.ofInt 16 y ++ x) = y := by
  have hhigh : slice (BitVec.ofInt 16 y ++ x) 31 16 = (BitVec.ofInt 16 y).toNat := by
    simp only [slice, toNat_append16]
    omega
  rw [pointY, hhigh, sext16_ofInt hy]

/-! ## The packet of a `BLIT` -/

/-- The fields of the header of a `BLIT`: opcode, reserved bits, blend. -/
theorem blitHeader_fields (b : Blend) :
    slice (BitVec.ofNat 32 (0x04000000 + b.code * 2)) 31 24 = 0x04 ∧
      slice (BitVec.ofNat 32 (0x04000000 + b.code * 2)) 0 0 = 0 ∧
      slice (BitVec.ofNat 32 (0x04000000 + b.code * 2)) 23 3 = 0 ∧
      headerBlend (BitVec.ofNat 32 (0x04000000 + b.code * 2)) = b := by
  cases b <;> decide

/-- The fields of the size word of a `BLIT`: reserved bits, height, width. -/
theorem sizeWord_fields {w h : Nat} (hw : w < 256) (hh : h < 256) :
    slice (BitVec.ofNat 32 (h * 256 + w)) 31 16 = 0 ∧ slice (BitVec.ofNat 32 (h * 256 + w)) 15 8 = h ∧
      slice (BitVec.ofNat 32 (h * 256 + w)) 7 0 = w := by
  simp only [slice, BitVec.toNat_ofNat]
  omega

theorem decode_of_opcode_blit {p : Packet} (hp : slice p.header 31 24 = 0x04) : decode p = decodeBlit p := by
  simp only [decode, opcodeOf, hp]

/-- The packet R74 gives a `BLIT` decodes to it. -/
theorem decode_blit {x y : Int} (b : Blend) {w h : Nat} {payload : List Word} (hx : Coord16 x) (hy : Coord16 y)
    (hw : w < 256) (hh : h < 256) (hlen : payload.length = h * wordsPerRow w) :
    decode ⟨BitVec.ofNat 32 (0x04000000 + b.code * 2),
        (BitVec.ofInt 16 y ++ BitVec.ofInt 16 x) :: BitVec.ofNat 32 (h * 256 + w) :: payload⟩ =
      .instr (.blit x y b w h payload) := by
  obtain ⟨hopcode, hlow, hhigh, hblend⟩ := blitHeader_fields b
  obtain ⟨hres, hheight, hwidth⟩ := sizeWord_fields hw hh
  rw [decode_of_opcode_blit hopcode]
  simp [decodeBlit, hlow, hhigh, hblend, hres, hheight, hwidth, hlen, pointX_append hx, pointY_append hy]

/-! ## The bitmap on the frame buffer -/

/-- `OK` with value 0 is the mode field alone. -/
theorem responseWord_ok_false (m : Mode) : responseWord .ok m false = BitVec.ofNat 32 (m.code * 16) := by
  simp [responseWord, Status.code]

/-- The next state of `BLIT`: only the frame buffer and the response change. -/
theorem exec_blit (x y : Int) (b : Blend) (w h : Nat) (payload : List Word) (s : State) :
    exec (.blit x y b w h payload) s = .next { s with
      fb := s.fb.plotDots b (bitmapDots x y w h (blitSrc payload w))
      responses := s.responses ++ [BitVec.ofNat 32 (s.mode.code * 16)] } := by
  rw [← responseWord_ok_false]
  rfl

/-- Settles O12: the packet by `decode_blit`, the pixels by what compositing a bitmap does to one pixel. -/
theorem blitCompositesItsBox : Obligations.BlitCompositesItsBox := by
  intro x y b w h payload s
  refine ⟨fun hx hy hw hh hlen => decode_blit b hx hy hw hh hlen, fun hwf =>
    ⟨_, exec_blit x y b w h payload s, Memory.plotDots_wf b _ hwf, fun px py i j hpx hpy => ?_⟩⟩
  rw [Memory.getPixel_bitmap hwf b x y w h _ hpx hpy]
  refine ⟨fun hi hj hiw hjh => ?inside, fun hout => if_neg hout⟩
  case inside =>
    have hcol : ((px : Int) - x).toNat = i := by omega
    have hrow : ((py : Int) - y).toNat = j := by omega
    rw [if_pos (by omega), hcol, hrow]
    rfl

end Sys2Proof.Machine
end

section
/-! The frame-buffer commands `CLEAR`, `SETPIX` and `GETPIX` (`40_framebuffer.md` R101 to R106): their packets and their
next states. -/

namespace Sys2Proof.Machine

/-- `OK` is the value bit and the mode field alone. -/
theorem responseWord_ok (m : Mode) (v : Pixel) :
    responseWord .ok m v = BitVec.ofNat 32 (v.toNat * 256 + m.code * 16) := by
  simp only [responseWord, Status.code, Nat.add_zero]

/-! ## `CLEAR` (R102) -/

/-- The fields of the header of a `CLEAR`: opcode, reserved bits, value. -/
theorem clearHeader_fields (v : Pixel) :
    slice (BitVec.ofNat 32 (0x01000000 + v.toNat)) 31 24 = 0x01 ∧
      slice (BitVec.ofNat 32 (0x01000000 + v.toNat)) 23 1 = 0 ∧
      headerV (BitVec.ofNat 32 (0x01000000 + v.toNat)) = v := by
  cases v <;> decide

theorem decode_of_opcode_clear {p : Packet} (hp : slice p.header 31 24 = 0x01) : decode p = decodeClear p := by
  simp only [decode, opcodeOf, hp]

/-- The packet R74 gives a `CLEAR` decodes to it. -/
theorem decode_clear (v : Pixel) : decode ⟨BitVec.ofNat 32 (0x01000000 + v.toNat), []⟩ = .instr (.clear v) := by
  obtain ⟨hopcode, hres, hv⟩ := clearHeader_fields v
  rw [decode_of_opcode_clear hopcode]
  simp [decodeClear, hres, hv]

/-- The next state of `CLEAR`: only the frame buffer and the response change. -/
theorem exec_clear (v : Pixel) (s : State) :
    exec (.clear v) s = .next { s with
      fb := Memory.filled v
      responses := s.responses ++ [BitVec.ofNat 32 (s.mode.code * 16)] } := by
  simp only [exec, execClear, State.respond, responseWord_ok_false]

/-- A cleared frame buffer has one value at every pixel. -/
theorem Memory.getPixel_filled (v : Pixel) {x y : Nat} (hx : x < fbWidth) (hy : y < fbHeight) :
    (Memory.filled v).getPixel x y = v := by
  have hbyte : (Memory.filled v).fbByte y (x / 8) = if v then 0xFF else 0x00 :=
    (Memory.ofBytes_read _ _).trans (if_pos (pixelByte_lt hx hy))
  have hbit : ∀ i < 8, (if v then 0xFF else 0x00 : Byte).getLsbD i = v := by cases v <;> decide
  rw [Memory.getPixel, hbyte, hbit _ (pixelBit_lt x)]

/-- Settles O8: the frame buffer left is `Memory.filled v`. -/
theorem clearMakesEveryPixelTheValue : Obligations.ClearMakesEveryPixelTheValue := fun v s =>
  ⟨decode_clear v, _, exec_clear v s, Memory.filled_wf v, fun _ _ hx hy => Memory.getPixel_filled v hx hy⟩

/-! ## `SETPIX` (R101, R103, R104) -/

/-- The fields of the header of a `SETPIX`: opcode, reserved bits, value, blend. -/
theorem setpixHeader_fields (b : Blend) (v : Pixel) :
    slice (BitVec.ofNat 32 (0x02000000 + b.code * 2 + v.toNat)) 31 24 = 0x02 ∧
      slice (BitVec.ofNat 32 (0x02000000 + b.code * 2 + v.toNat)) 23 3 = 0 ∧
      headerV (BitVec.ofNat 32 (0x02000000 + b.code * 2 + v.toNat)) = v ∧
      headerBlend (BitVec.ofNat 32 (0x02000000 + b.code * 2 + v.toNat)) = b := by
  cases b <;> cases v <;> decide

theorem decode_of_opcode_setpix {p : Packet} (hp : slice p.header 31 24 = 0x02) : decode p = decodeSetpix p := by
  simp only [decode, opcodeOf, hp]

/-- The packet R74 gives a `SETPIX` decodes to it. -/
theorem decode_setpix {x y : Int} (v : Pixel) (b : Blend) (hx : Coord16 x) (hy : Coord16 y) :
    decode ⟨BitVec.ofNat 32 (0x02000000 + b.code * 2 + v.toNat), [BitVec.ofInt 16 y ++ BitVec.ofInt 16 x]⟩ =
      .instr (.setpix x y v b) := by
  obtain ⟨hopcode, hres, hv, hblend⟩ := setpixHeader_fields b v
  rw [decode_of_opcode_setpix hopcode]
  simp [decodeSetpix, hres, hv, hblend, pointX_append hx, pointY_append hy]

/-- The next state of `SETPIX`: only the frame buffer and the response change. -/
theorem exec_setpix (x y : Int) (v : Pixel) (b : Blend) (s : State) :
    exec (.setpix x y v b) s = .next { s with
      fb := s.fb.plot b x y v
      responses := s.responses ++ [BitVec.ofNat 32 (s.mode.code * 16)] } := by
  simp only [exec, execSetpix, State.respond, responseWord_ok_false]

/-- Settles O9: the packet by `decode_setpix`, the pixels by what one `Plot` does to one pixel. -/
theorem setpixBlendsOnePixel : Obligations.SetpixBlendsOnePixel := by
  intro x y v b s
  refine ⟨decode_setpix v b, fun hwf =>
    ⟨_, exec_setpix x y v b s, Memory.plot_wf hwf b x y v, fun px py hpx hpy => ?_⟩⟩
  rw [Memory.getPixel_plot hwf b x y v hpx hpy]
  cases b <;> rfl

/-! ## `GETPIX` (R105, R106) -/

theorem decode_of_opcode_getpix {p : Packet} (hp : slice p.header 31 24 = 0x03) : decode p = decodeGetpix p := by
  simp only [decode, opcodeOf, hp]

/-- The packet R74 gives a `GETPIX` decodes to it. -/
theorem decode_getpix {x y : Int} (hx : Coord16 x) (hy : Coord16 y) :
    decode ⟨0x03000000, [BitVec.ofInt 16 y ++ BitVec.ofInt 16 x]⟩ = .instr (.getpix x y) := by
  have hopcode : slice 0x03000000#32 31 24 = 0x03 := by decide
  have hres : slice 0x03000000#32 23 0 = 0 := by decide
  rw [decode_of_opcode_getpix hopcode]
  simp [decodeGetpix, hres, pointX_append hx, pointY_append hy]

/-- The next state of `GETPIX`: only the response changes. -/
theorem exec_getpix (x y : Int) (s : State) :
    exec (.getpix x y) s = .next { s with
      responses := s.responses ++ [responseWord .ok s.mode (s.fb.get x y)] } := rfl

/-- A pixel of the grid is read from the frame buffer. -/
theorem Memory.get_of_inRange (m : Memory) {x y : Int} (h : InRange x y) : m.get x y = m.getPixel x.toNat y.toNat :=
  if_pos h

/-- Off the grid a read gives 0 (R106). -/
theorem Memory.get_off_grid (m : Memory) {x y : Int} (h : ¬InRange x y) : m.get x y = false := if_neg h

/-- Settles O10: the response carries `Memory.get`, the pixel on the grid and 0 off it. -/
theorem getpixAnswersThePixel : Obligations.GetpixAnswersThePixel := by
  intro x y s
  refine ⟨decode_getpix, fun hin => ?_, fun hout => ?_⟩
  · rw [exec_getpix, Memory.get_of_inRange s.fb hin, responseWord_ok]
  · rw [exec_getpix, Memory.get_off_grid s.fb hout, responseWord_ok_false]

end Sys2Proof.Machine
end

section
/-! Drawing and the protocol engine do not touch each other (`40_framebuffer.md` R109). One lemma
(`exec_drawing_determined`) says that a drawing command's work is a function of the frame buffer, the GlyphSource's
answers and the configuration. -/

namespace Sys2Proof.Machine

/-! ## What a drawing command reads -/

/-- Two states agree on all that a drawing command reads. -/
structure SameDrawingInputs (s s' : State) : Prop where
  fb : s'.fb = s.fb
  glyphAnswers : s'.glyphAnswers = s.glyphAnswers
  glyphSilent : s'.glyphSilent = s.glyphSilent
  glyphDrawn : s'.glyphDrawn = s.glyphDrawn
  cfg : s'.cfg = s.cfg

theorem SameDrawingInputs.refl (s : State) : SameDrawingInputs s s := ⟨rfl, rfl, rfl, rfl, rfl⟩

section
variable {s s' : State} (h : SameDrawingInputs s s')
include h

theorem SameDrawingInputs.glyphAnswer (q : GlyphQuery) : s'.glyphAnswer q = s.glyphAnswer q := by
  simp only [State.glyphAnswer, h.glyphAnswers, h.glyphDrawn]

theorem SameDrawingInputs.glyphStalls (n : Nat) : s'.glyphStalls n = s.glyphStalls n := by
  simp only [State.glyphStalls, h.glyphSilent, h.glyphAnswers]

theorem SameDrawingInputs.glyphAnswered (q : GlyphQuery) : SameDrawingInputs (s.glyphAnswered q) (s'.glyphAnswered q) := by
  constructor <;> simp only [h.fb, h.glyphAnswers, h.glyphSilent, h.glyphDrawn, h.cfg, State.glyphAnswered_fb,
    State.glyphAnswered_glyphAnswers, State.glyphAnswered_glyphSilent, State.glyphAnswered_glyphDrawn,
    State.glyphAnswered_cfg]

theorem SameDrawingInputs.withFb (m : Memory) : SameDrawingInputs { s with fb := m } { s' with fb := m } :=
  { h with fb := rfl }

end

/-- The loop of `TEXT` reads nothing else. -/
theorem SameDrawingInputs.renderText (y : Int) (font size threshold : Byte) : ∀ (chars : List Word) (cur : Int)
    {s s' : State}, SameDrawingInputs s s' →
      SameDrawingInputs (renderText y font size threshold chars cur s) (renderText y font size threshold chars cur s')
  | [], _, _, _, h => h
  | ch :: rest, cur, s, s', h => by
      have hq := h.glyphAnswered ⟨font, size, ch⟩
      simp only [Machine.renderText, h.glyphAnswer, h.cfg, hq.fb]
      exact SameDrawingInputs.renderText y font size threshold rest _ (hq.withFb _)

/-! ## What a drawing command does -/

/-- A drawing command other than `TEXT` is a function of the frame buffer, which it may rewrite and whose value it may
answer. -/
theorem exec_drawing_cases {i : Instr} (hi : isProtocol i = false) :
    (∃ (draw : Memory → Memory) (value : Memory → Pixel), ∀ s : State,
      exec i s = .next ({ s with fb := draw s.fb }.respond .ok (value s.fb))) ∨
    ∃ x y font size threshold chars, i = .text x y font size threshold chars := by
  cases i with
  | clear v => exact .inl ⟨fun _ => Memory.filled v, fun _ => false, fun _ => rfl⟩
  | setpix x y v b => exact .inl ⟨(·.plot b x y v), fun _ => false, fun _ => rfl⟩
  | getpix x y => exact .inl ⟨id, (·.get x y), fun _ => rfl⟩
  | blit x y b w h payload =>
    exact .inl ⟨(·.plotDots b (bitmapDots x y w h (blitSrc payload w))), fun _ => false, fun _ => rfl⟩
  | line x0 y0 x1 y1 v => exact .inl ⟨(·.draw (linePts x0 y0 x1 y1) v), fun _ => false, fun _ => rfl⟩
  | rect x0 y0 x1 y1 f v => exact .inl ⟨(·.draw (rectPts x0 y0 x1 y1 f) v), fun _ => false, fun _ => rfl⟩
  | circle cx cy r f v => exact .inl ⟨(·.draw (circlePts cx cy r f) v), fun _ => false, fun _ => rfl⟩
  | tri x0 y0 x1 y1 x2 y2 f v =>
    exact .inl ⟨(·.draw (triPts (x0, y0) (x1, y1) (x2, y2) f) v), fun _ => false, fun _ => rfl⟩
  | text x y font size threshold chars => exact .inr ⟨x, y, font, size, threshold, chars, rfl⟩
  | reset | gfxon | gfxoff | present | wrtext => cases hi

/-- A `TEXT` that completes does so from every state with the same inputs, with the same pixels, answers and queries. -/
theorem execText_determined {x y : Int} {font size threshold : Byte} {chars : List Word} {s t : State}
    (h : execText x y font size threshold chars s = .next t) {s' : State} (hin : SameDrawingInputs s s') :
    execText x y font size threshold chars s' = .next ({ s' with
      fb := (renderText y font size threshold chars x s).fb
      glyphAnswers := s.glyphAnswers.drop chars.length
      glyphDrawn := s.glyphDrawn + (chars.length - s.glyphAnswers.length)
      glyphQueries := s'.glyphQueries ++ chars.map (GlyphQuery.mk font size) }.respond .ok false) := by
  unfold execText at h ⊢
  rw [hin.glyphStalls]
  split at h
  · cases h
  · next hstalls =>
    obtain ⟨m, -, hm⟩ := renderText_eq y font size threshold chars x s'
    have hfb : m = (renderText y font size threshold chars x s).fb := by
      rw [← (hin.renderText y font size threshold chars x).fb, hm]
    rw [if_neg hstalls, hm, hfb, hin.glyphAnswers, hin.glyphDrawn]

/-- A drawing command that completes does so from every state with the same inputs, with the same results: the frame
buffer, the GlyphSource's fields, and an `OK` with one value. Everything else stays as that state has it. -/
theorem exec_drawing_determined {i : Instr} {s t : State} (hi : isProtocol i = false) (h : exec i s = .next t) :
    ∃ (m : Memory) (answers : List GlyphAnswer) (drawn : Nat) (queries : List GlyphQuery) (v : Pixel),
      ∀ s' : State, SameDrawingInputs s s' → exec i s' = .next ({ s' with
        fb := m
        glyphAnswers := answers
        glyphDrawn := drawn
        glyphQueries := s'.glyphQueries ++ queries }.respond .ok v) := by
  rcases exec_drawing_cases hi with ⟨draw, value, hexec⟩ | ⟨x, y, font, size, threshold, chars, rfl⟩
  · refine ⟨draw s.fb, s.glyphAnswers, s.glyphDrawn, [], value s.fb, fun s' hin => ?_⟩
    rw [hexec, hin.fb, ← hin.glyphAnswers, ← hin.glyphDrawn, List.append_nil]
  · exact ⟨_, _, _, _, false, fun s' hin => execText_determined h hin⟩

/-! ## What a protocol command leaves alone -/

/-- A script, completed or aborted, leaves the GlyphSource's fields alone. -/
theorem runScript_glyph (ops : List PeOp) (s : State) :
    (runScript ops s).glyphAnswers = s.glyphAnswers ∧ (runScript ops s).glyphDrawn = s.glyphDrawn ∧
      (runScript ops s).glyphQueries = s.glyphQueries := by
  rcases runScript_cases ops s with ⟨-, hrun⟩ | ⟨pre, b, post, -, -, hrun⟩ <;> simp [hrun]

/-- A protocol command, failed or not, leaves the frame buffer and the GlyphSource's fields alone. -/
theorem exec_protocol_frame {i : Instr} {s t : State} (hi : isProtocol i = true) (h : exec i s = .next t) :
    t.fb = s.fb ∧ t.glyphAnswers = s.glyphAnswers ∧ t.glyphDrawn = s.glyphDrawn ∧ t.glyphQueries = s.glyphQueries := by
  rcases exec_protocol_cases i s hi with ⟨st, -, hrefuse⟩ | ⟨ops, -, hrun⟩
  · rw [hrefuse s rfl rfl] at h
    cases h
    exact ⟨rfl, rfl, rfl, rfl⟩
  · rw [hrun s rfl rfl rfl, protocolRun] at h
    split at h
    · cases h
    · cases h
      exact ⟨runScript_fb ops s, runScript_glyph ops s⟩

/-- Settles O53: a drawing command's next state is known from every state with its inputs, its own among them. -/
theorem drawingAndProtocolAreIndependent : Obligations.DrawingAndProtocolAreIndependent := by
  refine ⟨fun i s t hi h => ?drawing, fun i s t hi h => exec_protocol_frame hi h⟩
  case drawing =>
    obtain ⟨m, answers, drawn, queries, v, hexec⟩ := exec_drawing_determined hi h
    rw [hexec s (.refl s)] at h
    cases h
    refine ⟨rfl, rfl, rfl, rfl, rfl, rfl, rfl, rfl, rfl, rfl, _, rfl, slice_responseWord_status ..,
      fun s' hfb hanswers hsilent hdrawn hcfg => ⟨_, _, hexec s' ⟨hfb, hanswers, hsilent, hdrawn, hcfg⟩, rfl, rfl, rfl,
        rfl, slice_responseWord_status .., ?_⟩⟩
    rw [slice_responseWord_value, slice_responseWord_value]

end Sys2Proof.Machine
end


section
/-! What the rasterizer commands (`41_rasterizer.md` R121, R125, R130, R135) share: the fields of their packets, and the
one next state each has, a list of pixels drawn with blend `SET` (R136). -/

namespace Sys2Proof.Machine

/-! ## The packets (`30_encoding.md` R73, R74) -/

/-- The fields of the header of a `LINE`: opcode, reserved bits, value. -/
theorem lineHeader_fields (v : Pixel) :
    slice (BitVec.ofNat 32 (0x10000000 + v.toNat)) 31 24 = 0x10 ∧
      slice (BitVec.ofNat 32 (0x10000000 + v.toNat)) 23 1 = 0 ∧
      headerV (BitVec.ofNat 32 (0x10000000 + v.toNat)) = v := by
  cases v <;> decide

/-- The fields of the header of a shape: opcode, reserved bits, fill, value. -/
theorem shapeHeader_fields {op : Nat} (hop : op ∈ [0x11, 0x12, 0x13]) (f : Fill) (v : Pixel) :
    slice (BitVec.ofNat 32 (op * 0x1000000 + f.code * 8 + v.toNat)) 31 24 = op ∧
      shapeReserved (BitVec.ofNat 32 (op * 0x1000000 + f.code * 8 + v.toNat)) = false ∧
      headerFill (BitVec.ofNat 32 (op * 0x1000000 + f.code * 8 + v.toNat)) = f ∧
      headerV (BitVec.ofNat 32 (op * 0x1000000 + f.code * 8 + v.toNat)) = v := by
  revert op
  cases f <;> cases v <;> decide

/-- The fields of the radius word of a `CIRCLE`: reserved bits, radius. -/
theorem radiusWord_fields {r : Int} (hr : Coord16 r) :
    slice ((BitVec.ofInt 16 r).setWidth 32) 31 16 = 0 ∧ pointX ((BitVec.ofInt 16 r).setWidth 32) = r := by
  have hword : ((BitVec.ofInt 16 r).setWidth 32).toNat = (BitVec.ofInt 16 r).toNat :=
    BitVec.toNat_setWidth_of_le (by decide)
  have hlow : slice ((BitVec.ofInt 16 r).setWidth 32) 15 0 = (BitVec.ofInt 16 r).toNat := by
    simp only [slice, hword]
    omega
  refine ⟨?_, by rw [pointX, hlow, sext16_ofInt hr]⟩
  simp only [slice, hword]
  omega

theorem decode_of_opcode_line {p : Packet} (hp : slice p.header 31 24 = 0x10) : decode p = decodeLine p := by
  simp only [decode, opcodeOf, hp]

theorem decode_of_opcode_rect {p : Packet} (hp : slice p.header 31 24 = 0x11) : decode p = decodeRect p := by
  simp only [decode, opcodeOf, hp]

theorem decode_of_opcode_circle {p : Packet} (hp : slice p.header 31 24 = 0x12) : decode p = decodeCircle p := by
  simp only [decode, opcodeOf, hp]

theorem decode_of_opcode_tri {p : Packet} (hp : slice p.header 31 24 = 0x13) : decode p = decodeTri p := by
  simp only [decode, opcodeOf, hp]

/-- The packet R74 gives a `LINE` decodes to it. -/
theorem decode_line {x0 y0 x1 y1 : Int} (v : Pixel) (hx0 : Coord16 x0) (hy0 : Coord16 y0) (hx1 : Coord16 x1)
    (hy1 : Coord16 y1) :
    decode ⟨BitVec.ofNat 32 (0x10000000 + v.toNat),
        [BitVec.ofInt 16 y0 ++ BitVec.ofInt 16 x0, BitVec.ofInt 16 y1 ++ BitVec.ofInt 16 x1]⟩ =
      .instr (.line x0 y0 x1 y1 v) := by
  obtain ⟨hopcode, hres, hv⟩ := lineHeader_fields v
  rw [decode_of_opcode_line hopcode]
  simp [decodeLine, hres, hv, pointX_append, pointY_append, hx0, hy0, hx1, hy1]

/-- The packet R74 gives a `RECT` decodes to it. -/
theorem decode_rect {x0 y0 x1 y1 : Int} (f : Fill) (v : Pixel) (hx0 : Coord16 x0) (hy0 : Coord16 y0)
    (hx1 : Coord16 x1) (hy1 : Coord16 y1) :
    decode ⟨BitVec.ofNat 32 (0x11000000 + f.code * 8 + v.toNat),
        [BitVec.ofInt 16 y0 ++ BitVec.ofInt 16 x0, BitVec.ofInt 16 y1 ++ BitVec.ofInt 16 x1]⟩ =
      .instr (.rect x0 y0 x1 y1 f v) := by
  obtain ⟨hopcode, hres, hf, hv⟩ := shapeHeader_fields (op := 0x11) (by decide) f v
  rw [decode_of_opcode_rect hopcode]
  simp [decodeRect, hres, hf, hv, pointX_append, pointY_append, hx0, hy0, hx1, hy1]

/-- The packet R74 gives a `CIRCLE` decodes to it. -/
theorem decode_circle {cx cy r : Int} (f : Fill) (v : Pixel) (hcx : Coord16 cx) (hcy : Coord16 cy) (hr : Coord16 r) :
    decode ⟨BitVec.ofNat 32 (0x12000000 + f.code * 8 + v.toNat),
        [BitVec.ofInt 16 cy ++ BitVec.ofInt 16 cx, (BitVec.ofInt 16 r).setWidth 32]⟩ =
      .instr (.circle cx cy r f v) := by
  obtain ⟨hopcode, hres, hf, hv⟩ := shapeHeader_fields (op := 0x12) (by decide) f v
  obtain ⟨hhigh, hradius⟩ := radiusWord_fields hr
  rw [decode_of_opcode_circle hopcode]
  simp [decodeCircle, hres, hf, hv, hhigh, hradius, pointX_append hcx, pointY_append hcy]

/-- The packet R74 gives a `TRI` decodes to it. -/
theorem decode_tri {x0 y0 x1 y1 x2 y2 : Int} (f : Fill) (v : Pixel) (hx0 : Coord16 x0) (hy0 : Coord16 y0)
    (hx1 : Coord16 x1) (hy1 : Coord16 y1) (hx2 : Coord16 x2) (hy2 : Coord16 y2) :
    decode ⟨BitVec.ofNat 32 (0x13000000 + f.code * 8 + v.toNat),
        [BitVec.ofInt 16 y0 ++ BitVec.ofInt 16 x0, BitVec.ofInt 16 y1 ++ BitVec.ofInt 16 x1,
          BitVec.ofInt 16 y2 ++ BitVec.ofInt 16 x2]⟩ =
      .instr (.tri x0 y0 x1 y1 x2 y2 f v) := by
  obtain ⟨hopcode, hres, hf, hv⟩ := shapeHeader_fields (op := 0x13) (by decide) f v
  rw [decode_of_opcode_tri hopcode]
  simp [decodeTri, hres, hf, hv, pointX_append, pointY_append, hx0, hy0, hx1, hy1, hx2, hy2]

/-! ## The next states (R136) -/

/-- The state after the pixels are drawn and `OK` answered: only the frame buffer and the response change. -/
def State.drawn (s : State) (pts : List (Int × Int)) (v : Pixel) : State :=
  { s with
    fb := s.fb.draw pts v
    responses := s.responses ++ [BitVec.ofNat 32 (s.mode.code * 16)] }

/-- Drawing and then answering `OK`, as the commands write it. -/
theorem State.respond_draw (s : State) (pts : List (Int × Int)) (v : Pixel) :
    ({ s with fb := s.fb.draw pts v }).respond .ok false = s.drawn pts v := by
  simp only [State.respond, responseWord_ok_false, State.drawn]

/-- The next state of `LINE`: the pixels of its list drawn. -/
theorem exec_line (x0 y0 x1 y1 : Int) (v : Pixel) (s : State) :
    exec (.line x0 y0 x1 y1 v) s = .next (s.drawn (linePts x0 y0 x1 y1) v) := by
  simp only [exec, execLine, State.respond_draw]

/-- The next state of `RECT`: the pixels of its list drawn. -/
theorem exec_rect (x0 y0 x1 y1 : Int) (f : Fill) (v : Pixel) (s : State) :
    exec (.rect x0 y0 x1 y1 f v) s = .next (s.drawn (rectPts x0 y0 x1 y1 f) v) := by
  simp only [exec, execRect, State.respond_draw]

/-- The next state of `CIRCLE`: the pixels of its list drawn. -/
theorem exec_circle (cx cy r : Int) (f : Fill) (v : Pixel) (s : State) :
    exec (.circle cx cy r f v) s = .next (s.drawn (circlePts cx cy r f) v) := by
  simp only [exec, execCircle, State.respond_draw]

/-- The next state of `TRI`: the pixels of its list drawn. -/
theorem exec_tri (x0 y0 x1 y1 x2 y2 : Int) (f : Fill) (v : Pixel) (s : State) :
    exec (.tri x0 y0 x1 y1 x2 y2 f v) s = .next (s.drawn (triPts (x0, y0) (x1, y1) (x2, y2) f) v) := by
  simp only [exec, execTri, State.respond_draw]

/-- Drawing a list that holds exactly the pixels of a shape: the pixel is `v` on the shape and unchanged off it. -/
theorem Memory.getPixel_draw_of_mem_iff {m : Memory} (hm : m.wf = true) {pts : List (Int × Int)} (v : Pixel)
    {px py : Nat} (hpx : px < fbWidth) (hpy : py < fbHeight) {Shape : Prop}
    (h : ((px : Int), (py : Int)) ∈ pts ↔ Shape) :
    (Shape → (m.draw pts v).getPixel px py = v) ∧ (¬Shape → (m.draw pts v).getPixel px py = m.getPixel px py) := by
  rw [Memory.getPixel_draw hm pts v hpx hpy]
  exact ⟨fun hin => if_pos (h.mpr hin), fun hout => if_neg (hout ∘ h.mp)⟩

end Sys2Proof.Machine
end

section
/-! Lines (`41_rasterizer.md` R120 to R122). At the pixel `i` columns and `j` rows from the first endpoint the error
term of the loop is `lineError dx dy i j`. Bounds on it that a step keeps hold along the whole path, and say how far the
path is from the ideal line. -/

namespace Sys2Proof.Machine

/-! ## The error term -/

/-- The error term at the pixel `i` columns and `j` rows from the first endpoint. -/
def lineError (dx dy i j : Int) : Int := dx * (j + 1) - dy * (i + 1)

/-- The error term after a step of the loop, from the one before it (R120). -/
def errorStep (dx dy err : Int) : Int :=
  err - (if -dy < 2 * err then dy else 0) + (if 2 * err < dx then dx else 0)

/-- The error term keeps its place beside the pixel. -/
theorem errorStep_lineError {dx dy i j err : Int} (h : err = lineError dx dy i j) :
    errorStep dx dy err =
      lineError dx dy (if -dy < 2 * err then i + 1 else i) (if 2 * err < dx then j + 1 else j) := by
  rw [errorStep, h, lineError, lineError]
  split_ifs <;> ring

/-- One step of the loop before its end (R120). -/
theorem lineLoop_step {dx dy sy x1 y1 x y : Int} (n : Nat) (err : Int) (h : ¬(x = x1 ∧ y = y1)) :
    lineLoop dx dy sy x1 y1 (n + 1) x y err =
      (x, y) :: lineLoop dx dy sy x1 y1 n (if -dy < 2 * err then x + 1 else x) (if 2 * err < dx then y + sy else y)
        (errorStep dx dy err) := by
  have herr : errorStep dx dy err =
      if 2 * err < dx then (if -dy < 2 * err then err - dy else err) + dx
      else (if -dy < 2 * err then err - dy else err) := by
    rw [errorStep]
    split_ifs <;> ring
  simp only [lineLoop, if_neg h, decide_eq_true_eq, herr]

/-- A bound on the error term that every step keeps holds at every pixel of the path. -/
theorem lineLoop_bounded {dx dy sy x1 y1 : Int} (x0 y0 : Int) {Bound : Int → Prop}
    (hstep : ∀ err, Bound err → Bound (errorStep dx dy err)) (n : Nat) :
    ∀ {i j err : Int}, 0 ≤ j → err = lineError dx dy i j → Bound err →
      ∀ p ∈ lineLoop dx dy sy x1 y1 n (x0 + i) (y0 + sy * j) err,
        ∃ i' j', 0 ≤ j' ∧ p = (x0 + i', y0 + sy * j') ∧ Bound (lineError dx dy i' j') := by
  induction n with
  | zero =>
    intro i j err hj herr hb p hp
    exact ⟨i, j, hj, by simpa [lineLoop] using hp, herr ▸ hb⟩
  | succ n ih =>
    intro i j err hj herr hb p hp
    by_cases hend : x0 + i = x1 ∧ y0 + sy * j = y1
    · exact ⟨i, j, hj, by simpa only [lineLoop, if_pos hend, List.mem_singleton] using hp, herr ▸ hb⟩
    rw [lineLoop_step n err hend, List.mem_cons] at hp
    obtain rfl | hp := hp
    · exact ⟨i, j, hj, rfl, herr ▸ hb⟩
    · have hcol : (if -dy < 2 * err then x0 + i + 1 else x0 + i) = x0 + if -dy < 2 * err then i + 1 else i := by
        split_ifs <;> ring
      have hrow : (if 2 * err < dx then y0 + sy * j + sy else y0 + sy * j) =
          y0 + sy * if 2 * err < dx then j + 1 else j := by
        split_ifs <;> ring
      rw [hcol, hrow] at hp
      exact ih (by split_ifs <;> omega) (errorStep_lineError herr) (hstep err hb) p hp

/-! ## The tie rule (R122) -/

/-- Where the column is the major axis: the path lies at most half a pixel short of the ideal line and less than half a
pixel beyond it; on a diagonal it lies on it. -/
def XMajorBound (dx dy err : Int) : Prop :=
  dx - 2 * dy ≤ 2 * err ∧ 2 * err < 3 * dx - 2 * dy ∧ (dx = dy → err = 0)

theorem XMajorBound.step {dx dy : Int} (hdy : 0 ≤ dy) (hdx : dy ≤ dx) (err : Int) (h : XMajorBound dx dy err) :
    XMajorBound dx dy (errorStep dx dy err) := by
  obtain ⟨hlo, hhi, hdiag⟩ := h
  unfold XMajorBound errorStep
  split_ifs <;> omega

/-- Where the row is the major axis: the same, seen from the other side. -/
def YMajorBound (dx dy err : Int) : Prop := 2 * dx - 3 * dy < 2 * err ∧ 2 * err ≤ 2 * dx - dy

theorem YMajorBound.step {dx dy : Int} (hdx : 0 ≤ dx) (hdy : dx < dy) (err : Int) (h : YMajorBound dx dy err) :
    YMajorBound dx dy (errorStep dx dy err) := by
  obtain ⟨hlo, hhi⟩ := h
  unfold YMajorBound errorStep
  split_ifs <;> omega

/-- From the canonical first endpoint the list is the loop's. -/
theorem linePts_of_canonical {x0 y0 x1 y1 : Int} (h : x0 < x1 ∨ (x0 = x1 ∧ y0 ≤ y1)) :
    linePts x0 y0 x1 y1 = linePtsFrom x0 y0 x1 y1 := if_neg (by omega)

/-- A bound on the error term that holds at the first endpoint and that every step keeps holds at every pixel of the
line. -/
theorem linePts_bounded {x0 y0 x1 y1 : Int} (hcanon : x0 < x1 ∨ (x0 = x1 ∧ y0 ≤ y1)) {Bound : Int → Prop}
    (hstart : Bound (x1 - x0 - (y1 - y0).natAbs))
    (hstep : ∀ err, Bound err → Bound (errorStep (x1 - x0) (y1 - y0).natAbs err)) :
    ∀ p ∈ linePts x0 y0 x1 y1, ∃ i j : Int, 0 ≤ j ∧ p = (x0 + i, y0 + (if y0 ≤ y1 then 1 else -1) * j) ∧
      Bound (lineError (x1 - x0) (y1 - y0).natAbs i j) := by
  intro p hp
  rw [linePts_of_canonical hcanon, linePtsFrom] at hp
  exact lineLoop_bounded x0 y0 hstep _ (i := 0) (j := 0) le_rfl (by simp [lineError]) hstart p (by simpa using hp)

/-- Rows counted from the first endpoint towards the second: the distance, and its side. -/
theorem rows_toward {y0 y1 y j : Int} (hj : 0 ≤ j) (hy : y = y0 + (if y0 ≤ y1 then 1 else -1) * j) :
    ((y - y0).natAbs : Int) = j ∧ 0 ≤ (y - y0) * (y1 - y0) := by
  split_ifs at hy with hdown
  · exact ⟨by omega, mul_nonneg (by omega) (by omega)⟩
  · exact ⟨by omega, mul_nonneg_of_nonpos_of_nonpos (by omega) (by omega)⟩

theorem XMajorBound.deviation {dx dy i j : Int} (h : XMajorBound dx dy (lineError dx dy i j)) :
    -dx ≤ 2 * (j * dx - i * dy) ∧ 2 * (j * dx - i * dy) < dx := by
  obtain ⟨hlo, hhi, -⟩ := h
  have herr : lineError dx dy i j = j * dx - i * dy + dx - dy := by rw [lineError]; ring
  omega

theorem YMajorBound.deviation {dx dy i j : Int} (h : YMajorBound dx dy (lineError dx dy i j)) :
    -dy ≤ 2 * (i * dy - j * dx) ∧ 2 * (i * dy - j * dx) < dy := by
  obtain ⟨hlo, hhi⟩ := h
  have herr : lineError dx dy i j = dx - dy - (i * dy - j * dx) := by rw [lineError]; ring
  omega

/-- Settles O17: in each octant family, the bound on the error term read at the pixel. -/
theorem linePathTieRule : Obligations.LinePathTieRule := by
  intro x0 y0 x1 y1 hcanon x y hmem
  by_cases hmajor : ((y1 - y0).natAbs : Int) ≤ x1 - x0
  · obtain ⟨i, j, hj, hp, hb⟩ := linePts_bounded (by omega) (Bound := XMajorBound (x1 - x0) (y1 - y0).natAbs)
      (by unfold XMajorBound; omega) (XMajorBound.step (by omega) hmajor) _ hmem
    obtain ⟨rfl, hy⟩ := Prod.mk.inj hp
    obtain ⟨habs, hside⟩ := rows_toward hj hy
    refine ⟨hside, fun _ => ?_, fun hminor => absurd hmajor (not_le.mpr hminor)⟩
    rw [habs, add_sub_cancel_left]
    exact hb.deviation
  · obtain ⟨i, j, hj, hp, hb⟩ := linePts_bounded (by omega) (Bound := YMajorBound (x1 - x0) (y1 - y0).natAbs)
      (by unfold YMajorBound; omega) (YMajorBound.step (by omega) (by omega)) _ hmem
    obtain ⟨rfl, hy⟩ := Prod.mk.inj hp
    obtain ⟨habs, hside⟩ := rows_toward hj hy
    refine ⟨hside, fun hminor => absurd hminor hmajor, fun _ => ?_⟩
    rw [habs, add_sub_cancel_left]
    exact hb.deviation

/-! ## Horizontal and vertical lines (R120) -/

/-- Along a row the error term stays, and each step moves one column. -/
theorem mem_lineLoop_horizontal (sy y : Int) {dx px py : Int} : ∀ (n : Nat) (x : Int), (n : Int) ≤ dx →
    ((px, py) ∈ lineLoop dx 0 sy (x + n) y n x y dx ↔ (x ≤ px ∧ px ≤ x + n) ∧ py = y)
  | 0, x, _ => by
    simp only [lineLoop, List.mem_singleton, Prod.mk.injEq]
    omega
  | n + 1, x, hn => by
    have herr : errorStep dx 0 dx = dx := by
      unfold errorStep
      split_ifs <;> omega
    have hend : x + ((n + 1 : Nat) : Int) = x + 1 + n := by omega
    rw [lineLoop_step n dx (by omega), herr, if_pos (by omega), if_neg (by omega), hend, List.mem_cons,
      mem_lineLoop_horizontal sy y n (x + 1) (by omega), Prod.mk.injEq]
    omega

/-- Along a column the error term stays, and each step moves one row. -/
theorem mem_lineLoop_vertical (x : Int) {dy px py : Int} : ∀ (n : Nat) (y : Int), (n : Int) ≤ dy →
    ((px, py) ∈ lineLoop 0 dy 1 x (y + n) n x y (-dy) ↔ px = x ∧ (y ≤ py ∧ py ≤ y + n))
  | 0, y, _ => by
    simp only [lineLoop, List.mem_singleton, Prod.mk.injEq]
    omega
  | n + 1, y, hn => by
    have herr : errorStep 0 dy (-dy) = -dy := by
      unfold errorStep
      split_ifs <;> omega
    have hend : y + ((n + 1 : Nat) : Int) = y + 1 + n := by omega
    rw [lineLoop_step n (-dy) (by omega), herr, if_neg (by omega), if_pos (by omega), hend, List.mem_cons,
      mem_lineLoop_vertical x n (y + 1) (by omega), Prod.mk.injEq]
    omega

/-- A horizontal line is its row from end to end. -/
theorem mem_linePts_horizontal {a b c px py : Int} (h : a ≤ b) :
    (px, py) ∈ linePts a c b c ↔ (a ≤ px ∧ px ≤ b) ∧ py = c := by
  obtain ⟨n, rfl⟩ : ∃ n : Nat, b = a + n := ⟨(b - a).toNat, by omega⟩
  have hloop := mem_lineLoop_horizontal (px := px) (py := py) 1 c n a le_rfl
  rw [linePts_of_canonical (by omega), linePtsFrom]
  simpa using hloop

/-- A vertical line is its column from end to end. -/
theorem mem_linePts_vertical {a b c px py : Int} (h : a ≤ b) :
    (px, py) ∈ linePts c a c b ↔ px = c ∧ (a ≤ py ∧ py ≤ b) := by
  obtain ⟨n, rfl⟩ : ∃ n : Nat, b = a + n := ⟨(b - a).toNat, by omega⟩
  have hloop := mem_lineLoop_vertical (px := px) (py := py) c n a le_rfl
  rw [linePts_of_canonical (by omega), linePtsFrom]
  simpa using hloop

/-! ## `LINE` (R121) -/

/-- Settles O20: the packet by `decode_line`, the pixels by what drawing does to one pixel. -/
theorem lineDrawsItsPath : Obligations.LineDrawsItsPath := by
  intro x0 y0 x1 y1 v s
  exact ⟨decode_line v, fun hwf => ⟨_, exec_line x0 y0 x1 y1 v s, Memory.draw_wf hwf _ v,
    fun px py hpx hpy => Memory.getPixel_draw hwf _ v hpx hpy⟩⟩

end Sys2Proof.Machine
end

section
/-! Rectangles (`41_rasterizer.md` R123 to R125): the filled one is its clipped box, the outline its four sides. -/

namespace Sys2Proof.Machine

/-- The outline holds the pixels of the box that lie in a corner's row or column (R124). -/
theorem mem_outlineRectPts {x0 y0 x1 y1 px py : Int} :
    (px, py) ∈ outlineRectPts x0 y0 x1 y1 ↔
      (min x0 x1 ≤ px ∧ px ≤ max x0 x1) ∧ (min y0 y1 ≤ py ∧ py ≤ max y0 y1) ∧
        (px = x0 ∨ px = x1 ∨ py = y0 ∨ py = y1) := by
  simp only [outlineRectPts, List.mem_append, mem_linePts_horizontal min_le_max, mem_linePts_vertical min_le_max]
  omega

/-- The pixels of the grid that a `RECT` draws (R125). -/
theorem mem_rectPts_grid {x0 y0 x1 y1 : Int} (f : Fill) {px py : Nat} (hpx : px < fbWidth) (hpy : py < fbHeight) :
    ((px : Int), (py : Int)) ∈ rectPts x0 y0 x1 y1 f ↔
      (min x0 x1 ≤ px ∧ px ≤ max x0 x1) ∧ (min y0 y1 ≤ py ∧ py ≤ max y0 y1) ∧
        (f = .outline → (px : Int) = x0 ∨ (px : Int) = x1 ∨ (py : Int) = y0 ∨ (py : Int) = y1) := by
  cases f with
  | outline => simp only [rectPts, mem_outlineRectPts, forall_const]
  | filled =>
    rw [rectPts, fillRectPts, mem_boxPts_grid hpx hpy]
    simp

/-- Settles O21: the packet by `decode_rect`, the pixels by `mem_rectPts_grid`. -/
theorem rectDrawsItsBox : Obligations.RectDrawsItsBox := by
  intro x0 y0 x1 y1 f v s
  refine ⟨decode_rect f v, fun hwf => ⟨_, exec_rect x0 y0 x1 y1 f v s, Memory.draw_wf hwf _ v,
    fun px py hpx hpy => ?_⟩⟩
  rw [Memory.getPixel_draw hwf _ v hpx hpy]
  exact if_congr (mem_rectPts_grid f hpx hpy) rfl rfl

end Sys2Proof.Machine
end

section
/-! Circles (`41_rasterizer.md` R126 to R130). The decision variable of the octant's loop is `midpointDecision` of the
point it is at; the mirrors and spans of an octant point are told by the two distances from the centre. -/

namespace Sys2Proof.Machine

/-! ## The octant (R127) -/

/-- The decision variable at an octant point: its sign says on which side of the circle of radius `r` the midpoint of
the two candidates for the next point lies. -/
def midpointDecision (r x y : Int) : Int := (x + 1) ^ 2 + y ^ 2 - y - r ^ 2

/-- The row of the next point: kept on a negative decision, one inward on another. -/
def nextOctantRow (r x y : Int) : Int := if midpointDecision r x y < 0 then y else y - 1

theorem nextOctantRow_le (r x y : Int) : nextOctantRow r x y ≤ y := by
  unfold nextOctantRow
  split_ifs <;> omega

theorem midpointDecision_start (r : Int) : midpointDecision r 0 r = 1 - r := by
  simp only [midpointDecision]
  ring

theorem midpointDecision_keep (r x y : Int) :
    midpointDecision r (x + 1) y = midpointDecision r x y + 2 * x + 3 := by
  simp only [midpointDecision]
  ring

theorem midpointDecision_inward (r x y : Int) :
    midpointDecision r (x + 1) (y - 1) = midpointDecision r x y + 2 * (x - y) + 5 := by
  simp only [midpointDecision]
  ring

/-- One turn of the loop, with the decision variable at its meaning. -/
theorem octantLoop_succ (n : Nat) {r x y : Int} (h : x ≤ y) :
    octantLoop (n + 1) x y (midpointDecision r x y) =
      (x, y) :: octantLoop n (x + 1) (nextOctantRow r x y) (midpointDecision r (x + 1) (nextOctantRow r x y)) := by
  rw [octantLoop, if_pos h, nextOctantRow]
  split_ifs
  · rw [midpointDecision_keep]
  · rw [midpointDecision_inward]

/-- The loop starts at the point it is given, unless that lies beyond the diagonal. -/
theorem octantLoop_getElem?_zero {n : Nat} {x y : Int} (d : Int) (hfuel : y - x < n) :
    (octantLoop n x y d)[0]? = if x ≤ y then some (x, y) else none := by
  cases n with
  | zero => rw [if_neg (by omega)]; rfl
  | succ n =>
    rw [octantLoop]
    split_ifs <;> rfl

/-- From one point of the octant to the next (R127). -/
theorem octantLoop_getElem?_succ {r : Int} (n : Nat) : ∀ {x y : Int}, y - x < n → ∀ {k : Nat} {a b : Int},
    (octantLoop n x y (midpointDecision r x y))[k]? = some (a, b) →
      (octantLoop n x y (midpointDecision r x y))[k + 1]? =
        if a + 1 ≤ nextOctantRow r a b then some (a + 1, nextOctantRow r a b) else none := by
  induction n with
  | zero => intro x y _ k a b h; simp [octantLoop] at h
  | succ n ih =>
    intro x y hfuel k a b h
    by_cases hxy : x ≤ y
    · have hnext : nextOctantRow r x y - (x + 1) < (n : Int) := by
        have := nextOctantRow_le r x y
        omega
      rw [octantLoop_succ n hxy] at h ⊢
      rw [List.getElem?_cons_succ]
      cases k with
      | zero =>
        obtain ⟨rfl, rfl⟩ : x = a ∧ y = b := by simpa using h
        exact octantLoop_getElem?_zero _ hnext
      | succ k => exact ih hnext h
    · simp [octantLoop, hxy] at h

/-- The points lie in the octant (R127). -/
theorem octantLoop_bounds {r : Int} (n : Nat) : ∀ {x y d : Int}, 0 ≤ x → y ≤ r →
    ∀ p ∈ octantLoop n x y d, 0 ≤ p.1 ∧ p.1 ≤ p.2 ∧ p.2 ≤ r := by
  induction n with
  | zero => intro x y d _ _ p hp; simp [octantLoop] at hp
  | succ n ih =>
    intro x y d hx hy p hp
    rw [octantLoop] at hp
    split_ifs at hp with hxy hd
    · obtain rfl | hp := List.mem_cons.mp hp
      · exact ⟨hx, hxy, hy⟩
      · exact ih (by omega) hy p hp
    · obtain rfl | hp := List.mem_cons.mp hp
      · exact ⟨hx, hxy, hy⟩
      · exact ih (by omega) (by omega) p hp
    · simp at hp

theorem octant_eq (r : Int) : octant r = octantLoop (r.toNat + 1) 0 r (midpointDecision r 0 r) := by
  rw [octant, midpointDecision_start]

theorem octant_bounds (r : Int) : ∀ p ∈ octant r, 0 ≤ p.1 ∧ p.1 ≤ p.2 ∧ p.2 ≤ r :=
  octantLoop_bounds _ le_rfl le_rfl

/-- Settles O23: the decision variable is `midpointDecision`, and the fuel outlasts the way to the diagonal. -/
theorem octantFollowsTheMidpointRule : Obligations.OctantFollowsTheMidpointRule := by
  intro r hr
  refine ⟨?start, octant_bounds r, fun k x y h => ?next⟩
  case start =>
    rw [octant, octantLoop_getElem?_zero _ (by omega), if_pos hr]
  case next =>
    rw [octant_eq] at h ⊢
    rw [octantLoop_getElem?_succ _ (by omega) h, ← midpointDecision, nextOctantRow]
    split_ifs <;> rfl

/-! ## `CIRCLE` (R128 to R130) -/

/-- The eight mirrors of an octant point, by the distances from the centre (R128). -/
theorem mem_mirrorPts {cx cy x y a b : Int} (ha : 0 ≤ a) (hb : 0 ≤ b) :
    (x, y) ∈ mirrorPts cx cy (a, b) ↔
      (((x - cx).natAbs : Int) = a ∧ ((y - cy).natAbs : Int) = b) ∨
        (((x - cx).natAbs : Int) = b ∧ ((y - cy).natAbs : Int) = a) := by
  simp only [mirrorPts, List.mem_cons, List.not_mem_nil, or_false, Prod.mk.injEq]
  omega

/-- The spans of an octant point on the grid, by the distances from the centre (R129). -/
theorem mem_spansPts_grid {cx cy a b : Int} (ha : 0 ≤ a) (hb : 0 ≤ b) {px py : Nat} (hpx : px < fbWidth)
    (hpy : py < fbHeight) :
    ((px : Int), (py : Int)) ∈ spansPts cx cy (a, b) ↔
      ((((px : Int) - cx).natAbs : Int) ≤ a ∧ (((py : Int) - cy).natAbs : Int) = b) ∨
        ((((px : Int) - cx).natAbs : Int) ≤ b ∧ (((py : Int) - cy).natAbs : Int) = a) := by
  simp only [spansPts, spanPts, List.mem_append, mem_boxPts_grid hpx hpy]
  omega

/-- The pixels of the grid that a `CIRCLE` draws (R130). -/
theorem mem_circlePts_grid (cx cy r : Int) (f : Fill) {px py : Nat} (hpx : px < fbWidth) (hpy : py < fbHeight) :
    ((px : Int), (py : Int)) ∈ circlePts cx cy r f ↔
      OnCircle f ((px : Int) - cx).natAbs ((py : Int) - cy).natAbs (octant (max r 0)) := by
  cases f with
  | outline =>
    simp only [circlePts, outlineCirclePts, List.mem_flatMap, Prod.exists, OnCircle, clampRadius]
    refine exists_congr fun a => exists_congr fun b => and_congr_right fun hmem => ?_
    obtain ⟨ha, hab, -⟩ := octant_bounds _ _ hmem
    simp [mem_mirrorPts ha (ha.trans hab)]
  | filled =>
    simp only [circlePts, fillCirclePts, outlineCirclePts, List.mem_append, List.mem_flatMap, ← exists_or,
      ← and_or_left, Prod.exists, OnCircle, clampRadius]
    refine exists_congr fun a => exists_congr fun b => and_congr_right fun hmem => ?_
    obtain ⟨ha, hab, -⟩ := octant_bounds _ _ hmem
    simp [mem_mirrorPts ha (ha.trans hab), mem_spansPts_grid ha (ha.trans hab) hpx hpy, or_assoc]

/-- Settles O24: the packet by `decode_circle`, the pixels by `mem_circlePts_grid`. -/
theorem circleDrawsItsOctants : Obligations.CircleDrawsItsOctants := by
  intro cx cy r f v s
  exact ⟨decode_circle f v, fun hwf => ⟨_, exec_circle cx cy r f v s, Memory.draw_wf hwf _ v,
    fun px py hpx hpy => Memory.getPixel_draw_of_mem_iff hwf v hpx hpy (mem_circlePts_grid cx cy r f hpx hpy)⟩⟩

end Sys2Proof.Machine
end

section
/-! Triangles (`41_rasterizer.md` R131 to R135). A pixel inside the three edges is an average of the vertices, weighted
by the edge functions, so the bounding box of the scan holds it. -/

namespace Sys2Proof.Machine

/-! ## The outline (R134) -/

/-- Settles O28: the packet by `decode_tri`, the pixels of the three edges by what drawing does to one pixel. -/
theorem outlineTriangleDrawsItsEdges : Obligations.OutlineTriangleDrawsItsEdges := by
  intro x0 y0 x1 y1 x2 y2 v s
  refine ⟨fun hx0 hy0 hx1 hy1 hx2 hy2 f => decode_tri f v hx0 hy0 hx1 hy1 hx2 hy2, fun hwf =>
    ⟨_, exec_tri x0 y0 x1 y1 x2 y2 .outline v s, Memory.draw_wf hwf _ v, fun px py hpx hpy => ?_⟩⟩
  rw [Memory.getPixel_draw hwf _ v hpx hpy]
  exact if_congr (by simp only [triPts, outlineTriPts, edgePts, List.mem_append, or_assoc]) rfl rfl

/-! ## The filled triangle (R131, R132) -/

/-- The three edge functions at a pixel add up to twice the area. -/
theorem edgeFn_sum (p0 p1 p2 p : Point) : edgeFn p1 p2 p + edgeFn p2 p0 p + edgeFn p0 p1 p = area2 p0 p1 p2 := by
  simp only [edgeFn, area2]
  ring

/-- The column of a pixel is the average of the vertices' columns, weighted by the edge functions of the edges that face
them. -/
theorem edgeFn_weights_fst (p0 p1 p2 p : Point) :
    edgeFn p1 p2 p * p0.1 + edgeFn p2 p0 p * p1.1 + edgeFn p0 p1 p * p2.1 = area2 p0 p1 p2 * p.1 := by
  simp only [edgeFn, area2]
  ring

/-- The same of its row. -/
theorem edgeFn_weights_snd (p0 p1 p2 p : Point) :
    edgeFn p1 p2 p * p0.2 + edgeFn p2 p0 p * p1.2 + edgeFn p0 p1 p * p2.2 = area2 p0 p1 p2 * p.2 := by
  simp only [edgeFn, area2]
  ring

/-- A weighted average lies between the least and the greatest of what it averages. -/
theorem average_between {w0 w1 w2 w x0 x1 x2 x : Int} (h0 : 0 ≤ w0) (h1 : 0 ≤ w1) (h2 : 0 ≤ w2)
    (hw : w0 + w1 + w2 = w) (hpos : 0 < w) (hx : w0 * x0 + w1 * x1 + w2 * x2 = w * x) :
    min x0 (min x1 x2) ≤ x ∧ x ≤ max x0 (max x1 x2) := by
  generalize hlo : min x0 (min x1 x2) = lo
  generalize hhi : max x0 (max x1 x2) = hi
  constructor
  · refine le_of_mul_le_mul_left ?_ hpos
    calc w * lo = w0 * lo + w1 * lo + w2 * lo := by rw [← hw]; ring
      _ ≤ w0 * x0 + w1 * x1 + w2 * x2 := by gcongr <;> omega
      _ = w * x := hx
  · refine le_of_mul_le_mul_left ?_ hpos
    calc w * x = w0 * x0 + w1 * x1 + w2 * x2 := hx.symm
      _ ≤ w0 * hi + w1 * hi + w2 * hi := by gcongr <;> omega
      _ = w * hi := by rw [← hw]; ring

/-- `Inside` (R131) as a proposition. -/
theorem insideEdge_iff {a b p : Point} :
    insideEdge a b p = true ↔ 0 < edgeFn a b p ∨ (edgeFn a b p = 0 ∧ (b.2 < a.2 ∨ (b.2 = a.2 ∧ a.1 < b.1))) := by
  simp only [insideEdge, topLeft, Bool.or_eq_true, Bool.and_eq_true, decide_eq_true_eq]

theorem edgeFn_nonneg_of_insideEdge {a b p : Point} (h : insideEdge a b p = true) : 0 ≤ edgeFn a b p := by
  have := insideEdge_iff.mp h
  omega

/-- The bounding box plays no part: on the grid, the scan finds the pixels of the triangle (R132). -/
theorem mem_fillTriWound_grid {p0 p1 p2 : Point} (harea : 0 < area2 p0 p1 p2) {px py : Nat} (hpx : px < fbWidth)
    (hpy : py < fbHeight) :
    ((px : Int), (py : Int)) ∈ fillTriWound p0 p1 p2 ↔
      insideEdge p0 p1 (px, py) = true ∧ insideEdge p1 p2 (px, py) = true ∧ insideEdge p2 p0 (px, py) = true := by
  simp only [fillTriWound, List.mem_filter, mem_boxPts_grid hpx hpy, insideTri, Bool.and_eq_true, and_assoc]
  refine ⟨fun ⟨_, _, _, _, hinside⟩ => hinside, fun hinside => ?_⟩
  obtain ⟨h01, h12, h20⟩ := hinside
  have hsum := edgeFn_sum p0 p1 p2 (px, py)
  have n01 := edgeFn_nonneg_of_insideEdge h01
  have n12 := edgeFn_nonneg_of_insideEdge h12
  have n20 := edgeFn_nonneg_of_insideEdge h20
  obtain ⟨hleft, hright⟩ := average_between n12 n20 n01 hsum harea (edgeFn_weights_fst p0 p1 p2 (px, py))
  obtain ⟨htop, hbottom⟩ := average_between n12 n20 n01 hsum harea (edgeFn_weights_snd p0 p1 p2 (px, py))
  exact ⟨hleft, hright, htop, hbottom, h01, h12, h20⟩

/-- Exchanging two vertices turns the winding round. -/
theorem area2_exchange (p0 p1 p2 : Point) : area2 p0 p2 p1 = -area2 p0 p1 p2 := by
  simp only [area2]
  ring

/-- A filled triangle of positive area is scanned as it is. -/
theorem triPts_filled_of_pos {p0 p1 p2 : Point} (h : 0 < area2 p0 p1 p2) :
    triPts p0 p1 p2 .filled = fillTriWound p0 p1 p2 := by
  rw [triPts, if_neg h.ne', fillTriPts, if_neg (not_lt.mpr h.le)]

/-- A filled triangle of negative area is scanned with `p1` and `p2` exchanged (R131). -/
theorem triPts_filled_of_neg {p0 p1 p2 : Point} (h : area2 p0 p1 p2 < 0) :
    triPts p0 p1 p2 .filled = triPts p0 p2 p1 .filled := by
  have hpos : 0 < area2 p0 p2 p1 := by rw [area2_exchange]; omega
  rw [triPts_filled_of_pos hpos, triPts, if_neg h.ne, fillTriPts, if_pos h]

/-- Settles O29: a positive area by `mem_fillTriWound_grid`, a negative one by the winding fix. -/
theorem filledTriangleDrawsItsInside : Obligations.FilledTriangleDrawsItsInside := by
  intro x0 y0 x1 y1 x2 y2 v s hwf
  refine ⟨fun (harea : 0 < area2 (x0, y0) (x1, y1) (x2, y2)) => ⟨_, exec_tri x0 y0 x1 y1 x2 y2 .filled v s,
    Memory.draw_wf hwf _ v, fun px py hpx hpy => ?inside⟩,
    fun (harea : area2 (x0, y0) (x1, y1) (x2, y2) < 0) => ?exchanged⟩
  case inside =>
    refine Memory.getPixel_draw_of_mem_iff hwf v hpx hpy ?_
    rw [triPts_filled_of_pos harea, mem_fillTriWound_grid harea hpx hpy]
    exact and_congr insideEdge_iff (and_congr insideEdge_iff insideEdge_iff)
  case exchanged =>
    rw [exec_tri, exec_tri, triPts_filled_of_neg harea]

/-! ## Collinear vertices (R133) -/

theorem sqLength_comm (a b : Point) : sqLength a b = sqLength b a := by
  simp only [sqLength]
  ring

theorem sqLength_self (a : Point) : sqLength a a = 0 := by
  simp only [sqLength]
  ring

theorem sqLength_nonneg (a b : Point) : 0 ≤ sqLength a b := add_nonneg (sq_nonneg _) (sq_nonneg _)

/-- A length that no edge exceeds is exceeded between no two vertices. -/
theorem sqLength_le_of_edges {p0 p1 p2 : Point} {len : Int} (h01 : sqLength p0 p1 ≤ len) (h12 : sqLength p1 p2 ≤ len)
    (h02 : sqLength p0 p2 ≤ len) : ∀ c ∈ [p0, p1, p2], ∀ d ∈ [p0, p1, p2], sqLength c d ≤ len := by
  have hlen : 0 ≤ len := (sqLength_nonneg p0 p1).trans h01
  simp only [List.mem_cons, List.not_mem_nil, or_false, forall_eq_or_imp, forall_eq, sqLength_self, sqLength_comm p1 p0,
    sqLength_comm p2 p0, sqLength_comm p2 p1]
  exact ⟨⟨hlen, h01, h02⟩, ⟨h01, hlen, h12⟩, h02, h12, hlen⟩

/-- The edge that a triangle without area draws joins two vertices that are farthest apart. -/
theorem degenerateTriPts_farthest (p0 p1 p2 : Point) :
    ∃ a ∈ [p0, p1, p2], ∃ b ∈ [p0, p1, p2],
      (∀ c ∈ [p0, p1, p2], ∀ d ∈ [p0, p1, p2], sqLength c d ≤ sqLength a b) ∧
        degenerateTriPts p0 p1 p2 = edgePts a b := by
  rw [degenerateTriPts]
  split_ifs with h01 h12
  · exact ⟨p0, by simp, p1, by simp, sqLength_le_of_edges le_rfl h01.1 h01.2, rfl⟩
  · exact ⟨p1, by simp, p2, by simp, sqLength_le_of_edges (by omega) le_rfl h12, rfl⟩
  · exact ⟨p0, by simp, p2, by simp, sqLength_le_of_edges (by omega) (by omega) le_rfl, rfl⟩

/-- Settles O30: the list drawn is the line of `degenerateTriPts_farthest`. -/
theorem collinearTriangleDrawsItsLongestEdge : Obligations.CollinearTriangleDrawsItsLongestEdge := by
  intro p0 p1 p2 v s hwf harea
  obtain ⟨a, ha, b, hb, hfar, hedge⟩ := degenerateTriPts_farthest p0 p1 p2
  have hpts : triPts p0 p1 p2 .filled = linePts a.1 a.2 b.1 b.2 := (if_pos harea).trans hedge
  have hexec : exec (.tri p0.1 p0.2 p1.1 p1.2 p2.1 p2.2 .filled v) s = .next (s.drawn (linePts a.1 a.2 b.1 b.2) v) := by
    rw [exec_tri, hpts]
  exact ⟨a, b, _, ha, hb, hfar, hexec, Memory.draw_wf hwf _ v, fun px py hpx hpy =>
    Memory.getPixel_draw hwf _ v hpx hpy⟩

end Sys2Proof.Machine
end

section
/-! `TEXT` (`42_text.md` R151 to R153), one character at a time: the rendering of the first character, and then the
`TEXT` of the rest at the advanced cursor, which hangs only where the whole one does. -/

namespace Sys2Proof.Machine

/-! ## One character -/

/-- The state after one query and its glyph, with the cursor at `cur` (`42_text.md` R151). -/
def State.characterRendered (s : State) (cur y : Int) (threshold : Byte) (q : GlyphQuery) : State :=
  { s.glyphAnswered q with fb := glyphComposite s.fb cur y threshold (s.glyphAnswer q) }

theorem State.characterRendered_of_glyph {s : State} {q : GlyphQuery} {g : Glyph} (hg : s.glyphAnswer q = .glyph g)
    (cur y : Int) (threshold : Byte) :
    s.characterRendered cur y threshold q =
      { s.glyphAnswered q with fb := s.fb.plotDots .set (glyphDots cur y threshold g) } := by
  rw [State.characterRendered, hg, glyphComposite]

/-- Without a glyph only the query is made (R153). -/
theorem State.characterRendered_of_unsupported {s : State} {q : GlyphQuery} (hq : s.glyphAnswer q = .unsupported)
    (cur y : Int) (threshold : Byte) : s.characterRendered cur y threshold q = s.glyphAnswered q := by
  rw [State.characterRendered, hq, glyphComposite, ← State.glyphAnswered_fb s q]

theorem renderText_cons (y : Int) (font size threshold : Byte) (ch : Word) (rest : List Word) (cur : Int) (s : State) :
    renderText y font size threshold (ch :: rest) cur s =
      renderText y font size threshold rest (cur + glyphAdvance s.cfg (s.glyphAnswer ⟨font, size, ch⟩))
        (s.characterRendered cur y threshold ⟨font, size, ch⟩) := by
  rw [renderText, State.glyphAnswered_fb, State.characterRendered]

/-- A GlyphSource that answers `n + 1` queries answers `n` after the first. -/
theorem State.characterRendered_glyphStalls {s : State} {n : Nat} (h : s.glyphStalls (n + 1) = false) (cur y : Int)
    (threshold : Byte) (q : GlyphQuery) : (s.characterRendered cur y threshold q).glyphStalls n = false := by
  simp only [State.glyphStalls, State.characterRendered, State.glyphAnswered_glyphSilent,
    State.glyphAnswered_glyphAnswers, List.length_tail, Bool.and_eq_false_iff, decide_eq_false_iff_not] at h ⊢
  exact h.imp_right (by omega)

/-! ## The command -/

theorem exec_text {chars : List Word} {s : State} (h : s.glyphStalls chars.length = false) (x y : Int)
    (font size threshold : Byte) :
    exec (.text x y font size threshold chars) s =
      .next ((renderText y font size threshold chars x s).respond .ok false) := by
  simp only [exec, execText, h, Bool.false_eq_true, if_false]

/-- The empty text makes no query, so no GlyphSource makes it hang. -/
theorem exec_text_nil (x y : Int) (font size threshold : Byte) (s : State) :
    exec (.text x y font size threshold []) s =
      .next { s with responses := s.responses ++ [BitVec.ofNat 32 (s.mode.code * 16)] } := by
  have h : s.glyphStalls ([] : List Word).length = false := by simp [State.glyphStalls]
  rw [exec_text h, renderText, State.respond, responseWord_ok_false]

/-- The recursion of `42_text.md` R151, whatever the GlyphSource answers. -/
theorem exec_text_cons {rest : List Word} {s : State} (h : s.glyphStalls (rest.length + 1) = false) (x y : Int)
    (font size threshold : Byte) (ch : Word) :
    exec (.text x y font size threshold (ch :: rest)) s =
      exec (.text (x + glyphAdvance s.cfg (s.glyphAnswer ⟨font, size, ch⟩)) y font size threshold rest)
        (s.characterRendered x y threshold ⟨font, size, ch⟩) := by
  rw [exec_text (chars := ch :: rest) h, renderText_cons, exec_text (State.characterRendered_glyphStalls h _ _ _ _)]

section
variable {rest : List Word} {s : State} {font size : Byte} {ch : Word}

theorem exec_text_cons_glyph {g : Glyph} (h : s.glyphStalls (rest.length + 1) = false)
    (hg : s.glyphAnswer ⟨font, size, ch⟩ = .glyph g) (x y : Int) (threshold : Byte) :
    exec (.text x y font size threshold (ch :: rest)) s =
      exec (.text (x + g.adv.toNat) y font size threshold rest)
        { s.glyphAnswered ⟨font, size, ch⟩ with fb := s.fb.plotDots .set (glyphDots x y threshold g) } := by
  rw [exec_text_cons h, State.characterRendered_of_glyph hg, hg, glyphAdvance]

theorem exec_text_cons_unsupported (h : s.glyphStalls (rest.length + 1) = false)
    (hq : s.glyphAnswer ⟨font, size, ch⟩ = .unsupported) (x y : Int) (threshold : Byte) :
    exec (.text x y font size threshold (ch :: rest)) s =
      exec (.text (x + s.cfg.defaultAdvance) y font size threshold rest) (s.glyphAnswered ⟨font, size, ch⟩) := by
  rw [exec_text_cons h, State.characterRendered_of_unsupported hq, hq, glyphAdvance]

end

/-- Settles O34: the empty text by `exec_text_nil`, any other by the recursion at the answer given. -/
theorem textRendersCharacterByCharacter : Obligations.TextRendersCharacterByCharacter :=
  fun x y font size threshold _ _ s => ⟨exec_text_nil x y font size threshold s, fun hanswers =>
    ⟨fun _ hg => exec_text_cons_glyph hanswers hg x y threshold,
      fun hq => exec_text_cons_unsupported hanswers hq x y threshold⟩⟩

/-! ## Thresholding (R152) -/

theorem glyphBit_of_getElem? {g : Glyph} {k j : Nat} {c : Byte} (hc : g.cov[j * g.w.toNat + k]? = some c)
    (threshold : Byte) : glyphBit threshold g k j = decide (threshold.toNat ≤ c.toNat) := by
  rw [glyphBit, List.getD_eq_getElem?_getD, hc, Option.getD_some]

/-- Settles O35: the one character composites its bitmap, whose pixel at a place is the coverage byte compared. -/
theorem glyphIsThresholdedIntoItsBox : Obligations.GlyphIsThresholdedIntoItsBox := by
  intro x y font size threshold ch g s hwf hanswers hg
  refine ⟨_, (exec_text_cons_glyph (rest := []) hanswers hg x y threshold).trans (exec_text_nil ..),
    fun px py hpx hpy => ?_⟩
  simp only [glyphDots, Memory.getPixel_bitmap hwf .set x y _ _ _ hpx hpy]
  refine ⟨fun k j c hk hj hcol hrow hc => ?inside, fun hout => if_neg hout⟩
  case inside =>
    have hk' : ((px : Int) - x).toNat = k := by omega
    have hj' : ((py : Int) - y).toNat = j := by omega
    rw [if_pos (by omega), hk', hj', blendPixel, glyphBit_of_getElem? hc]

/-! ## Unsupported glyphs (R153) -/

/-- Settles O36: the recursion at an unsupported character, and the empty text after the only one. -/
theorem unsupportedGlyphIsSkipped : Obligations.UnsupportedGlyphIsSkipped := by
  intro x y font size threshold ch rest s hanswers hq
  refine ⟨exec_text_cons_unsupported hanswers hq x y threshold, ?_⟩
  rintro rfl
  exact ⟨_, (exec_text_cons_unsupported hanswers hq x y threshold).trans (exec_text_nil ..),
    State.glyphAnswered_fb s _, by rw [State.glyphAnswered_responses, State.glyphAnswered_mode]⟩

end Sys2Proof.Machine
end

section
/-! The protocol commands that take no operand (`43_protocol.md` R165 to R168). What the run of a script can end in is
said once, for any script that hands over some number of bytes and causes some events (`Sends`): all bytes accepted
(`Sends.completes`), or one refused (`Sends.aborts`). -/

namespace Sys2Proof.Machine

/-! ## The shadow registers and the select latch -/

/-- The registers a script may set beside `mode`: both shadows (`10_state.md` R26) and the select latch (R28). -/
structure Latches where
  gaValid : Bool
  gaV : BitVec 5
  gaH : BitVec 4
  ddValid : Bool
  ddAddr : BitVec 7
  sel : Bool

def State.latches (s : State) : Latches := ⟨s.gaValid, s.gaV, s.gaH, s.ddValid, s.ddAddr, s.sel⟩

@[simp] theorem scriptDone_sendCmd_latches (b : Byte) (s : State) : (scriptDone (sendCmd b) s).latches = s.latches :=
  scriptDone_sendFrame State.latches (by simp [State.latches, opDone]) false b s

@[simp] theorem scriptDone_sendData_latches (b : Byte) (s : State) : (scriptDone (sendData b) s).latches = s.latches :=
  scriptDone_sendFrame State.latches (by simp [State.latches, opDone]) true b s

@[simp] theorem scriptDone_setMode_latches (m : Mode) (s : State) :
    (scriptDone [.setMode m] s).latches = s.latches := rfl

@[simp] theorem scriptDone_setGa_latches (v : BitVec 5) (h : BitVec 4) (s : State) :
    (scriptDone [.setGa v h] s).latches = { s.latches with gaValid := true, gaV := v, gaH := h } := rfl

/-- What the script of a bracket does to the latches is what its frames do; then select is released. -/
theorem scriptDone_bracket_latches (frames : List PeOp) (s : State) :
    (scriptDone (bracket frames) s).latches = { (scriptDone frames s.txSelect).latches with sel := false } := by
  rw [bracket, List.cons_append, scriptDone_cons, scriptDone_append]
  rfl

/-! ## The run of a script -/

/-- The script hands over `n` bytes, holds select at each, and causes the events `ev` when none is refused. -/
structure Sends (ops : List PeOp) (n : Nat) (ev : List TxEvent) : Prop where
  count : writeCount ops = n
  events : scriptEvents ops = ev
  held : ∀ x, selHeld x ops = true

section
variable {ops ops' : List PeOp} {n n' : Nat} {ev ev' : List TxEvent} {s : State}

theorem Sends.append (h : Sends ops n ev) (h' : Sends ops' n' ev') : Sends (ops ++ ops') (n + n') (ev ++ ev') where
  count := by rw [writeCount_append, h.count, h'.count]
  events := by rw [scriptEvents_append, h.events, h'.events]
  held x := selHeld_append _ _ x (h.held x) (h'.held false)

/-- All bytes accepted: beside the registers the script sets, only the Transport's side and the response change. -/
theorem Sends.completes (h : Sends ops n ev) (haccepts : TxAccepts n s) {m : Mode} {l : Latches}
    (hmode : (scriptDone ops s).mode = m) (hlatches : (scriptDone ops s).latches = l) :
    ∃ answers drawn, protocolRun ops s = .next { s with
      mode := m
      gaValid := l.gaValid
      gaV := l.gaV
      gaH := l.gaH
      ddValid := l.ddValid
      ddAddr := l.ddAddr
      sel := l.sel
      trace := s.trace ++ ev
      responses := s.responses ++ [responseWord .ok m false]
      txAnswers := answers
      txDrawn := drawn } := by
  obtain ⟨rfl, rfl, -⟩ := h
  subst hmode hlatches
  refine ⟨(scriptDone ops s).txAnswers, (scriptDone ops s).txDrawn, ?_⟩
  rw [protocolRun_accepts ops s haccepts]
  congr 1
  ext1 <;> simp [State.latches]

/-- A byte refused: the abort, with the events cut at that byte (`60_exceptions.md` R196). -/
theorem Sends.aborts (h : Sends ops n ev) (k : Nat) (hk : k < n) (hrefuses : TxRefuses k s) :
    ∃ t, protocolRun ops s = .next t ∧ Aborted k ev s t := by
  obtain ⟨rfl, rfl, hheld⟩ := h
  obtain ⟨pre, b, post, rfl, rfl, hsel, hrun⟩ := protocolRun_refuses ops s k hk hrefuses (hheld s.sel)
  exact ⟨_, hrun, transportAbort_aborted pre post b s hsel⟩

end

/-! ## `RESET` (R165) -/

theorem decode_reset : decode ⟨0x40000000, []⟩ = .instr .reset := by decide

theorem sends_resetScript (c : Config) :
    Sends (resetScript c) 12 ([.rstPulse, .sel] ++ frameEvents false 0x30 ++ frameEvents false c.cmdClear ++
      frameEvents false c.cmdEntry ++ frameEvents false c.cmdDisplayOn ++ [.desel]) :=
  ⟨rfl, rfl, fun x => by cases x <;> rfl⟩

/-- Clearing the valid bits leaves the address fields (log 10). -/
theorem scriptDone_resetScript_latches (c : Config) (s : State) :
    (scriptDone (resetScript c) s).latches = { s.latches with gaValid := false, ddValid := false, sel := false } := by
  simp only [resetScript, scriptDone_append, scriptDone_setMode_latches, scriptDone_bracket_latches,
    scriptDone_sendCmd_latches]
  rfl

/-- Settles O39: the two ends of the run of `resetScript`. -/
theorem resetReinitializes : Obligations.ResetReinitializes := by
  refine ⟨decode_reset, ?_⟩
  rintro s _ rfl
  have hsends := sends_resetScript s.cfg
  exact ⟨fun haccepts =>
    hsends.completes haccepts (scriptDone_resetScript_mode s.cfg s) (scriptDone_resetScript_latches s.cfg s),
    hsends.aborts⟩

/-! ## `Gate` (R164) -/

section
variable {s : State}

theorem gated_of_shut (h : s.mode = .uninitialized ∨ s.mode = .error) (k : Host.Outcome State Fault Refusal) :
    gated s k = .next { s with responses := s.responses ++ [BitVec.ofNat 32 (s.mode.code * 16 + 2)] } := by
  rcases h with h | h <;> simp [gated, State.respond, responseWord, Status.code, h]

theorem gated_of_open (h : s.mode = .text ∨ s.mode = .graphics) (k : Host.Outcome State Fault Refusal) :
    gated s k = k := by
  rcases h with h | h <;> rw [gated, h]

end

/-! ## `GFXON` and `GFXOFF` (R166, R167) -/

theorem decode_gfxon : decode ⟨0x41000000, []⟩ = .instr .gfxon := by decide

theorem decode_gfxoff : decode ⟨0x42000000, []⟩ = .instr .gfxoff := by decide

/-- One command frame in a bracket, and then the mode: the script of `GFXON` and that of `GFXOFF`. -/
def modeScript (b : Byte) (m : Mode) : List PeOp := bracket (sendCmd b) ++ [.setMode m]

theorem sends_modeScript (b : Byte) (m : Mode) :
    Sends (modeScript b m) 3 ([.sel] ++ frameEvents false b ++ [.desel]) :=
  ⟨rfl, rfl, fun x => by cases x <;> rfl⟩

theorem scriptDone_modeScript_mode (b : Byte) (m : Mode) (s : State) : (scriptDone (modeScript b m) s).mode = m := by
  rw [modeScript, scriptDone_append]
  rfl

/-- The shadows stay. -/
theorem scriptDone_modeScript_latches (b : Byte) (m : Mode) (s : State) :
    (scriptDone (modeScript b m) s).latches = { s.latches with sel := false } := by
  rw [modeScript, scriptDone_append, scriptDone_setMode_latches, scriptDone_bracket_latches, scriptDone_sendCmd_latches]
  rfl

/-- The two ends of the run, in a mode that the gate lets through. -/
theorem protocolRun_modeScript (b : Byte) (m : Mode) (s : State) :
    (TxAccepts 3 s → ∃ answers drawn, protocolRun (modeScript b m) s = .next { s with
      mode := m
      sel := false
      trace := s.trace ++ ([.sel] ++ frameEvents false b ++ [.desel])
      responses := s.responses ++ [responseWord .ok m false]
      txAnswers := answers
      txDrawn := drawn }) ∧
    (∀ k, k < 3 → TxRefuses k s → ∃ t, protocolRun (modeScript b m) s = .next t ∧
      Aborted k ([.sel] ++ frameEvents false b ++ [.desel]) s t) :=
  ⟨fun haccepts => (sends_modeScript b m).completes haccepts (scriptDone_modeScript_mode b m s)
    (scriptDone_modeScript_latches b m s), (sends_modeScript b m).aborts⟩

/-- Settles O40: the gate shut, and open the run of the script of `GFXON`. -/
theorem gfxonEntersGraphics : Obligations.GfxonEntersGraphics := by
  refine ⟨decode_gfxon, fun s => ⟨fun hshut => gated_of_shut hshut _, fun hopen => ?_⟩⟩
  have hexec : exec .gfxon s = protocolRun (modeScript s.cfg.cmdGfxOn .graphics) s := gated_of_open hopen _
  rw [hexec]
  exact protocolRun_modeScript s.cfg.cmdGfxOn .graphics s

/-- Settles O41: the gate shut, and open the run of the script of `GFXOFF`. -/
theorem gfxoffReturnsToText : Obligations.GfxoffReturnsToText := by
  refine ⟨decode_gfxoff, fun s => ⟨fun hshut => gated_of_shut hshut _, fun hopen => ?_⟩⟩
  have hexec : exec .gfxoff s = protocolRun (modeScript s.cfg.cmdGfxOff .text) s := gated_of_open hopen _
  rw [hexec]
  exact protocolRun_modeScript s.cfg.cmdGfxOff .text s

/-! ## `PRESENT` (R168) -/

theorem decode_present : decode ⟨0x43000000, []⟩ = .instr .present := by decide

theorem sends_transferScript (c : Config) (m : Memory) : Sends (transferScript c m) 3456 (presentEvents c m) :=
  ⟨writeCount_transferScript c m, scriptEvents_transferScript c m, fun x => selHeld_transferScript x c m⟩

/-- A row leaves its own address in the GDRAM shadow. -/
theorem scriptDone_rowScript_latches (c : Config) (m : Memory) (y : Nat) (s : State) :
    (scriptDone (rowScript c m y) s).latches =
      { s.latches with gaValid := true, gaV := BitVec.ofNat 5 (gdV y), gaH := BitVec.ofNat 4 (gdH0 c y) } := by
  rw [rowScript, scriptDone_append, scriptDone_flatMap State.latches _ fun k s => scriptDone_sendData_latches _ s,
    scriptDone_append, scriptDone_append, scriptDone_setGa_latches, scriptDone_sendCmd_latches,
    scriptDone_sendCmd_latches]

/-- Of the rows from the top, the last leaves its address. -/
theorem scriptDone_rows_latches (c : Config) (m : Memory) (y : Nat) (s : State) :
    (scriptDone ((List.range (y + 1)).flatMap (rowScript c m)) s).latches =
      { s.latches with gaValid := true, gaV := BitVec.ofNat 5 (gdV y), gaH := BitVec.ofNat 4 (gdH0 c y) } := by
  induction y with
  | zero => simp [scriptDone_rowScript_latches]
  | succ y ih =>
    rw [List.range_succ, List.flatMap_append, scriptDone_append, List.flatMap_singleton, scriptDone_rowScript_latches, ih]

theorem scriptDone_transferScript_latches (c : Config) (m : Memory) (s : State) :
    (scriptDone (transferScript c m) s).latches =
      { s.latches with gaValid := true, gaV := 31, gaH := c.hBottom, sel := false } := by
  have hv : BitVec.ofNat 5 (gdV 63) = 31 := by decide
  have hh : BitVec.ofNat 4 (gdH0 c 63) = c.hBottom := by simp [gdH0, gdRows]
  rw [transferScript, scriptDone_bracket_latches, fbHeight, scriptDone_rows_latches, hv, hh]
  rfl

/-- In `GRAPHICS` the script of `PRESENT` is the transfer alone. -/
theorem exec_present_graphics {s : State} (h : s.mode = .graphics) :
    exec .present s = protocolRun (transferScript s.cfg s.fb) s := by
  simp only [exec, execPresent, gated_of_open (.inr h), presentScript, h, List.nil_append]

theorem exec_present_text {s : State} (h : s.mode = .text) :
    exec .present s = protocolRun (gfxonScript s.cfg ++ transferScript s.cfg s.fb) s := by
  simp only [exec, execPresent, gated_of_open (.inl h), presentScript, h]

theorem scriptDone_gfxonTransfer_mode (s : State) :
    (scriptDone (gfxonScript s.cfg ++ transferScript s.cfg s.fb) s).mode = .graphics := by
  rw [scriptDone_append, scriptDone_transferScript_mode, scriptDone_gfxonScript_mode]

/-- The automatic `GFXON` leaves the shadows to the transfer. -/
theorem scriptDone_gfxonTransfer_latches (s : State) :
    (scriptDone (gfxonScript s.cfg ++ transferScript s.cfg s.fb) s).latches =
      { s.latches with gaValid := true, gaV := 31, gaH := s.cfg.hBottom, sel := false } := by
  have hgfxon : (scriptDone (gfxonScript s.cfg) s).latches = { s.latches with sel := false } :=
    scriptDone_modeScript_latches s.cfg.cmdGfxOn .graphics s
  rw [scriptDone_append, scriptDone_transferScript_latches, hgfxon]

/-- Settles O42: the gate shut, and the two ends of the run of the script `PRESENT` has in each open mode. -/
theorem presentSendsEveryRow : Obligations.PresentSendsEveryRow := by
  refine ⟨decode_present, fun s => ⟨fun hshut => gated_of_shut hshut _, fun hgraphics => ?graphics, fun htext => ?text⟩⟩
  case graphics =>
    have hsends := sends_transferScript s.cfg s.fb
    have hmode := (scriptDone_transferScript_mode s.cfg s.fb s).trans hgraphics
    rw [exec_present_graphics hgraphics, hgraphics]
    exact ⟨fun haccepts => hsends.completes haccepts hmode (scriptDone_transferScript_latches ..), hsends.aborts⟩
  case text =>
    have hsends := (sends_modeScript s.cfg.cmdGfxOn .graphics).append (sends_transferScript s.cfg s.fb)
    rw [exec_present_text htext]
    exact ⟨fun haccepts => hsends.completes haccepts (scriptDone_gfxonTransfer_mode s)
      (scriptDone_gfxonTransfer_latches s), hsends.aborts⟩

end Sys2Proof.Machine
end

section
/-! The encoding covers what the decoder accepts (`30_encoding.md` R74, R77): a packet that decodes is the encoding of a
well-formed command. So a packet that is no encoding is illegal, and a step answers and consumes it. -/

namespace Sys2Proof.Machine

/-! ## Words and headers put together again -/

theorem coord_ok_iff {x : Int} : Coord.ok x = true ↔ Coord16 x := by
  simp only [Coord.ok, Coord16, Bool.and_eq_true, decide_eq_true_eq]

theorem coord_ok_sext16 {n : Nat} (h : n < 65536) : Coord.ok (sext16 n) = true := by
  rw [coord_ok_iff, Coord16, sext16]
  omega

/-- The 16 bits of a field sign-extended are the field. -/
theorem low16_sext16 {n : Nat} (h : n < 65536) : low16 (sext16 n) = n := by
  simp only [low16, sext16]
  omega

theorem slice_lt (w : Word) (hi lo : Nat) : slice w hi lo < 2 ^ (hi + 1 - lo) := Nat.mod_lt _ (by positivity)

@[simp] theorem coord_ok_pointX (w : Word) : Coord.ok (pointX w) = true := coord_ok_sext16 (slice_lt w 15 0)

@[simp] theorem coord_ok_pointY (w : Word) : Coord.ok (pointY w) = true := coord_ok_sext16 (slice_lt w 31 16)

@[simp] theorem field8_ok_slice_low (w : Word) : Field8.ok (slice w 7 0) = true := decide_eq_true (slice_lt w 7 0)

@[simp] theorem field8_ok_slice_high (w : Word) : Field8.ok (slice w 15 8) = true := decide_eq_true (slice_lt w 15 8)

@[simp] theorem pointWord_of_point (w : Word) : pointWord (pointX w) (pointY w) = w := by
  rw [pointWord, pointX, pointY, low16_sext16 (slice_lt w 15 0), low16_sext16 (slice_lt w 31 16)]
  apply BitVec.eq_of_toNat_eq
  simp only [slice, BitVec.toNat_ofNat]
  omega

/-- A radius word without reserved bits (`30_encoding.md` R73). -/
theorem radiusWord_of_pointX {w : Word} (hres : slice w 31 16 = 0) : BitVec.ofNat 32 (low16 (pointX w)) = w := by
  rw [pointX, low16_sext16 (slice_lt w 15 0)]
  apply BitVec.eq_of_toNat_eq
  simp only [slice, BitVec.toNat_ofNat] at hres ⊢
  omega

/-- A size word without reserved bits (`30_encoding.md` R73). -/
theorem sizeWord_of_slices {w : Word} (hres : slice w 31 16 = 0) :
    BitVec.ofNat 32 (slice w 15 8 * 256 + slice w 7 0) = w := by
  apply BitVec.eq_of_toNat_eq
  simp only [slice, BitVec.toNat_ofNat] at hres ⊢
  omega

theorem headerV_toNat (h : Word) : (headerV h).toNat = h.toNat % 2 := by
  rw [headerV, bitAt, BitVec.getLsbD, Nat.toNat_testBit, pow_zero, Nat.div_one]

theorem headerBlend_code (h : Word) : (headerBlend h).code = slice h 2 1 := by
  have hlt : slice h 2 1 < 4 := slice_lt h 2 1
  unfold headerBlend
  generalize slice h 2 1 = n at hlt
  interval_cases n <;> rfl

theorem headerFill_code (h : Word) : (headerFill h).code = h.toNat / 8 % 2 := by
  have hbit : (bitAt h 3).toNat = h.toNat / 8 % 2 := by rw [bitAt, BitVec.getLsbD, Nat.toNat_testBit]
  rw [headerFill, ← hbit]
  cases bitAt h 3 <;> rfl

/-- A header of the formats `FS`, `FC` and `F3` without reserved bits is its fill and value bits. -/
theorem shapeHeader_low {h : Word} (hres : ¬shapeReserved h = true) :
    h.toNat % 16777216 = (headerFill h).code * 8 + (headerV h).toNat := by
  rw [headerFill_code, headerV_toNat]
  simp only [shapeReserved, Bool.or_eq_true, decide_eq_true_eq, not_or, not_not] at hres
  simp only [slice] at hres
  omega

/-! ## One lemma for each format of R74 -/

/-- The packet is the encoding of the command, which is well-formed. -/
structure Encodes (i : Instr) (p : Packet) : Prop where
  wellFormed : i.wellFormed = true
  encode_eq : encode i = p

/-- A packet is put together from its opcode, the rest of its header, and its operand words. -/
theorem Encodes.of_fields {i : Instr} {p : Packet} (hop : opcodeOf p = i.opcode)
    (hlow : p.header.toNat % 16777216 = i.headerLow) (hwords : i.operandWords = p.operands)
    (hwf : i.wellFormed = true) : Encodes i p := by
  refine ⟨hwf, ?_⟩
  have hheader : BitVec.ofNat 32 (i.opcode * 16777216 + i.headerLow) = p.header := by
    rw [← hop, ← hlow]
    apply BitVec.eq_of_toNat_eq
    simp only [opcodeOf, slice, BitVec.toNat_ofNat]
    omega
  rw [encode, hheader, hwords]

/-- A check that rejects was passed by a packet that decodes. -/
theorem instr_of_check {c : Prop} [Decidable c] {why : Reject} {d : Decoded} {i : Instr}
    (h : (if c then .illegal why else d) = .instr i) : ¬c ∧ d = .instr i := by
  split at h
  · cases h
  next hc => exact ⟨hc, h⟩

section
variable {p : Packet} {i : Instr}

theorem encodes_of_decodeClear (hop : opcodeOf p = 0x01) (h : decodeClear p = .instr i) : Encodes i p := by
  obtain ⟨hres, h⟩ := instr_of_check h
  split at h <;> cases h
  next hwords =>
  refine .of_fields hop ?_ hwords.symm rfl
  simp only [Instr.headerLow, headerV_toNat, slice] at hres ⊢
  omega

theorem encodes_of_decodeSetpix (hop : opcodeOf p = 0x02) (h : decodeSetpix p = .instr i) : Encodes i p := by
  obtain ⟨hres, h⟩ := instr_of_check h
  split at h <;> cases h
  next w1 hwords =>
  refine .of_fields hop ?_ (by simp [Instr.operandWords, hwords]) (by simp [Instr.wellFormed])
  simp only [Instr.headerLow, headerBlend_code, headerV_toNat, slice] at hres ⊢
  omega

theorem encodes_of_decodeGetpix (hop : opcodeOf p = 0x03) (h : decodeGetpix p = .instr i) : Encodes i p := by
  obtain ⟨hres, h⟩ := instr_of_check h
  split at h <;> cases h
  next w1 hwords =>
  refine .of_fields hop ?_ (by simp [Instr.operandWords, hwords]) (by simp [Instr.wellFormed])
  simp only [Instr.headerLow, slice] at hres ⊢
  omega

theorem encodes_of_decodeBlit (hop : opcodeOf p = 0x04) (h : decodeBlit p = .instr i) : Encodes i p := by
  obtain ⟨hres, h⟩ := instr_of_check h
  split at h
  case h_2 => cases h
  next w1 w2 payload hwords =>
  obtain ⟨hsize, h⟩ := instr_of_check h
  split at h
  case isFalse => cases h
  next hlen =>
  cases h
  refine .of_fields hop ?_ ?_ (by simp [Instr.wellFormed, hlen])
  · simp only [Instr.headerLow, headerBlend_code, slice, not_or, not_not] at hres ⊢
    omega
  · simp [Instr.operandWords, sizeWord_of_slices (not_not.mp hsize), hwords]

theorem encodes_of_decodeLine (hop : opcodeOf p = 0x10) (h : decodeLine p = .instr i) : Encodes i p := by
  obtain ⟨hres, h⟩ := instr_of_check h
  split at h <;> cases h
  next w1 w2 hwords =>
  refine .of_fields hop ?_ (by simp [Instr.operandWords, hwords]) (by simp [Instr.wellFormed])
  simp only [Instr.headerLow, headerV_toNat, slice] at hres ⊢
  omega

theorem encodes_of_decodeRect (hop : opcodeOf p = 0x11) (h : decodeRect p = .instr i) : Encodes i p := by
  obtain ⟨hres, h⟩ := instr_of_check h
  split at h <;> cases h
  next w1 w2 hwords =>
  exact .of_fields hop (shapeHeader_low hres) (by simp [Instr.operandWords, hwords]) (by simp [Instr.wellFormed])

theorem encodes_of_decodeCircle (hop : opcodeOf p = 0x12) (h : decodeCircle p = .instr i) : Encodes i p := by
  obtain ⟨hres, h⟩ := instr_of_check h
  split at h
  case h_2 => cases h
  next w1 w2 hwords =>
  obtain ⟨hradius, h⟩ := instr_of_check h
  cases h
  exact .of_fields hop (shapeHeader_low hres)
    (by simp [Instr.operandWords, radiusWord_of_pointX (not_not.mp hradius), hwords]) (by simp [Instr.wellFormed])

theorem encodes_of_decodeTri (hop : opcodeOf p = 0x13) (h : decodeTri p = .instr i) : Encodes i p := by
  obtain ⟨hres, h⟩ := instr_of_check h
  split at h <;> cases h
  next w1 w2 w3 hwords =>
  exact .of_fields hop (shapeHeader_low hres) (by simp [Instr.operandWords, hwords]) (by simp [Instr.wellFormed])

theorem encodes_of_decodeText (hop : opcodeOf p = 0x20) (h : decodeText p = .instr i) : Encodes i p := by
  unfold decodeText at h
  split at h <;> cases h
  next w1 chars hwords =>
  refine .of_fields hop ?_ (by simp [Instr.operandWords, hwords]) (by simp [Instr.wellFormed])
  simp only [Instr.headerLow, BitVec.toNat_ofNat, slice]
  omega

/-- The four commands without operands (format `F0`). -/
theorem encodes_of_decodeBare {j : Instr} (hop : opcodeOf p = j.opcode) (hlow : j.headerLow = 0)
    (hnone : j.operandWords = []) (hwf : j.wellFormed = true) (h : decodeBare j p = .instr i) : Encodes i p := by
  obtain ⟨hres, h⟩ := instr_of_check h
  split at h <;> cases h
  next hwords =>
  refine .of_fields hop ?_ (hnone.trans hwords.symm) hwf
  simp only [slice] at hres
  omega

theorem encodes_of_decodeWrtext (hop : opcodeOf p = 0x44) (h : decodeWrtext p = .instr i) : Encodes i p := by
  obtain ⟨hres, h⟩ := instr_of_check h
  cases h
  refine .of_fields hop ?_ rfl (by simp [Instr.wellFormed])
  simp only [Instr.headerLow, slice] at hres ⊢
  omega

/-- The decoder accepts encodings only, opcode by opcode. -/
theorem encodes_of_decode (h : decode p = .instr i) : Encodes i p := by
  unfold decode at h
  split at h
  next hop => exact encodes_of_decodeClear hop h
  next hop => exact encodes_of_decodeSetpix hop h
  next hop => exact encodes_of_decodeGetpix hop h
  next hop => exact encodes_of_decodeBlit hop h
  next hop => exact encodes_of_decodeLine hop h
  next hop => exact encodes_of_decodeRect hop h
  next hop => exact encodes_of_decodeCircle hop h
  next hop => exact encodes_of_decodeTri hop h
  next hop => exact encodes_of_decodeText hop h
  next hop => exact encodes_of_decodeBare (j := .reset) hop rfl rfl rfl h
  next hop => exact encodes_of_decodeBare (j := .gfxon) hop rfl rfl rfl h
  next hop => exact encodes_of_decodeBare (j := .gfxoff) hop rfl rfl rfl h
  next hop => exact encodes_of_decodeBare (j := .present) hop rfl rfl rfl h
  next hop => exact encodes_of_decodeWrtext hop h
  next => cases h

end

/-! ## The illegal packet (`60_exceptions.md` R195) -/

/-- Settles O6: the decoder accepts encodings only, and on a rejected packet a step answers and consumes it. -/
theorem illegalPacketAnsweredAndNothingElse : Obligations.IllegalPacketAnsweredAndNothingElse := by
  intro s p rest hs hnone
  cases hp : decode p with
  | instr i =>
    obtain ⟨hwf, hencode⟩ := encodes_of_decode hp
    exact absurd hencode (hnone i hwf)
  | illegal why =>
    rw [step_of_decode_illegal hs hp]
    simp [State.illegalCommand, State.respond, responseWord, Status.code]

end Sys2Proof.Machine
end

section
/-! The statuses of a refused protocol command: `NOT_READY` from the gate (`60_exceptions.md` R192) and `BAD_OPERAND`
from `WRTEXT` (R194). -/

namespace Sys2Proof.Machine

/-- An operand of `WRTEXT` is out of its range (`43_protocol.md` R170). -/
theorem wrtextBadOperand_iff {c : Config} {row col : Nat} {chars : List Word} :
    wrtextBadOperand c row col chars = true ↔
      c.textRows ≤ row ∨ c.textCells ≤ col ∨ ∃ ch ∈ chars, 0x7F < ch.toNat := by
  simp only [wrtextBadOperand, Bool.or_eq_true, decide_eq_true_eq, List.any_eq_true, or_assoc]

section
variable {row col : Nat} {chars : List Word} {s : State}

theorem exec_wrtext_of_bad (h : wrtextBadOperand s.cfg row col chars = true) :
    exec (.wrtext row col chars) s =
      .next { s with responses := s.responses ++ [BitVec.ofNat 32 (s.mode.code * 16 + 4)] } := by
  simp [exec, execWrtext, h, State.respond, responseWord, Status.code]

theorem exec_wrtext_of_good (h : ¬wrtextBadOperand s.cfg row col chars = true) :
    exec (.wrtext row col chars) s = gated s
      (if s.mode = .graphics then .next (s.respond .wrongMode false)
       else protocolRun (wrtextScript s.cfg row col chars) s) := if_neg h

end

/-- Settles O46: all four commands are gated, `WRTEXT` once its operands are in range. -/
theorem notReadyWithoutReset : Obligations.NotReadyWithoutReset := by
  rintro i s hshut (rfl | rfl | rfl | ⟨hrows, hcells, row, col, chars, rfl, hrow, hcol, hchars⟩)
  case inr.inr.inr =>
    have hgood : ¬wrtextBadOperand s.cfg row col chars = true := by
      rw [wrtextBadOperand_iff, hrows, hcells]
      rintro (h | h | ⟨ch, hch, h⟩)
      · omega
      · omega
      · exact absurd (hchars ch hch) (by omega)
    rw [exec_wrtext_of_good hgood]
    exact gated_of_shut hshut _
  all_goals exact gated_of_shut hshut _

/-! ## The packet of a `WRTEXT` -/

/-- The fields of the header of a `WRTEXT`: opcode, reserved bits, row, column. -/
theorem wrtextHeader_fields {row col : Nat} (hrow : row < 256) (hcol : col < 256) :
    slice (BitVec.ofNat 32 (0x44000000 + col * 256 + row)) 31 24 = 0x44 ∧
      slice (BitVec.ofNat 32 (0x44000000 + col * 256 + row)) 23 16 = 0 ∧
      slice (BitVec.ofNat 32 (0x44000000 + col * 256 + row)) 7 0 = row ∧
      slice (BitVec.ofNat 32 (0x44000000 + col * 256 + row)) 15 8 = col := by
  simp only [slice, BitVec.toNat_ofNat]
  omega

theorem decode_of_opcode_wrtext {p : Packet} (hp : slice p.header 31 24 = 0x44) : decode p = decodeWrtext p := by
  simp only [decode, opcodeOf, hp]

/-- The packet R74 gives a `WRTEXT` decodes to it. -/
theorem decode_wrtext {row col : Nat} (hrow : row < 256) (hcol : col < 256) (chars : List Word) :
    decode ⟨BitVec.ofNat 32 (0x44000000 + col * 256 + row), chars⟩ = .instr (.wrtext row col chars) := by
  obtain ⟨hopcode, hres, hlow, hhigh⟩ := wrtextHeader_fields hrow hcol
  rw [decode_of_opcode_wrtext hopcode]
  simp [decodeWrtext, hres, hlow, hhigh]

/-- Settles O47: the packet by `decode_wrtext`, and the operand is checked before the mode. -/
theorem wrtextRefusals : Obligations.WrtextRefusals := by
  intro row col chars s rest advance pulse fb hcfg hrow hcol hpackets hrange
  have hbad : wrtextBadOperand s.cfg row col chars = true := by
    rw [wrtextBadOperand_iff, hcfg]
    exact hrange
  rw [step_of_decode_instr hpackets (decode_wrtext hrow hcol chars)]
  exact exec_wrtext_of_bad hbad

end Sys2Proof.Machine
end

section
/-! The TransportError abort of any command (`60_exceptions.md` R196), compared with the run of the same command that no
refused byte ends. -/

namespace Sys2Proof.Machine

/-- A command that completes with `OK` and hands bytes to the Transport runs a script whose events are all those it
causes; the same script at every state with the same mode, configuration and frame buffer. -/
theorem exec_ok_script {i : Instr} {s u : State} {ev : List TxEvent} {q : Word} (h : exec i s = .next u)
    (htrace : u.trace = s.trace ++ ev) (hresp : u.responses = s.responses ++ [q]) (hok : slice q 2 0 = 0)
    (hev : ev ≠ []) :
    ∃ ops, scriptEvents ops = ev ∧ (∀ x, selHeld x ops = true) ∧
      ∀ s' : State, s'.mode = s.mode → s'.cfg = s.cfg → s'.fb = s.fb → exec i s' = protocolRun ops s' := by
  cases hi : isProtocol i with
  | false =>
    obtain ⟨-, hsame, -⟩ := exec_drawing_frame hi h
    exact absurd (by simpa [hsame] using htrace) hev
  | true =>
    rcases exec_protocol_cases i s hi with ⟨st, -, hrefuse⟩ | ⟨ops, hheld, hrun⟩
    · rw [hrefuse s rfl rfl] at h
      cases h
      exact absurd (by simpa using htrace) hev
    · refine ⟨ops, ?_, hheld, hrun⟩
      rw [hrun s rfl rfl rfl, protocolRun] at h
      split at h
      · cases h
      · cases h
        rcases runScript_cases ops s with ⟨-, hend⟩ | ⟨pre, b, post, -, -, hend⟩ <;> rw [hend] at htrace hresp
        · simpa using htrace
        · obtain rfl : responseWord .transportError .error false = q := by simpa using hresp
          exact absurd hok (by decide)

/-- Settles O48: the script is the one the completed run followed, and it ends at the refused byte. -/
theorem transportErrorAborts : Obligations.TransportErrorAborts := by
  intro i s u answers drawn silent ev q k hdone htrace hresp hok hk hrefuses
  have hev : ev ≠ [] := by rintro rfl; simp at hk
  obtain ⟨ops, rfl, hheld, hexec⟩ := exec_ok_script hdone htrace hresp hok hev
  rw [scriptEvents_countP] at hk
  obtain ⟨pre, b, post, rfl, hpre, hsel, hrun⟩ := protocolRun_refuses ops s k hk hrefuses (hheld s.sel)
  refine ⟨scriptEvents pre, scriptEvents post, b, _, scriptEvents_append .., ?_, (hexec s rfl rfl rfl).trans hrun,
    ?_⟩
  · rw [scriptEvents_countP, hpre]
  · have hword : responseWord .transportError .error false = 0x31 := by decide
    ext1 <;> simp [hsel, hword]

end Sys2Proof.Machine
end

section
/-! The round trip of the encoding (`30_encoding.md` R74, R77): the packet of a well-formed command decodes to it, and a
packet that decodes is the packet of its command. -/

namespace Sys2Proof.Machine

/-! ## The encoder's words are those of the formats -/

theorem pointWord_eq_append (x y : Int) : pointWord x y = BitVec.ofInt 16 y ++ BitVec.ofInt 16 x := by
  apply BitVec.eq_of_toNat_eq
  rw [toNat_append16]
  simp only [pointWord, low16, BitVec.toNat_ofNat, BitVec.toNat_ofInt]
  omega

theorem radiusWord_eq_setWidth (r : Int) : BitVec.ofNat 32 (low16 r) = (BitVec.ofInt 16 r).setWidth 32 := by
  apply BitVec.eq_of_toNat_eq
  rw [BitVec.toNat_setWidth_of_le (by decide)]
  simp only [low16, BitVec.toNat_ofNat, BitVec.toNat_ofInt]
  omega

theorem field8_ok_iff {n : Nat} : Field8.ok n = true ↔ n < 256 := decide_eq_true_iff

/-- The packet of a format decodes to its command, and is the encoding: the opcode over the fields of the header, and
the operand words. -/
theorem decode_encode_of_packet {i : Instr} {header : Nat} {words : List Word}
    (hdecode : decode ⟨BitVec.ofNat 32 header, words⟩ = .instr i)
    (hheader : i.opcode * 16777216 + i.headerLow = header := by
      rw [Instr.opcode, Instr.headerLow] <;> omega)
    (hwords : i.operandWords = words := by
      simp only [Instr.operandWords, pointWord_eq_append, radiusWord_eq_setWidth]) :
    decode (encode i) = .instr i := by
  rw [encode, hheader, hwords, hdecode]

/-! ## `TEXT` -/

/-- The fields of the header of a `TEXT`: opcode, font, size, threshold. -/
theorem textHeader_fields (font size threshold : Byte) :
    slice (BitVec.ofNat 32 (0x20000000 + size.toNat * 65536 + font.toNat * 256 + threshold.toNat)) 31 24 = 0x20 ∧
      slice (BitVec.ofNat 32 (0x20000000 + size.toNat * 65536 + font.toNat * 256 + threshold.toNat)) 15 8 =
        font.toNat ∧
      slice (BitVec.ofNat 32 (0x20000000 + size.toNat * 65536 + font.toNat * 256 + threshold.toNat)) 23 16 =
        size.toNat ∧
      slice (BitVec.ofNat 32 (0x20000000 + size.toNat * 65536 + font.toNat * 256 + threshold.toNat)) 7 0 =
        threshold.toNat := by
  have hfont := font.isLt
  have hsize := size.isLt
  have hthreshold := threshold.isLt
  simp only [slice, BitVec.toNat_ofNat]
  omega

theorem decode_of_opcode_text {p : Packet} (hp : slice p.header 31 24 = 0x20) : decode p = decodeText p := by
  simp only [decode, opcodeOf, hp]

/-- The packet R74 gives a `TEXT` decodes to it. -/
theorem decode_text {x y : Int} (font size threshold : Byte) (chars : List Word) (hx : Coord16 x) (hy : Coord16 y) :
    decode ⟨BitVec.ofNat 32 (0x20000000 + size.toNat * 65536 + font.toNat * 256 + threshold.toNat),
        (BitVec.ofInt 16 y ++ BitVec.ofInt 16 x) :: chars⟩ = .instr (.text x y font size threshold chars) := by
  obtain ⟨hopcode, hfont, hsize, hthreshold⟩ := textHeader_fields font size threshold
  rw [decode_of_opcode_text hopcode]
  simp [decodeText, hfont, hsize, hthreshold, pointX_append hx, pointY_append hy]

/-! ## Both directions -/

/-- Settles O2: constructor by constructor, the encoding is the packet of the command's format, whose decoding is
known. -/
theorem decodeOfEncode : Obligations.DecodeOfEncode := by
  intro i hwf
  cases i <;> simp only [Instr.wellFormed, Bool.and_eq_true, coord_ok_iff, field8_ok_iff, decide_eq_true_eq] at hwf
  case clear v => exact decode_encode_of_packet (decode_clear v)
  case setpix x y v b =>
    obtain ⟨hx, hy⟩ := hwf
    exact decode_encode_of_packet (decode_setpix v b hx hy)
  case getpix x y =>
    obtain ⟨hx, hy⟩ := hwf
    exact decode_encode_of_packet (header := 0x03000000) (decode_getpix hx hy)
  case blit x y b w h payload =>
    obtain ⟨⟨⟨⟨hx, hy⟩, hw⟩, hh⟩, hlen⟩ := hwf
    exact decode_encode_of_packet (decode_blit b hx hy hw hh hlen)
  case line x0 y0 x1 y1 v =>
    obtain ⟨⟨⟨hx0, hy0⟩, hx1⟩, hy1⟩ := hwf
    exact decode_encode_of_packet (decode_line v hx0 hy0 hx1 hy1)
  case rect x0 y0 x1 y1 f v =>
    obtain ⟨⟨⟨hx0, hy0⟩, hx1⟩, hy1⟩ := hwf
    exact decode_encode_of_packet (decode_rect f v hx0 hy0 hx1 hy1)
  case circle cx cy r f v =>
    obtain ⟨⟨hcx, hcy⟩, hr⟩ := hwf
    exact decode_encode_of_packet (decode_circle f v hcx hcy hr)
  case tri x0 y0 x1 y1 x2 y2 f v =>
    obtain ⟨⟨⟨⟨⟨hx0, hy0⟩, hx1⟩, hy1⟩, hx2⟩, hy2⟩ := hwf
    exact decode_encode_of_packet (decode_tri f v hx0 hy0 hx1 hy1 hx2 hy2)
  case text x y font size threshold chars =>
    obtain ⟨hx, hy⟩ := hwf
    exact decode_encode_of_packet (decode_text font size threshold chars hx hy)
  case reset => exact decode_reset
  case gfxon => exact decode_gfxon
  case gfxoff => exact decode_gfxoff
  case present => exact decode_present
  case wrtext row col chars =>
    obtain ⟨hrow, hcol⟩ := hwf
    exact decode_encode_of_packet (decode_wrtext hrow hcol chars)

/-- Settles O3: the decoder accepts encodings only. -/
theorem encodeOfDecode : Obligations.EncodeOfDecode := by
  intro p i h
  obtain ⟨hwf, hencode⟩ := encodes_of_decode h
  exact ⟨hwf, hencode⟩

end Sys2Proof.Machine
end

section
/-! The rows of the opcode table (`30_encoding.md` R74, R77): a row asks for an opcode and for zeros in the reserved
fields of its format, and so does the decoder. -/

namespace Sys2Proof.Machine

/-! ## Fields of a word as masks -/

/-- The bits of `w[hi:lo]`. -/
def fieldMask (hi lo : Nat) : Word := BitVec.ofNat 32 ((2 ^ (hi + 1 - lo) - 1) * 2 ^ lo)

/-- The bits of some fields. -/
def fieldsMask (fields : List (Nat × Nat)) : Word := fields.foldr (fun f m => fieldMask f.1 f.2 ||| m) 0#32

/-- Masking with the bits of a field leaves the field in its place. -/
theorem and_fieldMask_toNat (w : Word) {hi lo : Nat} (hlo : lo ≤ hi) (hhi : hi < 32) :
    (w &&& fieldMask hi lo).toNat = slice w hi lo * 2 ^ lo := by
  have hfit : (2 ^ (hi + 1 - lo) - 1) * 2 ^ lo < 2 ^ 32 := by
    calc (2 ^ (hi + 1 - lo) - 1) * 2 ^ lo < 2 ^ (hi + 1 - lo) * 2 ^ lo := by
          gcongr
          exact Nat.sub_one_lt (by positivity)
      _ = 2 ^ (hi + 1) := by rw [← pow_add]; congr 1; omega
      _ ≤ 2 ^ 32 := Nat.pow_le_pow_right (by decide) (by omega)
  rw [BitVec.toNat_and, fieldMask, BitVec.toNat_ofNat, Nat.mod_eq_of_lt hfit, slice]
  apply Nat.eq_of_testBit_eq
  intro i
  simp only [Nat.testBit_and, Nat.testBit_mul_two_pow, Nat.testBit_two_pow_sub_one, Nat.testBit_mod_two_pow,
    Nat.testBit_div_two_pow]
  by_cases hi' : lo ≤ i
  · simp [hi', Bool.and_comm]
  · simp [hi']

theorem and_fieldMask_eq_zero_iff (w : Word) {hi lo : Nat} (hlo : lo ≤ hi) (hhi : hi < 32) :
    w &&& fieldMask hi lo = 0#32 ↔ slice w hi lo = 0 := by
  rw [← BitVec.toNat_inj, and_fieldMask_toNat w hlo hhi, BitVec.toNat_ofNat, Nat.zero_mod, Nat.mul_eq_zero]
  exact or_iff_left (by positivity)

theorem and_fieldsMask_eq_zero_iff (w : Word) {fields : List (Nat × Nat)} (hf : ∀ f ∈ fields, f.2 ≤ f.1 ∧ f.1 < 32) :
    w &&& fieldsMask fields = 0#32 ↔ ∀ f ∈ fields, slice w f.1 f.2 = 0 := by
  induction fields with
  | nil => simp [fieldsMask]
  | cons f fields ih =>
    obtain ⟨hhead, htail⟩ := List.forall_mem_cons.mp hf
    rw [List.forall_mem_cons, ← ih htail, ← and_fieldMask_eq_zero_iff w hhead.1 hhead.2, fieldsMask, List.foldr_cons,
      BitVec.and_or_distrib_left, BitVec.or_eq_zero_iff, fieldsMask]

/-- A masked word compared with a value that lies in part of the mask: that part has the value, the rest is zero. -/
theorem and_or_eq_iff {w a b m : Word} (hab : a &&& b = 0#32) (hm : m &&& a = m) :
    w &&& (a ||| b) = m ↔ w &&& a = m ∧ w &&& b = 0#32 := by
  have hmb : m &&& b = 0#32 := by rw [← hm, BitVec.and_assoc, hab, BitVec.and_zero]
  have ha : (a ||| b) &&& a = a := by
    rw [BitVec.and_or_distrib_right, BitVec.and_self, BitVec.and_comm b, hab, BitVec.or_zero]
  have hb : (a ||| b) &&& b = b := by
    rw [BitVec.and_or_distrib_right, BitVec.and_self, hab, BitVec.zero_or]
  constructor
  · intro h
    constructor
    · rw [← ha, ← BitVec.and_assoc, h, hm]
    · rw [← hb, ← BitVec.and_assoc, h, hmb]
  · rintro ⟨hwa, hwb⟩
    rw [BitVec.and_or_distrib_left, hwa, hwb, BitVec.or_zero]

/-! ## The table's rows (R74) -/

/-- The reserved fields of the header in the format of an opcode. -/
def reservedFields : Nat → Option (List (Nat × Nat))
  | 0x01 => some [(23, 1)]
  | 0x02 => some [(23, 3)]
  | 0x03 => some [(23, 0)]
  | 0x04 => some [(0, 0), (23, 3)]
  | 0x10 => some [(23, 1)]
  | 0x11 => some [(2, 1), (23, 4)]
  | 0x12 => some [(2, 1), (23, 4)]
  | 0x13 => some [(2, 1), (23, 4)]
  | 0x20 => some []
  | 0x40 => some [(23, 0)]
  | 0x41 => some [(23, 0)]
  | 0x42 => some [(23, 0)]
  | 0x43 => some [(23, 0)]
  | 0x44 => some [(23, 16)]
  | _ => none

/-- The header has zeros in some fields. -/
def FieldsZero (fields : List (Nat × Nat)) (h : Word) : Prop := ∀ f ∈ fields, slice h f.1 f.2 = 0

/-- The header has the opcode of a command and zeros in the reserved fields of its format. -/
def HeaderFits (h : Word) : Prop := ∃ fields, reservedFields (slice h 31 24) = some fields ∧ FieldsZero fields h

theorem headerFits_iff {h : Word} {fields : List (Nat × Nat)} (hf : reservedFields (slice h 31 24) = some fields) :
    HeaderFits h ↔ FieldsZero fields h := by
  simp [HeaderFits, hf]

/-- The opcode a row asks for. -/
def rowOpcode (r : OpcodeRow) : Nat := slice r.matchBits 31 24

/-- A row's bits are those of its opcode and of its format's reserved fields. -/
def RowOfFormat (r : OpcodeRow) (fields : List (Nat × Nat)) : Prop :=
  reservedFields (rowOpcode r) = some fields ∧ r.matchBits &&& fieldMask 31 24 = r.matchBits ∧
    r.maskBits = fieldMask 31 24 ||| fieldsMask fields ∧ fieldMask 31 24 &&& fieldsMask fields = 0#32 ∧
    ∀ f ∈ fields, f.2 ≤ f.1 ∧ f.1 < 32

theorem opcodeTable_ofFormat : ∀ r ∈ opcodeTable, RowOfFormat r ((reservedFields (rowOpcode r)).getD []) := by
  unfold RowOfFormat
  decide

theorem rowOpcode_injOn : ∀ r ∈ opcodeTable, ∀ r' ∈ opcodeTable, rowOpcode r = rowOpcode r' → r = r' := by
  decide

theorem exists_row {op : Nat} {fields : List (Nat × Nat)} (h : reservedFields op = some fields) :
    ∃ r ∈ opcodeTable, rowOpcode r = op := by
  have hop : op ∈ opcodeTable.map rowOpcode := by
    unfold reservedFields at h
    split at h
    case h_15 => cases h
    all_goals decide
  simpa using hop

/-- A row matches the headers with its opcode and zeros in the reserved fields of its format. -/
theorem row_matches_iff {r : OpcodeRow} (hr : r ∈ opcodeTable) (h : Word) :
    r.matches h = true ↔ rowOpcode r = slice h 31 24 ∧ HeaderFits h := by
  obtain ⟨hfields, hmatch, hmask, hdisjoint, hbounds⟩ := opcodeTable_ofFormat r hr
  generalize (reservedFields (rowOpcode r)).getD [] = fields at hfields hmask hdisjoint hbounds
  have hopcode : h &&& fieldMask 31 24 = r.matchBits ↔ rowOpcode r = slice h 31 24 := by
    rw [← hmatch, ← BitVec.toNat_inj, and_fieldMask_toNat _ (by decide) (by decide),
      and_fieldMask_toNat _ (by decide) (by decide), rowOpcode, eq_comm]
    exact Nat.mul_left_inj (by decide)
  rw [OpcodeRow.matches, decide_eq_true_iff, hmask, and_or_eq_iff hdisjoint hmatch, hopcode,
    and_fieldsMask_eq_zero_iff h hbounds]
  refine and_congr_right fun hop => ?_
  rw [hop] at hfields
  rw [headerFits_iff hfields, FieldsZero]

/-! ## The decoder (R77) -/

/-- The decoder did not reject the packet by its header. -/
def HeaderAccepted (d : Decoded) : Prop := d ≠ .illegal .unknownOpcode ∧ d ≠ .illegal .reservedHeaderBits

/-- Only the check of the reserved bits rejects by the header. -/
theorem headerAccepted_check {c : Prop} [Decidable c] {d : Decoded} (hd : HeaderAccepted d) :
    HeaderAccepted (if c then .illegal .reservedHeaderBits else d) ↔ ¬c := by
  by_cases hc : c
  · simp [hc, HeaderAccepted]
  · simpa [hc] using hd

section
variable (p : Packet)

theorem headerAccepted_decodeClear : HeaderAccepted (decodeClear p) ↔ FieldsZero [(23, 1)] p.header :=
  (headerAccepted_check (by split <;> simp [HeaderAccepted])).trans (by simp [FieldsZero])

theorem headerAccepted_decodeSetpix : HeaderAccepted (decodeSetpix p) ↔ FieldsZero [(23, 3)] p.header :=
  (headerAccepted_check (by split <;> simp [HeaderAccepted])).trans (by simp [FieldsZero])

theorem headerAccepted_decodeGetpix : HeaderAccepted (decodeGetpix p) ↔ FieldsZero [(23, 0)] p.header :=
  (headerAccepted_check (by split <;> simp [HeaderAccepted])).trans (by simp [FieldsZero])

theorem headerAccepted_decodeBlit : HeaderAccepted (decodeBlit p) ↔ FieldsZero [(0, 0), (23, 3)] p.header :=
  (headerAccepted_check (by
    split
    · split_ifs <;> simp [HeaderAccepted]
    · simp [HeaderAccepted])).trans (by simp [FieldsZero])

theorem headerAccepted_decodeLine : HeaderAccepted (decodeLine p) ↔ FieldsZero [(23, 1)] p.header :=
  (headerAccepted_check (by split <;> simp [HeaderAccepted])).trans (by simp [FieldsZero])

theorem headerAccepted_decodeRect : HeaderAccepted (decodeRect p) ↔ FieldsZero [(2, 1), (23, 4)] p.header :=
  (headerAccepted_check (by split <;> simp [HeaderAccepted])).trans (by simp [FieldsZero, shapeReserved])

theorem headerAccepted_decodeCircle : HeaderAccepted (decodeCircle p) ↔ FieldsZero [(2, 1), (23, 4)] p.header :=
  (headerAccepted_check (by
    split
    · split_ifs <;> simp [HeaderAccepted]
    · simp [HeaderAccepted])).trans (by simp [FieldsZero, shapeReserved])

theorem headerAccepted_decodeTri : HeaderAccepted (decodeTri p) ↔ FieldsZero [(2, 1), (23, 4)] p.header :=
  (headerAccepted_check (by split <;> simp [HeaderAccepted])).trans (by simp [FieldsZero, shapeReserved])

theorem headerAccepted_decodeText : HeaderAccepted (decodeText p) ↔ FieldsZero [] p.header := by
  unfold decodeText
  split <;> simp [HeaderAccepted, FieldsZero]

theorem headerAccepted_decodeBare (i : Instr) : HeaderAccepted (decodeBare i p) ↔ FieldsZero [(23, 0)] p.header :=
  (headerAccepted_check (by split <;> simp [HeaderAccepted])).trans (by simp [FieldsZero])

theorem headerAccepted_decodeWrtext : HeaderAccepted (decodeWrtext p) ↔ FieldsZero [(23, 16)] p.header :=
  (headerAccepted_check (by simp [HeaderAccepted])).trans (by simp [FieldsZero])

/-- The decoder takes the headers that fit, opcode by opcode. -/
theorem headerAccepted_decode_iff : HeaderAccepted (decode p) ↔ HeaderFits p.header := by
  have hfits {op : Nat} {fields : List (Nat × Nat)} (hop : opcodeOf p = op) (hf : reservedFields op = some fields) :
      FieldsZero fields p.header ↔ HeaderFits p.header := (headerFits_iff ((congrArg reservedFields hop).trans hf)).symm
  unfold decode
  split
  next hop => exact (headerAccepted_decodeClear p).trans (hfits hop rfl)
  next hop => exact (headerAccepted_decodeSetpix p).trans (hfits hop rfl)
  next hop => exact (headerAccepted_decodeGetpix p).trans (hfits hop rfl)
  next hop => exact (headerAccepted_decodeBlit p).trans (hfits hop rfl)
  next hop => exact (headerAccepted_decodeLine p).trans (hfits hop rfl)
  next hop => exact (headerAccepted_decodeRect p).trans (hfits hop rfl)
  next hop => exact (headerAccepted_decodeCircle p).trans (hfits hop rfl)
  next hop => exact (headerAccepted_decodeTri p).trans (hfits hop rfl)
  next hop => exact (headerAccepted_decodeText p).trans (hfits hop rfl)
  next hop => exact (headerAccepted_decodeBare p _).trans (hfits hop rfl)
  next hop => exact (headerAccepted_decodeBare p _).trans (hfits hop rfl)
  next hop => exact (headerAccepted_decodeBare p _).trans (hfits hop rfl)
  next hop => exact (headerAccepted_decodeBare p _).trans (hfits hop rfl)
  next hop => exact (headerAccepted_decodeWrtext p).trans (hfits hop rfl)
  next =>
    have hnone : reservedFields (slice p.header 31 24) = none := by
      unfold reservedFields
      split <;> simp_all [opcodeOf]
    simp [HeaderAccepted, HeaderFits, hnone]

end

/-- Settles O4: a row matches and the decoder accepts where the header fits, and the opcode names the row. -/
theorem headerAcceptedExactlyWhenARowMatches : Obligations.HeaderAcceptedExactlyWhenARowMatches := by
  intro p
  constructor
  · refine Iff.trans ?_ (headerAccepted_decode_iff p).symm
    constructor
    · rintro ⟨r, hr, hmatch⟩
      exact ((row_matches_iff hr _).mp hmatch).2
    · intro hfits
      have ⟨fields, hfields, _⟩ := hfits
      obtain ⟨r, hr, hop⟩ := exists_row hfields
      exact ⟨r, hr, (row_matches_iff hr _).mpr ⟨hop, hfits⟩⟩
  · intro r hr r' hr' hmatch hmatch'
    obtain ⟨hop, -⟩ := (row_matches_iff hr _).mp hmatch
    obtain ⟨hop', -⟩ := (row_matches_iff hr' _).mp hmatch'
    exact rowOpcode_injOn r hr r' hr' (hop.trans hop'.symm)

end Sys2Proof.Machine
end

section
/-! The command port (`30_encoding.md` R71, R74, R77): packets written out from the spec, and the step that runs the
packet it is given. -/

namespace Sys2Proof.Machine

/-- Settles O1: the decoder, evaluated on each packet. -/
theorem specPacketsDecode : Obligations.SpecPacketsDecode := by
  unfold Obligations.SpecPacketsDecode
  refine ⟨?_, ?_, ?_, ?_, ?_, ?_, ?_, ?_, ?_, ?_, ?_, ?_, ?_, ?_, ?_, ?_, ?_⟩ <;> decide

/-- A table word that decodes is a packet that does. -/
theorem decode_packetOfTableWord {nbits w : Nat} {i : Instr} (h : decodeTableWord nbits w = some i) :
    decode (packetOfTableWord nbits w) = .instr i := by
  unfold decodeTableWord at h
  split at h
  · next hdecode => rw [hdecode, Option.some.inj h]
  · cases h

/-- Settles O5: a packet or a table word by what a step does on a packet that decodes, no packet by `fetch`. -/
theorem stepRunsTheDecodedPacket : Obligations.StepRunsTheDecodedPacket := by
  refine ⟨fun s p rest i hs hp => step_of_decode_instr hs hp, fun s nbits w i h => ?word, fun s hs => ?idle⟩
  case word => exact step_of_decode_instr (s := s.withFetchWord nbits w) rfl (decode_packetOfTableWord h)
  case idle => simp only [step, State.fetch, hs]

end Sys2Proof.Machine
end

section
/-! What a command leaves, said once for every command: a drawing command its pixels and the queries it made
(`exec_drawing_outcome`), a protocol command a refusal, the end of its script, or the abort
(`exec_protocol_outcome`). -/

namespace Sys2Proof.Machine

/-! ## The inversion lemmas -/

/-- The state a drawing command leaves: a frame buffer, an `OK`, and one answer of the GlyphSource used for each query
made. -/
def State.afterDrawing (s : State) (m : Memory) (queries : List GlyphQuery) (v : Pixel) : State :=
  { s with
    fb := m
    glyphQueries := s.glyphQueries ++ queries
    glyphAnswers := s.glyphAnswers.drop queries.length
    glyphDrawn := s.glyphDrawn + (queries.length - s.glyphAnswers.length) }.respond .ok v

/-- Without a query only the frame buffer and the response change. -/
theorem State.afterDrawing_nil (s : State) (m : Memory) (v : Pixel) :
    s.afterDrawing m [] v = { s with fb := m }.respond .ok v := by
  simp [State.afterDrawing]

theorem exec_text_outcome {x y : Int} {font size threshold : Byte} {chars : List Word} {s t : State}
    (h : exec (.text x y font size threshold chars) s = .next t) :
    ∃ m : Memory, (s.fb.wf = true → m.wf = true) ∧
      t = s.afterDrawing m (chars.map (GlyphQuery.mk font size)) false := by
  simp only [exec, execText] at h
  split at h
  · cases h
  · obtain ⟨m, hwf, hm⟩ := renderText_eq y font size threshold chars x s
    rw [hm] at h
    cases h
    exact ⟨m, hwf, by simp [State.afterDrawing]⟩

/-- What a drawing command leaves; the frame buffer stays canonical. -/
theorem exec_drawing_outcome {i : Instr} {s t : State} (hi : isProtocol i = false) (h : exec i s = .next t) :
    ∃ (m : Memory) (queries : List GlyphQuery) (v : Pixel), (s.fb.wf = true → m.wf = true) ∧
      t = s.afterDrawing m queries v := by
  cases i with
  | clear v => cases h; exact ⟨_, [], _, fun _ => Memory.filled_wf v, (s.afterDrawing_nil _ _).symm⟩
  | setpix x y v b => cases h; exact ⟨_, [], _, (Memory.plot_wf · b x y v), (s.afterDrawing_nil _ _).symm⟩
  | getpix x y => cases h; exact ⟨_, [], _, id, (s.afterDrawing_nil _ _).symm⟩
  | blit x y b w h payload => cases h; exact ⟨_, [], _, (Memory.plotDots_wf b _ ·), (s.afterDrawing_nil _ _).symm⟩
  | line | rect | circle | tri => cases h; exact ⟨_, [], _, (Memory.draw_wf · _ _), (s.afterDrawing_nil _ _).symm⟩
  | text x y font size threshold chars =>
    obtain ⟨m, hwf, ht⟩ := exec_text_outcome h
    exact ⟨m, _, false, hwf, ht⟩
  | reset | gfxon | gfxoff | present | wrtext => cases hi

/-- What the run of a script leaves: its end, with every byte accepted, or the abort at a byte refused. -/
theorem protocolRun_outcome {ops : List PeOp} {s t : State} (hheld : ∀ x, selHeld x ops = true)
    (h : protocolRun ops s = .next t) :
    t = (scriptDone ops s).respond .ok false ∨
      ∃ pre b post, ops = pre ++ .write b :: post ∧ (scriptDone pre s).sel = true ∧
        t = ((scriptDone pre s).txAnswered.emit (.fail b)).transportAbort := by
  unfold protocolRun at h
  split at h
  · cases h
  · obtain rfl : runScript ops s = t := by simpa using h
    rcases runScript_cases ops s with ⟨-, hrun⟩ | ⟨pre, b, post, rfl, -, hrun⟩
    · exact .inl hrun
    · exact .inr ⟨pre, b, post, rfl, scriptDone_sel_of_selHeld pre post b s (hheld s.sel), hrun⟩

/-- What a protocol command leaves: a refusal, which only responds, the end of a script, or the abort. -/
theorem exec_protocol_outcome {i : Instr} {s t : State} (hi : isProtocol i = true) (h : exec i s = .next t) :
    (∃ st, (st = .notReady ∨ st = .wrongMode ∨ st = .badOperand) ∧ t = s.respond st false) ∨
    (∃ ops, t = (scriptDone ops s).respond .ok false) ∨
    (∃ pre b, (scriptDone pre s).sel = true ∧ t = ((scriptDone pre s).txAnswered.emit (.fail b)).transportAbort) := by
  rcases exec_protocol_cases i s hi with ⟨st, hst, hrefuse⟩ | ⟨ops, hheld, hrun⟩
  · rw [hrefuse s rfl rfl] at h
    cases h
    exact .inl ⟨st, hst, rfl⟩
  · rw [hrun s rfl rfl rfl] at h
    rcases protocolRun_outcome hheld h with hdone | ⟨pre, b, post, -, hsel, habort⟩
    · exact .inr (.inl ⟨ops, hdone⟩)
    · exact .inr (.inr ⟨pre, b, hsel, habort⟩)

/-! ## Outputs only grow -/

/-- A script offers the bytes it hands over. -/
theorem scriptEvents_countP_isOffer (ops : List PeOp) : (scriptEvents ops).countP TxEvent.isOffer = writeCount ops := by
  rw [← scriptEvents_countP]
  refine List.countP_congr fun e he => ?_
  cases e with
  | fail b => exact absurd he (fail_notMem_scriptEvents b ops)
  | byte | sel | desel | rstPulse => rfl

/-- Settles O55: by the three ends of a protocol command and the one of a drawing command. -/
theorem outputsOnlyGrow : Obligations.OutputsOnlyGrow := by
  intro i s t h
  cases hi : isProtocol i with
  | false =>
    obtain ⟨m, queries, v, -, rfl⟩ := exec_drawing_outcome hi h
    exact ⟨rfl, rfl, rfl, rfl, ⟨_, rfl⟩, ⟨[], by simp [State.afterDrawing]⟩, queries, rfl, rfl, rfl⟩
  | true =>
    rcases exec_protocol_outcome hi h with ⟨st, -, rfl⟩ | ⟨ops, rfl⟩ | ⟨pre, b, hsel, rfl⟩
    · exact ⟨rfl, rfl, rfl, rfl, ⟨_, rfl⟩, ⟨[], by simp⟩, [], by simp⟩
    · exact ⟨by simp, by simp, by simp, by simp, by simp,
        ⟨scriptEvents ops, by simp [scriptEvents_countP_isOffer]⟩, [], by simp⟩
    · have hoffers : (scriptEvents pre ++ [TxEvent.fail b, .desel]).countP TxEvent.isOffer = writeCount pre + 1 := by
        rw [List.countP_append, scriptEvents_countP_isOffer]
        rfl
      refine ⟨by simp, by simp, by simp, by simp, by simp,
        ⟨scriptEvents pre ++ [.fail b, .desel], by simp [hsel], ?answers, ?drawn⟩, [], by simp⟩
      case answers =>
        rw [hoffers]
        simp
      case drawn =>
        rw [hoffers]
        simp only [State.transportAbort_txDrawn, State.emit_txDrawn, State.txAnswered_txDrawn, scriptDone_txDrawn,
          scriptDone_txAnswers, List.drop_eq_nil_iff]
        split_ifs <;> omega

/-! ## Statuses -/

/-- Settles O49: an abort has the one refused byte and the one status 1. -/
theorem transportErrorExactlyWhenAByteIsRefused : Obligations.TransportErrorExactlyWhenAByteIsRefused := by
  intro i s t h
  cases hi : isProtocol i with
  | false =>
    obtain ⟨m, queries, v, -, rfl⟩ := exec_drawing_outcome hi h
    exact ⟨[], responseWord .ok s.mode v, (List.append_nil _).symm, rfl, by simp [Status.code], by simp [Status.code]⟩
  | true =>
    rcases exec_protocol_outcome hi h with ⟨st, hst, rfl⟩ | ⟨ops, rfl⟩ | ⟨pre, b, hsel, rfl⟩
    · refine ⟨[], responseWord st s.mode false, by simp, rfl, ?_, by simp⟩
      rcases hst with rfl | rfl | rfl <;> simp [Status.code]
    · exact ⟨scriptEvents ops, responseWord .ok (scriptDone ops s).mode false, by simp, by simp,
        by simp [Status.code, fail_notMem_scriptEvents], by simp⟩
    · exact ⟨scriptEvents pre ++ [.fail b, .desel], responseWord .transportError .error false, by simp [hsel], by simp,
        by simp [Status.code], by simp⟩

/-- A status other than `OK` and `TRANSPORT_ERROR` comes from a command that did nothing but respond. -/
theorem exec_refused {i : Instr} {s t : State} {q : Word} (h : exec i s = .next t)
    (hresp : t.responses = s.responses ++ [q]) (hok : slice q 2 0 ≠ 0) (herror : slice q 2 0 ≠ 1) :
    t = { s with responses := s.responses ++ [q] } := by
  cases hi : isProtocol i with
  | false =>
    obtain ⟨m, queries, v, -, rfl⟩ := exec_drawing_outcome hi h
    obtain rfl : responseWord .ok s.mode v = q := by simpa [State.afterDrawing] using hresp
    exact absurd (slice_responseWord_status ..) hok
  | true =>
    rcases exec_protocol_outcome hi h with ⟨st, -, rfl⟩ | ⟨ops, rfl⟩ | ⟨pre, b, -, rfl⟩
    · rw [← hresp]
      rfl
    · obtain rfl : responseWord .ok (scriptDone ops s).mode false = q := by simpa using hresp
      exact absurd (slice_responseWord_status ..) hok
    · obtain rfl : responseWord .transportError .error false = q := by simpa using hresp
      exact absurd (slice_responseWord_status ..) herror

/-- Settles O54: a command by `exec_refused`; an illegal packet only responds. -/
theorem refusedPacketsChangeNothing : Obligations.RefusedPacketsChangeNothing := by
  intro s t p rest q hs h hresp hok herror
  cases hp : decode p with
  | instr i =>
    rw [step_of_decode_instr hs hp] at h
    exact exec_refused h hresp hok herror
  | illegal why =>
    rw [step_of_decode_illegal hs hp] at h
    cases h
    rw [← hresp]
    rfl

end Sys2Proof.Machine
end

section
/-! `WRTEXT` (`43_protocol.md` R170, `20_memory.md` R48): the run of its script, and the address it sends. -/

namespace Sys2Proof.Machine

/-! ## The script -/

@[simp] theorem scriptDone_setDd_latches (a : BitVec 7) (s : State) :
    (scriptDone [.setDd a] s).latches = { s.latches with ddValid := true, ddAddr := a } := rfl

/-- The text shadow takes the address sent, the GDRAM shadow stays. -/
theorem scriptDone_wrtextScript_latches (c : Config) (row col : Nat) (chars : List Word) (s : State) :
    (scriptDone (wrtextScript c row col chars) s).latches =
      { s.latches with ddValid := true, ddAddr := textAddress c row col, sel := false } := by
  rw [wrtextScript, scriptDone_bracket_latches, scriptDone_append,
    scriptDone_flatMap State.latches _ fun ch s => scriptDone_sendData_latches _ s, scriptDone_append,
    scriptDone_setDd_latches, scriptDone_sendCmd_latches]
  rfl

theorem sends_wrtextScript (c : Config) (row col : Nat) (chars : List Word) :
    Sends (wrtextScript c row col chars) (3 + 3 * chars.length)
      ([.sel] ++ frameEvents false (c.cmdSetAddr ||| (textAddress c row col).setWidth 8) ++
        (chars.flatMap fun ch => frameEvents true (BitVec.ofNat 8 ch.toNat)) ++ [.desel]) where
  count := by
    simp [wrtextScript, bracket, writeCount,
      writeCount_flatMap _ 3 fun ch : Word => writeCount_sendData (ch.setWidth 8)]
  events := by
    simp [wrtextScript, bracket, scriptEvents, scriptEvents_flatMap]
  held x := by
    refine selHeld_bracket x _ ?_
    simp only [selFree_append, Bool.and_eq_true]
    exact ⟨⟨rfl, rfl⟩, selFree_flatMap _ (fun _ => rfl) _⟩

/-! ## The address -/

/-- Where every row's addresses fit the 7 bits, base plus column does not wrap. -/
theorem textAddress_toNat {c : Config} (hc : c.wf = true) {row col : Nat} (hrow : row < c.textRows)
    (hcol : col < c.textCells) :
    ∃ base, c.ddRowBase[row]? = some base ∧ (textAddress c row col).toNat = base.toNat + col := by
  simp only [Config.wf, Bool.and_eq_true, decide_eq_true_eq, List.all_eq_true] at hc
  obtain ⟨hlen, hfit⟩ := hc
  have hrow' : row < c.ddRowBase.length := hlen ▸ hrow
  refine ⟨c.ddRowBase[row], List.getElem?_eq_getElem hrow', ?_⟩
  have hbase := hfit _ (List.getElem_mem hrow')
  rw [textAddress, List.getD_eq_getElem _ _ hrow', BitVec.toNat_add, BitVec.toNat_ofNat]
  omega

/-! ## The command -/

/-- In `TEXT`, with its operands in range, `WRTEXT` runs its script. -/
theorem exec_wrtext_text {row col : Nat} {chars : List Word} {s : State}
    (hgood : ¬wrtextBadOperand s.cfg row col chars = true) (h : s.mode = .text) :
    exec (.wrtext row col chars) s = protocolRun (wrtextScript s.cfg row col chars) s := by
  rw [exec_wrtext_of_good hgood, gated_of_open (.inl h), if_neg (by simp [h])]

theorem exec_wrtext_graphics {row col : Nat} {chars : List Word} {s : State}
    (hgood : ¬wrtextBadOperand s.cfg row col chars = true) (h : s.mode = .graphics) :
    exec (.wrtext row col chars) s = .next (s.respond .wrongMode false) := by
  rw [exec_wrtext_of_good hgood, gated_of_open (.inr h), if_pos h]

theorem wrtext_good {c : Config} {row col : Nat} {chars : List Word} (hrow : row < c.textRows)
    (hcol : col < c.textCells) (hchars : ∀ ch ∈ chars, ch.toNat ≤ 0x7F) :
    ¬wrtextBadOperand c row col chars = true := by
  rw [wrtextBadOperand_iff]
  rintro (h | h | ⟨ch, hch, h⟩)
  · omega
  · omega
  · exact absurd (hchars ch hch) (by omega)

/-- Settles O45: refused by the operands, the gate or the mode, and in `TEXT` the two ends of the run of
`wrtextScript`. -/
theorem wrtextSendsItsCharacters : Obligations.WrtextSendsItsCharacters := by
  rintro row col chars s _ rfl
  refine ⟨fun hrow hcol => decode_wrtext hrow hcol chars,
    fun hbad => exec_wrtext_of_bad (wrtextBadOperand_iff.mpr hbad), fun hrow hcol hchars => ?_⟩
  have hgood := wrtext_good hrow hcol hchars
  have hsends := sends_wrtextScript s.cfg row col chars
  refine ⟨fun hshut => ?shut, fun hgraphics => ?graphics, fun htext haccepts => ?completes,
    fun htext k hk hrefuses => ?aborts, fun hwf => textAddress_toNat hwf hrow hcol⟩
  case shut =>
    rw [exec_wrtext_of_good hgood]
    exact gated_of_shut hshut _
  case graphics =>
    rw [exec_wrtext_graphics hgood hgraphics, State.respond, hgraphics]
    rfl
  case completes =>
    rw [exec_wrtext_text hgood htext, htext]
    exact hsends.completes haccepts ((scriptDone_wrtextScript_mode ..).trans htext)
      (scriptDone_wrtextScript_latches ..)
  case aborts =>
    rw [exec_wrtext_text hgood htext]
    exact hsends.aborts k hk hrefuses

end Sys2Proof.Machine
end

section
/-! The form of the Transport trace (`43_protocol.md` R161, R162, R171): every script of a command is made of reset
pulses and whole brackets of whole frames, and so is a script cut short at a refused byte. -/

namespace Sys2Proof.Machine

/-! ## Reading events -/

theorem phaseAfter_append (es fs : List TxEvent) : ∀ p : TxPhase,
    phaseAfter p (es ++ fs) = (phaseAfter p es).bind fun q => phaseAfter q fs := by
  induction es with
  | nil => intro p; rfl
  | cons e es ih =>
    intro p
    simp only [List.cons_append, phaseAfter, ih, Option.bind_assoc]

theorem phaseStep_byte (p : TxPhase) (b : Byte) :
    phaseStep p (.byte b) = if byteFits p b then some (nextPhase p) else none := by
  cases p <;> rfl

theorem phaseStep_fail (p : TxPhase) (b : Byte) :
    phaseStep p (.fail b) = if byteFits p b then some .refused else none := by
  cases p <;> rfl

theorem wellFramed_append {es fs : List TxEvent} (he : WellFramed es) (hf : WellFramed fs) : WellFramed (es ++ fs) := by
  rw [WellFramed, phaseAfter_append, he]
  exact hf

/-- A trace cut short at a byte, which is refused instead, and select released. -/
theorem wellFramed_cut {es fs : List TxEvent} {b : Byte} (h : WellFramed (es ++ .byte b :: fs)) :
    WellFramed (es ++ [.fail b, .desel]) := by
  rw [WellFramed, phaseAfter_append] at h ⊢
  cases hp : phaseAfter .idle es with
  | none => simp [hp] at h
  | some p =>
    have hfits : byteFits p b = true := by
      by_contra hno
      simp [hp, phaseAfter, phaseStep_byte, hno] at h
    rw [Option.bind_some, phaseAfter, phaseStep_fail, if_pos hfits]
    rfl

/-! ## Frames and brackets -/

/-- The events are whole frames inside a bracket. -/
def WholeFrames (es : List TxEvent) : Prop := phaseAfter .selected es = some .selected

theorem wholeFrames_append {es fs : List TxEvent} (he : WholeFrames es) (hf : WholeFrames fs) :
    WholeFrames (es ++ fs) := by
  rw [WholeFrames, phaseAfter_append, he]
  exact hf

theorem wholeFrames_flatMap {α : Type} {f : α → List TxEvent} (h : ∀ a, WholeFrames (f a)) (l : List α) :
    WholeFrames (l.flatMap f) := by
  induction l with
  | nil => rfl
  | cons a l ih => exact wholeFrames_append (h a) ih

/-- A byte masked to its high half has a low half of zeros. -/
theorem highNibble_and_lowNibble (b : Byte) : b &&& 0xF0 &&& 0x0F = 0 := by
  have hmasks : (0xF0 : Byte) &&& 0x0F = 0#8 := by decide
  rw [BitVec.and_assoc, hmasks, BitVec.and_zero]
  rfl

theorem wholeFrames_frameEvents (rs : Bool) (b : Byte) : WholeFrames (frameEvents rs b) := by
  have hsync : byteFits .selected (syncBase ||| (if rs then 0x02 else 0x00)) = true := by cases rs <;> decide
  have hhigh : byteFits .afterSync (b &&& 0xF0) = true := decide_eq_true (highNibble_and_lowNibble b)
  have hlow : byteFits .afterHigh ((b <<< 4) &&& 0xF0) = true := decide_eq_true (highNibble_and_lowNibble (b <<< 4))
  simp only [WholeFrames, frameEvents, frame, List.map_cons, List.map_nil, phaseAfter, phaseStep_byte, hsync, hhigh,
    hlow, if_true, Option.bind_some, nextPhase]

theorem wellFramed_bracket {ops : List PeOp} (h : WholeFrames (scriptEvents ops)) :
    WellFramed (scriptEvents (bracket ops)) := by
  have hclosed : phaseAfter .selected (scriptEvents (ops ++ [.deselect])) = some .idle := by
    rw [scriptEvents_append, phaseAfter_append, h]
    rfl
  exact hclosed

/-! ## The scripts -/

theorem wellFramed_resetScript (c : Config) : WellFramed (scriptEvents (resetScript c)) := by
  have hframes : WholeFrames (scriptEvents
      (sendCmd cmdBasic ++ sendCmd c.cmdClear ++ sendCmd c.cmdEntry ++ sendCmd c.cmdDisplayOn)) := by
    simp only [scriptEvents_append, scriptEvents_sendCmd]
    exact wholeFrames_append (wholeFrames_append (wholeFrames_append (wholeFrames_frameEvents ..)
      (wholeFrames_frameEvents ..)) (wholeFrames_frameEvents ..)) (wholeFrames_frameEvents ..)
  rw [resetScript, scriptEvents_append, scriptEvents_append]
  exact wellFramed_append (wellFramed_append rfl (wellFramed_bracket hframes)) rfl

theorem wellFramed_modeScript (b : Byte) (m : Mode) : WellFramed (scriptEvents (modeScript b m)) := by
  rw [modeScript, scriptEvents_append]
  exact wellFramed_append (wellFramed_bracket (wholeFrames_frameEvents false b)) rfl

theorem wholeFrames_rowScript (c : Config) (m : Memory) (y : Nat) : WholeFrames (scriptEvents (rowScript c m y)) := by
  rw [scriptEvents_rowScript]
  exact wholeFrames_append (wholeFrames_append (wholeFrames_frameEvents ..) (wholeFrames_frameEvents ..))
    (wholeFrames_flatMap (fun _ => wholeFrames_frameEvents ..) _)

theorem wellFramed_transferScript (c : Config) (m : Memory) : WellFramed (scriptEvents (transferScript c m)) := by
  refine wellFramed_bracket ?_
  rw [scriptEvents_flatMap]
  exact wholeFrames_flatMap (wholeFrames_rowScript c m) _

theorem wellFramed_wrtextScript (c : Config) (row col : Nat) (chars : List Word) :
    WellFramed (scriptEvents (wrtextScript c row col chars)) := by
  refine wellFramed_bracket ?_
  rw [scriptEvents_append, scriptEvents_append, scriptEvents_flatMap]
  exact wholeFrames_append (wholeFrames_append (wholeFrames_frameEvents ..) rfl)
    (wholeFrames_flatMap (fun _ => wholeFrames_frameEvents ..) _)

end Sys2Proof.Machine
end

section
/-! The invariant (`Inv`): it holds at power-on and every step keeps it. A command that runs a script keeps it when the
script is well framed and leaves the registers as `RegistersOk` says; the abort keeps it for any such script. -/

namespace Sys2Proof.Machine

/-! ## The parts of the invariant -/

/-- What the invariant says of the registers: select is released, and the shadows hold what `10_state.md` R27 says. -/
structure RegistersOk (c : Config) (m : Mode) (l : Latches) : Prop where
  sel_low : l.sel = false
  shadows_invalid : m = .uninitialized ∨ m = .error → l.gaValid = false ∧ l.ddValid = false
  ga_last_row : l.gaValid = true → l.gaV = 31 ∧ l.gaH = c.hBottom
  dd_cell : l.ddValid = true → ∃ row col, row < c.textRows ∧ col < c.textCells ∧ l.ddAddr = textAddress c row col

theorem Inv.registersOk {s : State} (h : Inv s) : RegistersOk s.cfg s.mode s.latches :=
  ⟨h.sel_low, h.shadows_invalid, h.ga_last_row, h.dd_cell⟩

theorem RegistersOk.inv {s : State} (h : RegistersOk s.cfg s.mode s.latches) (hfb : s.fb.wf = true)
    (hframed : WellFramed s.trace) (hresp : ∀ q ∈ s.responses, ResponseOk q) : Inv s :=
  ⟨hfb, h.sel_low, hframed, h.shadows_invalid, h.ga_last_row, h.dd_cell, hresp⟩

/-- Both shadows invalid, as after the abort and after `RESET`. -/
theorem RegistersOk.of_invalid (c : Config) (m : Mode) {l : Latches} (hga : l.gaValid = false) (hdd : l.ddValid = false)
    (hsel : l.sel = false) : RegistersOk c m l :=
  ⟨hsel, fun _ => ⟨hga, hdd⟩, by simp [hga], by simp [hdd]⟩

/-- In `TEXT` and `GRAPHICS` both shadows may be valid. -/
theorem RegistersOk.of_open {c : Config} {m m' : Mode} {l : Latches} (h : RegistersOk c m l)
    (hm : m' = .text ∨ m' = .graphics) : RegistersOk c m' { l with sel := false } :=
  ⟨rfl, by rcases hm with rfl | rfl <;> simp, h.ga_last_row, h.dd_cell⟩

/-- `Respond` builds such words when its value is `GETPIX`'s alone (`30_encoding.md` R76). -/
theorem responseOk_responseWord {st : Status} {v : Pixel} (m : Mode) (h : v = true → st = .ok) :
    ResponseOk (responseWord st m v) := by
  obtain ⟨h3, h76, h319⟩ := slice_responseWord_reserved st m v
  refine ⟨by simpa using st.code_le, h3, h76, h319, fun hv => ?_⟩
  rw [h (by simpa using hv), slice_responseWord_status]
  rfl

theorem responseOk_append {rs : List Word} {q : Word} (hrs : ∀ r ∈ rs, ResponseOk r) (hq : ResponseOk q) :
    ∀ r ∈ rs ++ [q], ResponseOk r := by
  simpa [or_imp, forall_and] using ⟨hrs, hq⟩

/-! ## What keeps it -/

/-- A response keeps the invariant. -/
theorem Inv.respond {s : State} (h : Inv s) {st : Status} {v : Pixel} (hv : v = true → st = .ok) :
    Inv (s.respond st v) :=
  { h with responses_ok := responseOk_append h.responses_ok (responseOk_responseWord s.mode hv) }

/-- The end of a script keeps the invariant if the script is well framed and leaves the registers so. -/
theorem Inv.scriptDone {s : State} (h : Inv s) {ops : List PeOp} (hframed : WellFramed (scriptEvents ops))
    (hregs : RegistersOk s.cfg (Machine.scriptDone ops s).mode (Machine.scriptDone ops s).latches) :
    Inv (Machine.scriptDone ops s) := by
  refine RegistersOk.inv (by simpa using hregs) (by simpa using h.fb_wf) ?_ (by simpa using h.responses_ok)
  rw [scriptDone_trace]
  exact wellFramed_append h.well_framed hframed

/-- The abort keeps the invariant wherever a well framed script is cut. -/
theorem Inv.transportAbort {s : State} (h : Inv s) {pre post : List PeOp} {b : Byte}
    (hframed : WellFramed (scriptEvents (pre ++ .write b :: post))) (hsel : (Machine.scriptDone pre s).sel = true) :
    Inv ((Machine.scriptDone pre s).txAnswered.emit (.fail b)).transportAbort := by
  refine RegistersOk.inv (.of_invalid _ _ (by simp [State.latches]) (by simp [State.latches])
    (by simp [State.latches])) (by simpa using h.fb_wf) ?_ ?_
  · rw [scriptEvents_append, scriptEvents] at hframed
    simpa [hsel] using wellFramed_append h.well_framed (wellFramed_cut hframed)
  · simpa using responseOk_append h.responses_ok (responseOk_responseWord .error (st := .transportError) (v := false)
      (by simp))

/-- The run of a script keeps the invariant, whichever way it ends. -/
theorem Inv.protocolRun {s t : State} (h : Inv s) {ops : List PeOp} (hheld : ∀ x, selHeld x ops = true)
    (hframed : WellFramed (scriptEvents ops))
    (hregs : RegistersOk s.cfg (Machine.scriptDone ops s).mode (Machine.scriptDone ops s).latches)
    (hrun : Machine.protocolRun ops s = .next t) : Inv t := by
  rcases protocolRun_outcome hheld hrun with rfl | ⟨pre, b, post, rfl, hsel, rfl⟩
  · exact (h.scriptDone hframed hregs).respond (by simp)
  · exact h.transportAbort hframed hsel

/-- The gate keeps the invariant if what it lets through does. -/
theorem Inv.gated {s t : State} (h : Inv s) {k : Host.Outcome State Fault Refusal}
    (hk : s.mode = .text ∨ s.mode = .graphics → k = .next t → Inv t) (hgate : Machine.gated s k = .next t) : Inv t := by
  rcases gated_cases s k with ⟨hopen, hg⟩ | ⟨-, hg⟩ <;> rw [hg] at hgate
  · exact hk hopen hgate
  · cases hgate
    exact h.respond (by simp)

/-! ## The commands -/

/-- A drawing command changes nothing of the invariant but the frame buffer and the responses. -/
theorem Inv.exec_drawing {i : Instr} {s t : State} (h : Inv s) (hi : isProtocol i = false)
    (hexec : exec i s = .next t) : Inv t := by
  obtain ⟨m, queries, v, hwf, rfl⟩ := exec_drawing_outcome hi hexec
  exact RegistersOk.inv (s := s.afterDrawing m queries v) h.registersOk (hwf h.fb_wf) h.well_framed
    (responseOk_append h.responses_ok (responseOk_responseWord s.mode fun _ => rfl))

theorem Inv.exec_reset {s t : State} (h : Inv s) (hexec : exec .reset s = .next t) : Inv t := by
  refine h.protocolRun (sends_resetScript s.cfg).held (wellFramed_resetScript s.cfg) ?_ hexec
  rw [scriptDone_resetScript_latches]
  exact .of_invalid _ _ rfl rfl rfl

/-- `GFXON` and `GFXOFF`. -/
theorem Inv.modeScript {s t : State} (h : Inv s) (b : Byte) {m : Mode} (hm : m = .text ∨ m = .graphics)
    (hrun : Machine.protocolRun (Machine.modeScript b m) s = .next t) : Inv t := by
  refine h.protocolRun (sends_modeScript b m).held (wellFramed_modeScript b m) ?_ hrun
  rw [scriptDone_modeScript_latches, scriptDone_modeScript_mode]
  exact h.registersOk.of_open hm

/-- The registers after a whole `PRESENT`: the GDRAM shadow at the last row (`10_state.md` R27). -/
theorem RegistersOk.presented {c : Config} {m : Mode} {l : Latches} (h : RegistersOk c m l) :
    RegistersOk c .graphics { l with gaValid := true, gaV := 31, gaH := c.hBottom, sel := false } :=
  ⟨rfl, by simp, fun _ => ⟨rfl, rfl⟩, h.dd_cell⟩

theorem Inv.exec_present {s t : State} (h : Inv s) (hexec : exec .present s = .next t) : Inv t := by
  refine h.gated (fun hopen _ => ?_) hexec
  rcases hopen with htext | hgraphics
  · rw [exec_present_text htext] at hexec
    refine h.protocolRun (ops := gfxonScript s.cfg ++ transferScript s.cfg s.fb)
      ((sends_modeScript s.cfg.cmdGfxOn .graphics).append (sends_transferScript s.cfg s.fb)).held ?_ ?_ hexec
    · rw [scriptEvents_append]
      exact wellFramed_append (wellFramed_modeScript s.cfg.cmdGfxOn .graphics) (wellFramed_transferScript s.cfg s.fb)
    · rw [scriptDone_gfxonTransfer_latches, scriptDone_gfxonTransfer_mode]
      exact h.registersOk.presented
  · rw [exec_present_graphics hgraphics] at hexec
    refine h.protocolRun (sends_transferScript s.cfg s.fb).held (wellFramed_transferScript s.cfg s.fb) ?_ hexec
    rw [scriptDone_transferScript_latches, scriptDone_transferScript_mode, hgraphics]
    exact h.registersOk.presented

/-- `WRTEXT` leaves the text shadow at the cell it was given. -/
theorem Inv.exec_wrtext {row col : Nat} {chars : List Word} {s t : State} (h : Inv s)
    (hexec : exec (.wrtext row col chars) s = .next t) : Inv t := by
  by_cases hbad : wrtextBadOperand s.cfg row col chars = true
  · obtain rfl : s.respond .badOperand false = t := by simpa [exec, execWrtext, hbad] using hexec
    exact h.respond (by simp)
  · have hrange := mt wrtextBadOperand_iff.mpr hbad
    refine h.gated (fun hopen _ => ?_) ((exec_wrtext_of_good hbad).symm.trans hexec)
    rcases hopen with htext | hgraphics
    · rw [exec_wrtext_text hbad htext] at hexec
      refine h.protocolRun (sends_wrtextScript s.cfg row col chars).held
        (wellFramed_wrtextScript s.cfg row col chars) ?_ hexec
      rw [scriptDone_wrtextScript_latches, scriptDone_wrtextScript_mode, htext]
      exact ⟨rfl, by simp, h.ga_last_row, fun _ => ⟨row, col, by omega, by omega, rfl⟩⟩
    · rw [exec_wrtext_graphics hbad hgraphics] at hexec
      cases hexec
      exact h.respond (by simp)

/-- Every command keeps the invariant. -/
theorem Inv.exec {i : Instr} {s t : State} (h : Inv s) (hexec : Machine.exec i s = .next t) : Inv t := by
  cases hi : isProtocol i with
  | false => exact h.exec_drawing hi hexec
  | true =>
    cases i with
    | reset => exact h.exec_reset hexec
    | gfxon => exact h.gated (fun _ hrun => h.modeScript s.cfg.cmdGfxOn (.inr rfl) hrun) hexec
    | gfxoff => exact h.gated (fun _ hrun => h.modeScript s.cfg.cmdGfxOff (.inl rfl) hrun) hexec
    | present => exact h.exec_present hexec
    | wrtext row col chars => exact h.exec_wrtext hexec
    | clear | setpix | getpix | blit | line | rect | circle | tri | text => cases hi

/-- Settles O58: a packet that decodes runs its command, an illegal one is answered, and no packet changes nothing. -/
theorem everyStepKeepsTheInvariant : Obligations.EveryStepKeepsTheInvariant := by
  intro s t h hstep
  cases hs : s.packets with
  | nil =>
    obtain rfl : s = t := by simpa [step, State.fetch, hs] using hstep
    exact h
  | cons p rest =>
    have hconsumed : Inv { s with packets := rest } := { h with }
    cases hp : decode p with
    | instr i =>
      rw [step_of_decode_instr hs hp] at hstep
      exact hconsumed.exec hstep
    | illegal why =>
      rw [step_of_decode_illegal hs hp] at hstep
      cases hstep
      exact hconsumed.respond (by simp)

/-! ## Power-on (`10_state.md` R31) -/

/-- Settles O57: nothing was sent or answered, and no shadow is valid. -/
theorem powerOnMeetsTheInvariant : Obligations.PowerOnMeetsTheInvariant := by
  have hpowerOn (c : Config) : Inv (State.powerOn c) :=
    RegistersOk.inv (.of_invalid _ _ rfl rfl rfl) (State.powerOn_fb_wf c) rfl (by simp)
  exact ⟨hpowerOn, hpowerOn _⟩

/-- A pixel at power-on is a bit of `FB_POWERON`. -/
theorem State.powerOn_getPixel (c : Config) {x y : Nat} (hx : x < fbWidth) (hy : y < fbHeight) :
    (State.powerOn c).fb.getPixel x y =
      (c.fbPowerOn[16 * y + x / 8]'(pixelByte_lt hx hy)).getLsbD (7 - x % 8) := by
  have hbyte : (State.powerOn c).fb.fbByte y (x / 8) = c.powerOnByte (rowBytes * y + x / 8) := by
    simp only [State.powerOn, Memory.fbByte, Memory.ofBytes_read]
    exact if_pos (pixelByte_lt hx hy)
  rw [Memory.getPixel, hbyte, Config.powerOnByte, dif_pos (pixelByte_lt hx hy), pixelBit]

/-- Settles O56: field by field, and the frame buffer pixel by pixel. -/
theorem powerOnState : Obligations.PowerOnState :=
  ⟨fun c => ⟨rfl, rfl, rfl, rfl, rfl, rfl, fun _ _ hx hy => State.powerOn_getPixel c hx hy⟩, rfl⟩

end Sys2Proof.Machine
end

section
/-! What can stop a command: only a port that goes silent (`60_exceptions.md` R204, R205,
`93_implementation_defined.md` U18). -/

namespace Sys2Proof.Machine

/-- A command completes, or it waits for a silent port of its own. -/
theorem exec_completes_or_waits (i : Instr) (s : State) :
    (∃ t, exec i s = .next t) ∨
    (exec i s = .fault .transportSilent ∧ s.txSilent = true ∧ isProtocol i = true) ∨
    (exec i s = .fault .glyphSourceSilent ∧ s.glyphSilent = true ∧ isProtocol i = false) := by
  cases hi : isProtocol i with
  | false =>
    rcases exec_drawing_cases hi with ⟨draw, value, hexec⟩ | ⟨x, y, font, size, threshold, chars, rfl⟩
    · exact .inl ⟨_, hexec s⟩
    · cases hstalls : s.glyphStalls chars.length with
      | false => exact .inl ⟨_, exec_text hstalls x y font size threshold⟩
      | true =>
        have hsilent : s.glyphSilent = true := by simp_all [State.glyphStalls]
        exact .inr (.inr ⟨by simp [exec, execText, hstalls], hsilent, rfl⟩)
  | true =>
    rcases exec_protocol_cases i s hi with ⟨st, -, hrefuse⟩ | ⟨ops, -, hrun⟩
    · exact .inl ⟨_, hrefuse s rfl rfl⟩
    · rw [hrun s rfl rfl rfl, protocolRun]
      cases hstalls : s.txStalls (writeCount ops) with
      | false => exact .inl ⟨_, rfl⟩
      | true =>
        have hsilent : s.txSilent = true := by simp_all [State.txStalls]
        exact .inr (.inl ⟨rfl, hsilent, rfl⟩)

/-- A Transport that is silent from the start leaves every script waiting that hands over a byte. -/
theorem Sends.waits {ops : List PeOp} {n : Nat} {ev : List TxEvent} (h : Sends ops n ev) (hn : 0 < n) {s : State}
    (hsilent : s.txSilent = true) (hnone : s.txAnswers = []) : protocolRun ops s = .fault .transportSilent := by
  have hstalls : s.txStalls (writeCount ops) = true := by simp [State.txStalls, hsilent, hnone, h.count, hn]
  rw [protocolRun, hstalls, if_pos rfl]

/-- `PRESENT` waits in both modes the gate lets through. -/
theorem exec_present_waits {s : State} (hsilent : s.txSilent = true) (hnone : s.txAnswers = [])
    (hopen : s.mode = .text ∨ s.mode = .graphics) : exec .present s = .fault .transportSilent := by
  have htransfer := sends_transferScript s.cfg s.fb
  rcases hopen with htext | hgraphics
  · rw [exec_present_text htext]
    exact ((sends_modeScript s.cfg.cmdGfxOn .graphics).append htransfer).waits (by decide) hsilent hnone
  · rw [exec_present_graphics hgraphics]
    exact htransfer.waits (by decide) hsilent hnone

/-- Settles O50: the three things a command can do, and the scripts and queries that wait for a silent port. -/
theorem onlyASilentPortHangs : Obligations.OnlyASilentPortHangs := by
  refine ⟨fun i s hanswer => ?completes, fun i s f hfault => ?faults, fun i s r hrefused => ?refusals,
    fun s hsilent hnone => ⟨?reset, fun hopen => ⟨?gfxon, ?gfxoff, exec_present_waits hsilent hnone hopen⟩,
      fun row col chars htext hrow hcol hchars => ?wrtext⟩,
    fun s x y font size threshold chars hsilent hshort => ?text⟩
  case completes =>
    obtain ⟨htx, hglyph⟩ := hanswer
    rcases exec_completes_or_waits i s with hnext | ⟨-, hsilent, -⟩ | ⟨-, hsilent, -⟩
    · exact hnext
    · simp [htx] at hsilent
    · simp [hglyph] at hsilent
  case faults =>
    rcases exec_completes_or_waits i s with ⟨t, h⟩ | ⟨h, hsilent, hi⟩ | ⟨h, hsilent, hi⟩ <;> rw [h] at hfault <;>
      cases hfault
    · exact .inl ⟨rfl, hsilent, hi⟩
    · exact .inr ⟨rfl, hsilent, hi⟩
  case refusals =>
    rcases exec_completes_or_waits i s with ⟨t, h⟩ | ⟨h, -⟩ | ⟨h, -⟩ <;> rw [h] at hrefused <;> cases hrefused
  case reset => exact (sends_resetScript s.cfg).waits (by decide) hsilent hnone
  case gfxon =>
    exact (gated_of_open hopen _).trans ((sends_modeScript s.cfg.cmdGfxOn .graphics).waits (by decide) hsilent hnone)
  case gfxoff =>
    exact (gated_of_open hopen _).trans ((sends_modeScript s.cfg.cmdGfxOff .text).waits (by decide) hsilent hnone)
  case wrtext =>
    rw [exec_wrtext_text (wrtext_good hrow hcol hchars) htext]
    exact (sends_wrtextScript s.cfg row col chars).waits (by omega) hsilent hnone
  case text => simp [exec, execText, State.glyphStalls, hsilent, hshort]

end Sys2Proof.Machine
end

section
/-! The modes that no command enters or that only one leaves (`60_exceptions.md` R197, `70_reset_and_hazards.md`
R211). -/

namespace Sys2Proof.Machine

/-- Where the gate is shut, a command other than `RESET` sends nothing (`43_protocol.md` R164). -/
theorem exec_shut_trace {i : Instr} {s t : State} (hi : i ≠ .reset) (hshut : s.mode = .uninitialized ∨ s.mode = .error)
    (h : exec i s = .next t) : t.trace = s.trace := by
  cases hp : isProtocol i with
  | false => exact (exec_drawing_frame hp h).2.1
  | true =>
    cases i with
    | reset => exact absurd rfl hi
    | gfxon | gfxoff | present =>
      cases (gated_of_shut hshut _).symm.trans h
      rfl
    | wrtext row col chars =>
      by_cases hbad : wrtextBadOperand s.cfg row col chars = true
      · cases (exec_wrtext_of_bad hbad).symm.trans h
        rfl
      · cases ((exec_wrtext_of_good hbad).trans (gated_of_shut hshut _)).symm.trans h
        rfl
    | clear | setpix | getpix | blit | line | rect | circle | tri | text => cases hp

/-- A command other than `RESET` leaves the modes the gate shuts out as they are. -/
theorem exec_shut_mode {i : Instr} {s t : State} (hi : i ≠ .reset) (hshut : s.mode = .uninitialized ∨ s.mode = .error)
    (h : exec i s = .next t) : t.mode = s.mode := by
  obtain ⟨ev, q, -, -, ⟨-, hmode⟩ | ⟨-, -, hreset⟩⟩ := exec_modeStep h
  · rw [hmode, modeAfter_of_shut hi hshut]
  · exact absurd (hreset hshut) hi

/-- No row of the table ends in `UNINITIALIZED`, and only the commands without a row keep it (`10_state.md` R23). -/
theorem modeAfter_eq_uninitialized {i : Instr} {m : Mode} (h : modeAfter i m = .uninitialized) :
    i ≠ .reset ∧ m = .uninitialized := by
  unfold modeAfter at h
  split at h <;> simp_all

/-- Settles O52: the mode left is the table's or `ERROR`. -/
theorem onlyResetLeavesError : Obligations.OnlyResetLeavesError := by
  intro i s t h
  refine ⟨fun herror => ?error, fun hun => ?uninitialized⟩
  case error =>
    by_cases hi : i = .reset
    · subst hi
      obtain ⟨ev, q, -, -, ⟨-, hmode⟩ | ⟨-, hmode, -⟩⟩ := exec_modeStep h
      · exact .inr ⟨rfl, hmode⟩
      · exact .inl hmode
    · exact .inl ((exec_shut_mode hi (.inr herror) h).trans herror)
  case uninitialized =>
    obtain ⟨ev, q, -, -, ⟨-, hmode⟩ | ⟨-, hmode, -⟩⟩ := exec_modeStep h
    · obtain ⟨hi, hs⟩ := modeAfter_eq_uninitialized (hmode.symm.trans hun)
      exact ⟨hs, exec_shut_trace hi (.inl hs) h⟩
    · simp [hmode] at hun

end Sys2Proof.Machine
end

section
/-! `TEXT` as a whole (`42_text.md` R150, R154, R155): it completes, querying once per character, and stays inside its
glyph boxes. -/

namespace Sys2Proof.Machine

/-- Settles O33: the packet by `decode_text`, the next state by what the loop of `TEXT` can do. -/
theorem textQueriesEachCharacterAndCompletes : Obligations.TextQueriesEachCharacterAndCompletes := by
  intro x y font size threshold chars s
  refine ⟨decode_text font size threshold chars, fun hwf hanswers => ?_⟩
  obtain ⟨m, hm, hrender⟩ := renderText_eq y font size threshold chars x s
  refine ⟨m, ?_, hm hwf⟩
  rw [exec_text hanswers, hrender, State.respond, responseWord_ok_false]

/-! ## The glyph boxes (R154) -/

/-- The box of the first character, if it has a glyph, is one of the boxes. -/
theorem mem_textBoxes_head {y : Int} {font size : Byte} {ch : Word} {rest : List Word} {cur : Int} {s : State}
    {g : Glyph} (hg : s.glyphAnswer ⟨font, size, ch⟩ = .glyph g) :
    ⟨cur, y, g.w.toNat, g.h.toNat⟩ ∈ textBoxes y font size (ch :: rest) cur s := by
  simp [textBoxes, hg]

/-- So are the boxes of the rest, at the advanced cursor. -/
theorem mem_textBoxes_tail {y : Int} {font size : Byte} {ch : Word} {rest : List Word} {cur : Int} {s : State} {b : Box}
    (hb : b ∈ textBoxes y font size rest (cur + glyphAdvance s.cfg (s.glyphAnswer ⟨font, size, ch⟩))
      (s.glyphAnswered ⟨font, size, ch⟩)) :
    b ∈ textBoxes y font size (ch :: rest) cur s := by
  cases hg : s.glyphAnswer ⟨font, size, ch⟩ <;> simp_all [textBoxes]

/-- The loop of `TEXT` leaves every pixel outside the boxes alone. -/
theorem getPixel_renderText {y : Int} {font size threshold : Byte} {px py : Nat} (hpx : px < fbWidth)
    (hpy : py < fbHeight) : ∀ (chars : List Word) (cur : Int) (s : State), s.fb.wf = true →
      (∀ b ∈ textBoxes y font size chars cur s, ¬b.Holds px py) →
      (renderText y font size threshold chars cur s).fb.getPixel px py = s.fb.getPixel px py
  | [], _, _, _, _ => rfl
  | ch :: rest, cur, s, hwf, hout => by
    have hfirst : (s.characterRendered cur y threshold ⟨font, size, ch⟩).fb.getPixel px py = s.fb.getPixel px py :=
      getPixel_glyphComposite hwf cur y threshold _ hpx hpy fun g hg => hout _ (mem_textBoxes_head hg)
    rw [renderText_cons, ← hfirst]
    refine getPixel_renderText hpx hpy rest _ _ (glyphComposite_wf hwf cur y threshold _) fun b hb => ?_
    rw [textBoxes_congr y font size rest _ (s.glyphAnswered ⟨font, size, ch⟩) (s.characterRendered cur y threshold _)
      rfl rfl rfl] at hb
    exact hout b (mem_textBoxes_tail hb)

/-- Settles O37: the loop stays inside the boxes, and the response is no pixel. -/
theorem textStaysInsideItsGlyphBoxes : Obligations.TextStaysInsideItsGlyphBoxes := by
  intro x y font size threshold chars s t hwf h px py hpx hpy hout
  cases hstalls : s.glyphStalls chars.length with
  | true => simp [exec, execText, hstalls] at h
  | false =>
    cases (exec_text hstalls x y font size threshold).symm.trans h
    exact getPixel_renderText hpx hpy chars x s hwf hout

end Sys2Proof.Machine
end

section
/-! The laws of the frame buffer that `40_framebuffer.md` R110 lists, for every command: a pixel keeps its value until a
command's shape holds it, and drawing twice is drawing once; and the packed view as `ExportRows` lists it (R108). -/

namespace Sys2Proof.Machine

/-! ## Missed pixels (R110 (c)) -/

/-- Every command keeps the canonical form. -/
theorem exec_fb_wf {i : Instr} {s t : State} (hwf : s.fb.wf = true) (h : exec i s = .next t) : t.fb.wf = true := by
  cases hi : isProtocol i with
  | false =>
    obtain ⟨m, queries, v, hm, rfl⟩ := exec_drawing_outcome hi h
    exact hm hwf
  | true => rw [(exec_protocol_frame hi h).1, hwf]

/-- A pixel that is not in a list drawn keeps its value. -/
theorem Memory.getPixel_draw_of_notMem {m : Memory} (hm : m.wf = true) {pts : List (Int × Int)} (v : Pixel)
    {px py : Nat} (hpx : px < fbWidth) (hpy : py < fbHeight) (hout : ((px : Int), (py : Int)) ∉ pts) :
    (m.draw pts v).getPixel px py = m.getPixel px py := by
  rw [Memory.getPixel_draw hm pts v hpx hpy, if_neg hout]

/-- A command leaves the pixels its shape misses alone. -/
theorem exec_getPixel_of_misses {i : Instr} {s t : State} (hwf : s.fb.wf = true) (h : exec i s = .next t) {px py : Nat}
    (hpx : px < fbWidth) (hpy : py < fbHeight) (hmiss : Misses px py i s) :
    t.fb.getPixel px py = s.fb.getPixel px py := by
  cases i with
  | clear v => exact absurd hmiss id
  | setpix x y v b => cases h; exact (Memory.getPixel_plot hwf b x y v hpx hpy).trans (if_neg hmiss)
  | getpix x y => cases h; rfl
  | blit x y b w h' payload =>
    cases h
    exact (Memory.getPixel_bitmap hwf b x y w h' _ hpx hpy).trans (if_neg hmiss)
  | line | rect | circle | tri => cases h; exact Memory.getPixel_draw_of_notMem hwf _ hpx hpy hmiss
  | text x y font size threshold chars =>
    exact textStaysInsideItsGlyphBoxes x y font size threshold chars s t hwf h px py hpx hpy hmiss
  | reset | gfxon | gfxoff | present | wrtext => rw [(exec_protocol_frame rfl h).1]

/-- Settles O59: pixel by pixel, and equal pixels are one canonical buffer. -/
theorem missedPixelsAreLeftAlone : Obligations.MissedPixelsAreLeftAlone := by
  intro i s t hwf h
  refine ⟨exec_fb_wf hwf h, fun x y hx hy => exec_getPixel_of_misses hwf h hx hy, fun hmiss =>
    Memory.ext_pixel (exec_fb_wf hwf h) hwf fun x y hx hy => exec_getPixel_of_misses hwf h hx hy (hmiss x y ?_)⟩
  simp only [fbWidth, fbHeight] at hx hy
  omega

/-! ## `GETPIX` after `SETPIX` (R110 (a)) -/

/-- Commands that miss a pixel leave its value, and the buffer canonical. -/
theorem runMisses_getPixel {px py : Nat} (hpx : px < fbWidth) (hpy : py < fbHeight) : ∀ {is : List Instr} {s u : State},
    s.fb.wf = true → RunMisses px py is s u → u.fb.getPixel px py = s.fb.getPixel px py
  | [], _, _, _, hrun => by rw [RunMisses] at hrun; rw [hrun]
  | i :: is, s, u, hwf, hrun => by
    obtain ⟨hmiss, t, hexec, hrest⟩ := hrun
    rw [runMisses_getPixel hpx hpy (exec_fb_wf hwf hexec) hrest, exec_getPixel_of_misses hwf hexec hpx hpy hmiss]

/-- Settles O11: the pixel written is the pixel read, for the run between does not touch it. -/
theorem getpixAfterSetpixSet : Obligations.GetpixAfterSetpixSet := by
  intro x y v between s t u hwf hin hset hrun
  obtain ⟨⟨hx, -⟩, hy, -⟩ := id hin
  lift x to ℕ using hx
  lift y to ℕ using hy
  obtain ⟨hx, hy⟩ : x < fbWidth ∧ y < fbHeight := InRange.toNat_lt hin
  cases hset
  have hwritten : (s.fb.plot .set x y v).getPixel x y = v :=
    (Memory.get_of_inRange _ hin).symm.trans (Memory.get_plot_set hwf hin v)
  have hread : u.fb.get x y = v := by
    rw [Memory.get_of_inRange _ hin]
    exact (runMisses_getPixel hx hy (Memory.plot_wf hwf .set x y v) hrun).trans hwritten
  refine ⟨_, exec_getpix x y u, ?_⟩
  rw [hread, responseWord_ok]

/-! ## Drawing twice (R110 (b), `20_memory.md` R50) -/

/-- Every blend but `XOR` gives the same value the second time. -/
theorem blendPixel_twice {b : Blend} (hb : b ≠ .xor) (old v : Pixel) :
    blendPixel b (blendPixel b old v) v = blendPixel b old v := by
  cases b with
  | set => rfl
  | clear | and => cases old <;> cases v <;> rfl
  | xor => exact absurd rfl hb

theorem Memory.plot_twice {m : Memory} (hm : m.wf = true) {b : Blend} (hb : b ≠ .xor) (x y : Int) (v : Pixel) :
    (m.plot b x y v).plot b x y v = m.plot b x y v := by
  have hm' := Memory.plot_wf hm b x y v
  refine Memory.ext_pixel (Memory.plot_wf hm' b x y v) hm' fun px py hpx hpy => ?_
  rw [Memory.getPixel_plot hm' b x y v hpx hpy, Memory.getPixel_plot hm b x y v hpx hpy]
  split_ifs
  · exact blendPixel_twice hb _ v
  · rfl

theorem Memory.bitmap_twice {m : Memory} (hm : m.wf = true) {b : Blend} (hb : b ≠ .xor) (x y : Int) (w h : Nat)
    (src : Nat → Nat → Pixel) :
    (m.plotDots b (bitmapDots x y w h src)).plotDots b (bitmapDots x y w h src) =
      m.plotDots b (bitmapDots x y w h src) := by
  have hm' := Memory.plotDots_wf b (bitmapDots x y w h src) hm
  refine Memory.ext_pixel (Memory.plotDots_wf b _ hm') hm' fun px py hpx hpy => ?_
  rw [Memory.getPixel_bitmap hm' b x y w h src hpx hpy, Memory.getPixel_bitmap hm b x y w h src hpx hpy]
  split_ifs
  · exact blendPixel_twice hb _ _
  · rfl

theorem Memory.draw_twice {m : Memory} (hm : m.wf = true) (pts : List (Int × Int)) (v : Pixel) :
    (m.draw pts v).draw pts v = m.draw pts v := by
  have hm' := Memory.draw_wf hm pts v
  refine Memory.ext_pixel (Memory.draw_wf hm' pts v) hm' fun px py hpx hpy => ?_
  rw [Memory.getPixel_draw hm' pts v hpx hpy, Memory.getPixel_draw hm pts v hpx hpy]
  split_ifs <;> rfl

/-- Settles O15: each shape drawn twice. -/
theorem drawingTwiceIsDrawingOnce : Obligations.DrawingTwiceIsDrawingOnce := by
  intro i s t u hi hwf ht hu
  cases i with
  | clear v =>
    rw [exec_clear] at ht hu
    cases ht
    cases hu
    rfl
  | setpix x y v b => cases ht; cases hu; exact Memory.plot_twice hwf (of_decide_eq_true hi) x y v
  | blit x y b w h payload => cases ht; cases hu; exact Memory.bitmap_twice hwf (of_decide_eq_true hi) x y w h _
  | line | rect | circle | tri => cases ht; cases hu; exact Memory.draw_twice hwf _ _
  | getpix | text | reset | gfxon | gfxoff | present | wrtext => cases hi

/-! ## The padding of a `BLIT` (`30_encoding.md` R84) -/

/-- The incoming pixels of a bitmap are its source pixels inside the box. -/
theorem bitmapDots_congr {w h : Nat} {src src' : Nat → Nat → Pixel} (x y : Int)
    (hsrc : ∀ i j : Nat, i < w → j < h → src i j = src' i j) : bitmapDots x y w h src = bitmapDots x y w h src' := by
  refine List.flatMap_congr fun j hj => List.map_congr_left fun i hi => ?_
  rw [hsrc i j (List.mem_range.mp hi) (List.mem_range.mp hj)]

/-- Settles O13: no source pixel is a padding bit. -/
theorem blitPaddingHasNoEffect : Obligations.BlitPaddingHasNoEffect := by
  intro x y b w h p q s hsame
  have hsrc : ∀ i j : Nat, i < w → j < h → blitSrc p w i j = blitSrc q w i j := by
    simpa only [blitSrc, bitAt, wordsPerRow] using hsame
  rw [exec_blit, exec_blit, bitmapDots_congr x y hsrc]

/-! ## The packed view (R108, `20_memory.md` R42) -/

/-- Rows of `w` numbers, one after the other, are the numbers in order. -/
theorem flatMap_rows {α : Type} (f : Nat → α) (w n : Nat) :
    ((List.range n).flatMap fun y => (List.range w).map fun k => f (w * y + k)) = (List.range (w * n)).map f := by
  induction n with
  | zero => rfl
  | succ n ih =>
    rw [List.range_succ, List.flatMap_append, ih, List.flatMap_singleton, Nat.mul_succ, List.range_add, List.map_append,
      List.map_map]
    rfl

/-- The list is the bytes in the order of their addresses. -/
theorem Memory.exportRows_eq (m : Memory) : m.exportRows = (List.range fbBytes).map m.read :=
  flatMap_rows m.read rowBytes fbHeight

/-- Settles O14: byte `16 * y + k` of the list is byte `k` of row `y`, whose bits are pixels. -/
theorem exportRowsIsThePackedView : Obligations.ExportRowsIsThePackedView := by
  intro m
  refine ⟨by simp [Memory.exportRows_eq], fun y k i hy hk hi => ⟨m.fbByte y k, ?_, Memory.fbByte_getLsbD m y k i hi⟩⟩
  rw [Memory.exportRows_eq, List.getElem?_map, List.getElem?_range (by simp only [fbBytes]; omega)]
  rfl

end Sys2Proof.Machine
end

section
/-! The path of a line (`41_rasterizer.md` R120): on its major axis every step of the loop moves by one, so the loop
ends at the second endpoint when its fuel does. -/

namespace Sys2Proof.Machine

/-! ## The order of the endpoints -/

/-- Settles O18: the first endpoint is chosen by the coordinates alone. -/
theorem lineIsSymmetric : Obligations.LineIsSymmetric := by
  intro x0 y0 x1 y1
  unfold linePts
  split_ifs with h h' h'
  · omega
  · rfl
  · rfl
  · obtain ⟨rfl, rfl⟩ : x0 = x1 ∧ y0 = y1 := by omega
    rfl

/-- Settles O19: from the lesser end to the greater. -/
theorem axisParallelLines : Obligations.AxisParallelLines := by
  intro a b c x y
  rcases le_total a b with h | h
  · rw [min_eq_left h, max_eq_right h]
    exact ⟨mem_linePts_horizontal h, mem_linePts_vertical h⟩
  · rw [min_eq_right h, max_eq_left h, lineIsSymmetric a c b c, lineIsSymmetric c a c b]
    exact ⟨mem_linePts_horizontal h, mem_linePts_vertical h⟩

/-! ## Paths -/

/-- The list is a path of `n` steps from one pixel to another, each step as the relation says. -/
structure IsPath (Step : Point → Point → Prop) (n : Nat) (a b : Point) (l : List Point) : Prop where
  head : l.head? = some a
  last : l.getLast? = some b
  length : l.length = n + 1
  chain : l.IsChain Step

theorem IsPath.single (Step : Point → Point → Prop) (a : Point) : IsPath Step 0 a a [a] :=
  ⟨rfl, rfl, rfl, .singleton a⟩

theorem IsPath.cons {Step : Point → Point → Prop} {n : Nat} {a b c : Point} {l : List Point} (hstep : Step a b)
    (h : IsPath Step n b c l) : IsPath Step (n + 1) a c (a :: l) := by
  obtain ⟨hhead, hlast, hlength, hchain⟩ := h
  obtain ⟨l', rfl⟩ : ∃ l', l = b :: l' := by
    cases l with
    | nil => simp at hhead
    | cons b' l' => exact ⟨l', by simpa using hhead⟩
  exact ⟨rfl, by simpa using hlast, by simpa using hlength, .cons_cons hstep hchain⟩

/-- A path whose steps all raise a coordinate has no pixel twice. -/
theorem IsPath.nodup {Step : Point → Point → Prop} {n : Nat} {a b : Point} {l : List Point} (h : IsPath Step n a b l)
    (coord : Point → Int) (hraise : ∀ p q, Step p q → coord p < coord q) : l.Nodup := by
  have hlt : l.IsChain fun p q => coord p < coord q := h.chain.imp hraise
  have : IsTrans Point fun p q => coord p < coord q := ⟨fun _ _ _ => lt_trans⟩
  exact hlt.pairwise.imp fun hpq heq => by simp [heq] at hpq

/-- Neighbours in a path are a step apart. -/
theorem IsPath.step_of_getElem? {Step : Point → Point → Prop} {n : Nat} {a b : Point} {l : List Point}
    (h : IsPath Step n a b l) {k : Nat} {p q : Point} (hp : l[k]? = some p) (hq : l[k + 1]? = some q) : Step p q := by
  obtain ⟨hk, rfl⟩ := List.getElem?_eq_some_iff.mp hp
  obtain ⟨hk', rfl⟩ := List.getElem?_eq_some_iff.mp hq
  exact List.isChain_iff_getElem.mp h.chain k hk'

/-! ## The loop's path -/

/-- A step along a line: at most one in each coordinate, and exactly one along the major axis. -/
def LineStep (dx dy sy : Int) (p q : Point) : Prop :=
  (q.1 = p.1 ∨ q.1 = p.1 + 1) ∧ (q.2 = p.2 ∨ q.2 = p.2 + sy) ∧ (dy ≤ dx → q.1 = p.1 + 1) ∧ (dx ≤ dy → q.2 = p.2 + sy)

/-- The columns or the rows done, whichever axis is the major one. -/
def majorDone (dx dy i j : Int) : Int := if dy ≤ dx then i else j

/-- A bound on the error term that leads the loop along the major axis to the second endpoint. -/
structure LeadsToEnd (dx dy : Int) (Bound : Int → Prop) : Prop where
  keeps : ∀ err, Bound err → Bound (errorStep dx dy err)
  moves : ∀ err, Bound err → (dy ≤ dx → -dy < 2 * err) ∧ (dx ≤ dy → 2 * err < dx)
  arrives : ∀ i j, Bound (lineError dx dy i j) → majorDone dx dy i j = max dx dy → i = dx ∧ j = dy

/-- A multiple of a distance that is less than half of it is none. -/
theorem eq_zero_of_lt_half {d k : Int} (hd : 0 < d) (hlo : -d ≤ 2 * (k * d)) (hhi : 2 * (k * d) < d) : k = 0 := by
  have hk : -1 < k := by nlinarith
  have hk' : k < 1 := by nlinarith
  omega

theorem xMajorBound_leadsToEnd {dx dy : Int} (hdy : 0 ≤ dy) (hmajor : dy ≤ dx) (hdx : 0 < dx) :
    LeadsToEnd dx dy (XMajorBound dx dy) where
  keeps := XMajorBound.step hdy hmajor
  moves err := by
    rintro ⟨hlo, hhi, hdiag⟩
    omega
  arrives i j hb hdone := by
    rw [majorDone, if_pos hmajor, max_eq_left hmajor] at hdone
    subst hdone
    obtain ⟨hlo, hhi⟩ := hb.deviation
    have hrows : j * i - i * dy = (j - dy) * i := by ring
    rw [hrows] at hlo hhi
    exact ⟨rfl, sub_eq_zero.mp (eq_zero_of_lt_half hdx hlo hhi)⟩

theorem yMajorBound_leadsToEnd {dx dy : Int} (hdx : 0 ≤ dx) (hmajor : dx < dy) :
    LeadsToEnd dx dy (YMajorBound dx dy) where
  keeps := YMajorBound.step hdx hmajor
  moves err := by
    rintro ⟨hlo, hhi⟩
    omega
  arrives i j hb hdone := by
    rw [majorDone, if_neg (not_le.mpr hmajor), max_eq_right hmajor.le] at hdone
    subst hdone
    obtain ⟨hlo, hhi⟩ := hb.deviation
    have hcolumns : i * j - j * dx = (i - dx) * j := by ring
    rw [hcolumns] at hlo hhi
    exact ⟨sub_eq_zero.mp (eq_zero_of_lt_half (by omega) hlo hhi), rfl⟩

/-- From a pixel as many steps from the end along the major axis as there is fuel, the loop goes to the end. -/
theorem lineLoop_isPath {dx dy sy : Int} {Bound : Int → Prop} (hleads : LeadsToEnd dx dy Bound) (hsy : sy ≠ 0)
    (x0 y0 : Int) (n : Nat) : ∀ {i j err : Int}, err = lineError dx dy i j → Bound err →
      majorDone dx dy i j + n = max dx dy →
      IsPath (LineStep dx dy sy) n (x0 + i, y0 + sy * j) (x0 + dx, y0 + sy * dy)
        (lineLoop dx dy sy (x0 + dx) (y0 + sy * dy) n (x0 + i) (y0 + sy * j) err) := by
  induction n with
  | zero =>
    intro i j err herr hb hdone
    obtain ⟨rfl, rfl⟩ := hleads.arrives i j (herr ▸ hb) (by simpa using hdone)
    exact .single _ _
  | succ n ih =>
    intro i j err herr hb hdone
    have hbefore : ¬(x0 + i = x0 + dx ∧ y0 + sy * j = y0 + sy * dy) := by
      rintro ⟨hi, hj⟩
      obtain rfl : i = dx := by omega
      obtain rfl : j = dy := mul_left_cancel₀ hsy (by omega)
      unfold majorDone at hdone
      split_ifs at hdone <;> omega
    obtain ⟨hcolumn, hrow⟩ := hleads.moves err hb
    have hx : (if -dy < 2 * err then x0 + i + 1 else x0 + i) = x0 + if -dy < 2 * err then i + 1 else i := by
      split_ifs <;> ring
    have hy : (if 2 * err < dx then y0 + sy * j + sy else y0 + sy * j) =
        y0 + sy * if 2 * err < dx then j + 1 else j := by
      split_ifs <;> ring
    rw [lineLoop_step n err hbefore, hx, hy]
    refine .cons ?step (ih (errorStep_lineError herr) (hleads.keeps err hb) ?done)
    case step =>
      rw [← hx, ← hy]
      refine ⟨?_, ?_, fun h => if_pos (hcolumn h), fun h => if_pos (hrow h)⟩ <;> dsimp only <;> split_ifs <;> simp
    case done =>
      unfold majorDone at hdone ⊢
      split_ifs at hdone ⊢ <;> push_cast at hdone <;> omega

/-- A line between two pixels, from the canonical first one, is such a path. -/
theorem linePts_isPath {x0 y0 x1 y1 : Int} (hcanon : x0 < x1 ∨ (x0 = x1 ∧ y0 ≤ y1)) :
    IsPath (LineStep (x1 - x0) (y1 - y0).natAbs (if y0 ≤ y1 then 1 else -1))
      (max (x1 - x0).natAbs (y1 - y0).natAbs) (x0, y0) (x1, y1) (linePts x0 y0 x1 y1) := by
  rw [linePts_of_canonical hcanon, linePtsFrom]
  generalize hdx : x1 - x0 = dx
  generalize hdy : ((y1 - y0).natAbs : Int) = dy
  generalize hsy : (if y0 ≤ y1 then 1 else -1 : Int) = sy
  have hsy0 : sy ≠ 0 := by split_ifs at hsy <;> omega
  obtain rfl : x1 = x0 + dx := by omega
  obtain rfl : y1 = y0 + sy * dy := by split_ifs at hsy <;> subst hsy <;> omega
  have hfuel : (max dx dy).toNat = max dx.natAbs (y0 + sy * dy - y0).natAbs := by omega
  rw [← hfuel]
  have hpath {Bound : Int → Prop} (hleads : LeadsToEnd dx dy Bound) (hstart : Bound (dx - dy)) :=
    lineLoop_isPath hleads hsy0 x0 y0 (max dx dy).toNat (i := 0) (j := 0) (by simp [lineError]) hstart
      (by unfold majorDone; split_ifs <;> omega)
  simp only [add_zero, mul_zero] at hpath
  rcases le_or_gt dy dx with hmajor | hmajor
  · rcases eq_or_lt_of_le (show 0 ≤ dx by omega) with rfl | hdx0
    · obtain rfl : dy = 0 := by omega
      simpa [lineLoop] using IsPath.single _ (x0, y0)
    · exact hpath (xMajorBound_leadsToEnd (by omega) hmajor hdx0) (by unfold XMajorBound; omega)
  · exact hpath (yMajorBound_leadsToEnd (by omega) hmajor) (by unfold YMajorBound; omega)

/-- Settles O16: the path's ends, length and steps, and the major coordinate, which every step moves on. -/
theorem linePathIsEightConnected : Obligations.LinePathIsEightConnected := by
  intro x0 y0 x1 y1 hcanon
  have hpath := linePts_isPath hcanon
  have hsign : (if y0 ≤ y1 then 1 else -1 : Int) = 1 ∨ (if y0 ≤ y1 then 1 else -1 : Int) = -1 := by split_ifs <;> simp
  generalize (if y0 ≤ y1 then 1 else -1 : Int) = sy at hpath hsign
  refine ⟨hpath.head, hpath.last, hpath.length, ?nodup, fun k p q hp hq => ?step⟩
  case nodup =>
    rcases le_total ((y1 - y0).natAbs : Int) (x1 - x0) with hmajor | hmajor
    · refine hpath.nodup Prod.fst fun p q hstep => ?_
      obtain ⟨-, -, hcolumn, -⟩ := hstep
      have := hcolumn hmajor
      omega
    · refine hpath.nodup (fun p => sy * p.2) fun p q hstep => ?_
      obtain ⟨-, -, -, hrow⟩ := hstep
      rw [hrow hmajor]
      rcases hsign with rfl | rfl <;> omega
  case step =>
    obtain ⟨hx, hy, hcolumn, hrow⟩ := hpath.step_of_getElem? hp hq
    omega

end Sys2Proof.Machine
end

section
/-! The number of pixels of a filled rectangle (`41_rasterizer.md` R123). -/

namespace Sys2Proof.Machine

/-- The numbers from `a` to `b` among those below `n`. -/
theorem length_filter_range_between {n b : Nat} (a : Nat) (hb : b < n) :
    ((List.range n).filter fun x => decide (a ≤ x ∧ x ≤ b)).length = b + 1 - a := by
  rw [← List.countP_eq_length_filter, ← Nat.card_Icc]
  exact (Nat.count_eq_card_filter_range _ n).trans (congrArg Finset.card (by ext x; simp; omega))

/-- Some rows hold the same pixels, the others none. -/
theorem length_flatMap_ite {α β : Type} (rows : List α) (p : α → Bool) (row : List β) :
    (rows.flatMap fun y => if p y then row else []).length = (rows.filter p).length * row.length := by
  induction rows with
  | nil => simp
  | cons y rows ih =>
    rw [List.flatMap_cons, List.length_append, ih]
    cases hy : p y with
    | true => simp [hy, Nat.succ_mul, Nat.add_comm]
    | false => simp [hy]

/-- An empty frame buffer has no pixel set. -/
theorem Memory.getPixel_nil (x y : Nat) : Memory.getPixel [] x y = false := by
  simp [Memory.getPixel, Memory.fbByte, Memory.read, Memory.unlisted]

/-- Drawn on an empty frame buffer, the pixels set are those of the list. -/
theorem Memory.getPixel_draw_nil (pts : List (Int × Int)) {px py : Nat} (hpx : px < fbWidth) (hpy : py < fbHeight) :
    Memory.getPixel (Memory.draw [] pts true) px py = true ↔ ((px : Int), (py : Int)) ∈ pts := by
  rw [Memory.getPixel_draw rfl pts true hpx hpy, Memory.getPixel_nil]
  simp

/-- A row of the grid after a filled rectangle, between corners on the grid, is drawn on an empty frame buffer. -/
theorem filter_row_filledRect (x0 y0 x1 y1 : Nat) {y : Nat} (hy : y < fbHeight) :
    ((List.range fbWidth).filter fun x => Memory.getPixel (Memory.draw [] (rectPts x0 y0 x1 y1 .filled) true) x y) =
      if decide (min y0 y1 ≤ y ∧ y ≤ max y0 y1) then
        (List.range fbWidth).filter fun x => decide (min x0 x1 ≤ x ∧ x ≤ max x0 x1)
      else [] := by
  have hpixel (x : Nat) (hx : x ∈ List.range fbWidth) :
      Memory.getPixel (Memory.draw [] (rectPts x0 y0 x1 y1 .filled) true) x y =
        (decide (min x0 x1 ≤ x ∧ x ≤ max x0 x1) && decide (min y0 y1 ≤ y ∧ y ≤ max y0 y1)) := by
    have hx := List.mem_range.mp hx
    rw [Bool.eq_iff_iff, Memory.getPixel_draw_nil _ hx hy, mem_rectPts_grid .filled hx hy, Bool.and_eq_true,
      decide_eq_true_iff, decide_eq_true_iff]
    simp only [reduceCtorEq, false_implies, and_true]
    omega
  rw [List.filter_congr hpixel]
  cases decide (min y0 y1 ≤ y ∧ y ≤ max y0 y1) <;> simp

/-- Settles O22: the rows between the corners hold the columns between them. -/
theorem filledRectPixelCount : Obligations.FilledRectPixelCount := by
  intro x0 y0 x1 y1 s hfb hx0 hx1 hy0 hy1
  refine ⟨_, exec_rect x0 y0 x1 y1 .filled true s, ?_⟩
  lift x0 to ℕ using hx0.1
  lift x1 to ℕ using hx1.1
  lift y0 to ℕ using hy0.1
  lift y1 to ℕ using hy1.1
  have hrows := List.flatMap_congr fun y hy => filter_row_filledRect x0 y0 x1 y1 (List.mem_range.mp hy)
  have hheight : max y0 y1 < fbHeight := by simp only [fbHeight]; omega
  have hwidth : max x0 x1 < fbWidth := by simp only [fbWidth]; omega
  rw [State.drawn, hfb, hrows, length_flatMap_ite, length_filter_range_between _ hheight,
    length_filter_range_between _ hwidth, Nat.mul_comm, Nat.cast_mul]
  congr 1 <;> omega

end Sys2Proof.Machine
end

section
/-! Circles as shapes (`41_rasterizer.md` R127 to R129): the outline is symmetric, and a filled circle is one centred
span in each of its rows, for the octant meets every row. -/

namespace Sys2Proof.Machine

/-! ## The mirrors (R128) -/

/-- The pixels of the outline, by the distances from the centre. -/
theorem mem_circlePts_outline {cx cy r x y : Int} :
    (x, y) ∈ circlePts cx cy r .outline ↔ ∃ a b, (a, b) ∈ octant (max r 0) ∧
      ((((x - cx).natAbs : Int) = a ∧ ((y - cy).natAbs : Int) = b) ∨
        (((x - cx).natAbs : Int) = b ∧ ((y - cy).natAbs : Int) = a)) := by
  simp only [circlePts, outlineCirclePts, List.mem_flatMap, Prod.exists, clampRadius]
  refine exists_congr fun a => exists_congr fun b => and_congr_right fun hmem => ?_
  obtain ⟨ha, hab, -⟩ := octant_bounds _ _ hmem
  exact mem_mirrorPts ha (ha.trans hab)

/-- Settles O25: a mirror keeps the two distances, or exchanges them. -/
theorem circleOutlineIsEightfoldSymmetric : Obligations.CircleOutlineIsEightfoldSymmetric := by
  intro cx cy r dx dy h
  obtain ⟨a, b, hmem, hdist⟩ := mem_circlePts_outline.mp h
  exact ⟨mem_circlePts_outline.mpr ⟨a, b, hmem, by omega⟩, mem_circlePts_outline.mpr ⟨a, b, hmem, by omega⟩,
    mem_circlePts_outline.mpr ⟨a, b, hmem, by omega⟩⟩

/-! ## The rows of a filled circle (R129) -/

/-- A row at distance `d` from the centre reaches to distance `a`: the two are an octant point, in either order. -/
def RowReaches (r d a : Int) : Prop := (a, d) ∈ octant r ∨ (d, a) ∈ octant r

/-- From its start to the diagonal, the loop's points meet every distance: the columns rise by one and the rows fall by
at most one, until they meet. -/
theorem octantLoop_meets {r : Int} (n : Nat) : ∀ {x y d : Int}, y - x < n → x ≤ d → d ≤ y →
    ∃ a, (a, d) ∈ octantLoop n x y (midpointDecision r x y) ∨ (d, a) ∈ octantLoop n x y (midpointDecision r x y) := by
  induction n with
  | zero => intro x y d hfuel hx hy; omega
  | succ n ih =>
    intro x y d hfuel hx hy
    rw [octantLoop_succ n (hx.trans hy)]
    rcases eq_or_lt_of_le hx with rfl | hx
    · exact ⟨y, .inr (List.mem_cons_self ..)⟩
    rcases eq_or_lt_of_le hy with rfl | hy
    · exact ⟨x, .inl (List.mem_cons_self ..)⟩
    have hnext : y - 1 ≤ nextOctantRow r x y := by
      unfold nextOctantRow
      split_ifs <;> omega
    have hnext' := nextOctantRow_le r x y
    obtain ⟨a, ha⟩ := ih (x := x + 1) (y := nextOctantRow r x y) (d := d) (by omega) (by omega) (by omega)
    exact ⟨a, ha.imp (List.mem_cons_of_mem _) (List.mem_cons_of_mem _)⟩

/-- Every row within the radius reaches somewhere. -/
theorem exists_rowReaches {r d : Int} (hd : 0 ≤ d) (hr : d ≤ r) : ∃ a, RowReaches r d a := by
  unfold RowReaches
  rw [octant_eq]
  exact octantLoop_meets _ (by omega) hd hr

theorem RowReaches.bounds {r d a : Int} (h : RowReaches r d a) : (0 ≤ a ∧ a ≤ r) ∧ d ≤ r := by
  rcases h with h | h
  · obtain ⟨ha, had, hd⟩ := octant_bounds _ _ h
    exact ⟨⟨ha, had.trans hd⟩, hd⟩
  · obtain ⟨hd, hda, ha⟩ := octant_bounds _ _ h
    exact ⟨⟨hd.trans hda, ha⟩, hda.trans ha⟩

/-- A row within the radius reaches farthest at one distance. -/
theorem exists_rowReaches_greatest {r d : Int} (hd : 0 ≤ d) (hr : d ≤ r) :
    ∃ a, RowReaches r d a ∧ ∀ a', RowReaches r d a' → a' ≤ a :=
  Int.exists_greatest_of_bdd ⟨r, fun _ h => h.bounds.1.2⟩ (exists_rowReaches hd hr)

/-- A filled circle has the pixels of a row up to where the row reaches. -/
theorem onCircle_filled_iff {r dx dy : Int} : OnCircle .filled dx dy (octant r) ↔ ∃ a, RowReaches r dy a ∧ dx ≤ a := by
  constructor
  · rintro ⟨a, b, hmem, ⟨rfl, rfl⟩ | ⟨rfl, rfl⟩ | ⟨-, ⟨hle, rfl⟩ | ⟨hle, rfl⟩⟩⟩
    · exact ⟨dx, .inl hmem, le_rfl⟩
    · exact ⟨dx, .inr hmem, le_rfl⟩
    · exact ⟨a, .inl hmem, hle⟩
    · exact ⟨b, .inr hmem, hle⟩
  · rintro ⟨a, hmem | hmem, hle⟩
    · exact ⟨a, dy, hmem, .inr (.inr ⟨rfl, .inl ⟨hle, rfl⟩⟩)⟩
    · exact ⟨dy, a, hmem, .inr (.inr ⟨rfl, .inr ⟨hle, rfl⟩⟩)⟩

/-- Settles O26: a row within the radius is the span to where it reaches farthest, and no other row reaches anywhere. -/
theorem filledCircleHasNoGaps : Obligations.FilledCircleHasNoGaps := by
  intro cx cy r s hfb
  refine ⟨_, exec_circle cx cy r .filled true s, fun py hpy => ?_⟩
  have hpixel (px : Nat) (hpx : px < 128) : (s.drawn (circlePts cx cy r .filled) true).fb.getPixel px py = true ↔
      ∃ a, RowReaches (max r 0) ((py : Int) - cy).natAbs a ∧ (((px : Int) - cx).natAbs : Int) ≤ a := by
    rw [State.drawn, hfb, Memory.getPixel_draw_nil _ hpx hpy, mem_circlePts_grid cx cy r .filled hpx hpy,
      onCircle_filled_iff]
  refine ⟨fun hin => ?row, fun hout px hpx => ?outside⟩
  case row =>
    obtain ⟨a, ha, hgreatest⟩ := exists_rowReaches_greatest (Int.natCast_nonneg _) hin
    refine ⟨a, ha.bounds.1.1, ha.bounds.1.2, fun px hpx => (hpixel px hpx).trans ?_⟩
    exact ⟨fun ⟨a', ha', hle⟩ => hle.trans (hgreatest a' ha'), fun hle => ⟨a, ha, hle⟩⟩
  case outside =>
    rw [Bool.eq_false_iff, Ne, hpixel px hpx]
    rintro ⟨a, ha, -⟩
    exact absurd ha.bounds.2 (not_le.mpr hout)

/-! ## Spans as lines (R129) -/

theorem Memory.plotDots_append (blend : Blend) : ∀ (m : Memory) (ds es : List Dot),
    m.plotDots blend (ds ++ es) = (m.plotDots blend ds).plotDots blend es
  | _, [], _ => rfl
  | m, d :: ds, es => Memory.plotDots_append blend (m.plot blend d.x d.y d.v) ds es

/-- Drawing one list and then another is drawing both. -/
theorem Memory.draw_append (m : Memory) (p q : List (Int × Int)) (v : Pixel) :
    m.draw (p ++ q) v = (m.draw p v).draw q v := by
  rw [Memory.draw, List.map_append, Memory.plotDots_append]
  rfl

/-- On the grid a span is the horizontal line between its ends. -/
theorem mem_spanPts_grid_iff_line (cx y : Int) {a : Int} (ha : 0 ≤ a) {px py : Nat} (hpx : px < fbWidth)
    (hpy : py < fbHeight) :
    ((px : Int), (py : Int)) ∈ spanPts cx a y ↔ ((px : Int), (py : Int)) ∈ linePts (cx - a) y (cx + a) y := by
  rw [spanPts, mem_boxPts_grid hpx hpy, mem_linePts_horizontal (by omega)]
  omega

/-- Settles O27: each span has the pixels of its line. -/
theorem circleSpansAreLines : Obligations.CircleSpansAreLines := by
  intro m cx cy r v hwf
  rw [circlePts, fillCirclePts, Memory.draw_append, clampRadius]
  refine Memory.draw_congr (Memory.draw_wf hwf _ v) v fun px py hpx hpy => ?_
  simp only [List.mem_flatMap, Prod.exists]
  refine exists_congr fun a => exists_congr fun b => and_congr_right fun hmem => ?_
  obtain ⟨ha, hab, -⟩ := octant_bounds _ _ hmem
  have hb := ha.trans hab
  simp only [spansPts, List.mem_append, mem_spanPts_grid_iff_line _ _ ha hpx hpy,
    mem_spanPts_grid_iff_line _ _ hb hpx hpy]

end Sys2Proof.Machine
end

section
/-! Triangles and the order of their vertices (`41_rasterizer.md` R131 to R135), and two triangles on one edge
(R132). -/

namespace Sys2Proof.Machine

theorem edgePts_comm (a b : Point) : edgePts a b = edgePts b a := lineIsSymmetric a.1 a.2 b.1 b.2

/-! ## Collinear vertices: the longest edge (R133) -/

/-- Two points of a line equally far from a third one, and no farther from each other, are one point: otherwise the
third would lie midway between them. -/
theorem eq_of_collinear_of_sqLength_eq {a b c : Point} (hline : area2 a b c = 0) (heq : sqLength a b = sqLength a c)
    (hle : sqLength b c ≤ sqLength a b) : b = c := by
  obtain ⟨a1, a2⟩ := a
  obtain ⟨b1, b2⟩ := b
  obtain ⟨c1, c2⟩ := c
  simp only [area2, sqLength] at hline heq hle
  generalize hdot : (b1 - a1) * (c1 - a1) + (b2 - a2) * (c2 - a2) = dot
  generalize hlen : (b1 - a1) ^ 2 + (b2 - a2) ^ 2 = len at heq hle
  have hlen0 : 0 ≤ len := by rw [← hlen]; positivity
  have hapart : (c1 - b1) ^ 2 + (c2 - b2) ^ 2 = 2 * (len - dot) := by
    linear_combination hlen - heq - 2 * hdot
  have hsame : len - dot = 0 ∨ len + dot = 0 := by
    refine mul_eq_zero.mp ?_
    rw [← hdot]
    linear_combination len * heq - ((c1 - a1) ^ 2 + (c2 - a2) ^ 2) * hlen +
      ((b1 - a1) * (c2 - a2) - (c1 - a1) * (b2 - a2)) * hline
  have hzero : (c1 - b1) ^ 2 + (c2 - b2) ^ 2 = 0 := by omega
  obtain ⟨h1, h2⟩ := (add_eq_zero_iff_of_nonneg (sq_nonneg _) (sq_nonneg _)).mp hzero
  rw [sq_eq_zero_iff] at h1 h2
  rw [Prod.mk.injEq]
  omega

/-- A longest edge is the one drawn, whichever it is. -/
theorem degenerateTriPts_of_longest01 {p0 p1 p2 : Point} (h12 : sqLength p1 p2 ≤ sqLength p0 p1)
    (h02 : sqLength p0 p2 ≤ sqLength p0 p1) : degenerateTriPts p0 p1 p2 = edgePts p0 p1 := if_pos ⟨h12, h02⟩

theorem area2_rotate (p0 p1 p2 : Point) : area2 p1 p2 p0 = area2 p0 p1 p2 := by
  simp only [area2]
  ring

section
variable {p0 p1 p2 : Point} (hline : area2 p0 p1 p2 = 0)
include hline

theorem degenerateTriPts_of_longest12 (h01 : sqLength p0 p1 ≤ sqLength p1 p2) (h02 : sqLength p0 p2 ≤ sqLength p1 p2) :
    degenerateTriPts p0 p1 p2 = edgePts p1 p2 := by
  unfold degenerateTriPts
  split_ifs with htie
  · have hp : p2 = p0 := eq_of_collinear_of_sqLength_eq (a := p1) ((area2_rotate ..).trans hline)
      (by rw [sqLength_comm p1 p0]; omega) (by rw [sqLength_comm p2 p0]; omega)
    rw [hp, edgePts_comm]
  · rfl

theorem degenerateTriPts_of_longest02 (h01 : sqLength p0 p1 ≤ sqLength p0 p2) (h12 : sqLength p1 p2 ≤ sqLength p0 p2) :
    degenerateTriPts p0 p1 p2 = edgePts p0 p2 := by
  unfold degenerateTriPts
  split_ifs with htie htie
  · have hp : p1 = p2 := eq_of_collinear_of_sqLength_eq hline (by omega) (by omega)
    rw [hp]
  · have hp : p0 = p1 := eq_of_collinear_of_sqLength_eq (a := p2)
      ((area2_rotate ..).symm.trans hline) (by rw [sqLength_comm p2 p0, sqLength_comm p2 p1]; omega)
      (by rw [sqLength_comm p2 p0]; omega)
    rw [hp]
  · rfl

end

/-- One of the three edges is a longest one. -/
theorem exists_longest (p0 p1 p2 : Point) :
    (sqLength p1 p2 ≤ sqLength p0 p1 ∧ sqLength p0 p2 ≤ sqLength p0 p1) ∨
    (sqLength p0 p1 ≤ sqLength p1 p2 ∧ sqLength p0 p2 ≤ sqLength p1 p2) ∨
    (sqLength p0 p1 ≤ sqLength p0 p2 ∧ sqLength p1 p2 ≤ sqLength p0 p2) := by
  omega

theorem area2_swap01 (p0 p1 p2 : Point) : area2 p1 p0 p2 = -area2 p0 p1 p2 := by
  simp only [area2]
  ring

/-- Exchanging the first two vertices leaves the longest edge. -/
theorem degenerateTriPts_swap01 {p0 p1 p2 : Point} (hline : area2 p0 p1 p2 = 0) :
    degenerateTriPts p0 p1 p2 = degenerateTriPts p1 p0 p2 := by
  have hline' : area2 p1 p0 p2 = 0 := by rw [area2_swap01, hline, neg_zero]
  have hcomm := sqLength_comm p0 p1
  rcases exists_longest p0 p1 p2 with ⟨h12, h02⟩ | ⟨h01, h02⟩ | ⟨h01, h12⟩
  · rw [degenerateTriPts_of_longest01 h12 h02, degenerateTriPts_of_longest01 (by omega) (by omega), edgePts_comm]
  · rw [degenerateTriPts_of_longest12 hline h01 h02, degenerateTriPts_of_longest02 hline' (by omega) h02]
  · rw [degenerateTriPts_of_longest02 hline h01 h12, degenerateTriPts_of_longest12 hline' (by omega) h12]

/-- So does exchanging the last two. -/
theorem degenerateTriPts_swap12 {p0 p1 p2 : Point} (hline : area2 p0 p1 p2 = 0) :
    degenerateTriPts p0 p1 p2 = degenerateTriPts p0 p2 p1 := by
  have hline' : area2 p0 p2 p1 = 0 := by rw [area2_exchange, hline, neg_zero]
  have hcomm := sqLength_comm p1 p2
  rcases exists_longest p0 p1 p2 with ⟨h12, h02⟩ | ⟨h01, h02⟩ | ⟨h01, h12⟩
  · rw [degenerateTriPts_of_longest01 h12 h02, degenerateTriPts_of_longest02 hline' h02 (by omega)]
  · rw [degenerateTriPts_of_longest12 hline h01 h02, degenerateTriPts_of_longest12 hline' (by omega) (by omega),
      edgePts_comm]
  · rw [degenerateTriPts_of_longest02 hline h01 h12, degenerateTriPts_of_longest01 (by omega) h01]

/-! ## The order of the vertices (R135) -/

/-- The scan does not depend on which vertex of the winding comes first. -/
theorem fillTriWound_rotate (p0 p1 p2 : Point) : fillTriWound p1 p2 p0 = fillTriWound p0 p1 p2 := by
  have hmin (x y z : Int) : min y (min z x) = min x (min y z) := by omega
  have hmax (x y z : Int) : max y (max z x) = max x (max y z) := by omega
  have hinside : insideTri p1 p2 p0 = insideTri p0 p1 p2 := by
    funext p
    rw [insideTri, insideTri, Bool.and_comm, Bool.and_assoc]
  rw [fillTriWound, fillTriWound, hinside, hmin p0.1, hmin p0.2, hmax p0.1, hmax p0.2]

theorem triPts_filled_swap12 (p0 p1 p2 : Point) : triPts p0 p1 p2 .filled = triPts p0 p2 p1 .filled := by
  have hswap := area2_exchange p0 p1 p2
  rcases lt_trichotomy (area2 p0 p1 p2) 0 with hneg | hzero | hpos
  · exact triPts_filled_of_neg hneg
  · rw [triPts, if_pos hzero, triPts, if_pos (by omega), degenerateTriPts_swap12 hzero]
  · exact (triPts_filled_of_neg (by omega)).symm

theorem triPts_filled_swap01 (p0 p1 p2 : Point) : triPts p0 p1 p2 .filled = triPts p1 p0 p2 .filled := by
  have hswap := area2_swap01 p0 p1 p2
  rcases lt_trichotomy (area2 p0 p1 p2) 0 with hneg | hzero | hpos
  · have hpos' : 0 < area2 p0 p2 p1 := by rw [area2_exchange]; omega
    rw [triPts_filled_of_neg hneg, triPts_filled_of_pos hpos', triPts_filled_of_pos (by omega), fillTriWound_rotate]
  · rw [triPts, if_pos hzero, triPts, if_pos (by omega), degenerateTriPts_swap01 hzero]
  · have hpos' : 0 < area2 p1 p2 p0 := by rw [area2_rotate]; exact hpos
    rw [triPts_filled_of_pos hpos, triPts_filled_of_neg (p0 := p1) (by omega), triPts_filled_of_pos hpos',
      fillTriWound_rotate p0 p1 p2]

/-- The outline has the pixels of the same three edges. -/
theorem mem_outlineTriPts_swap01 {p0 p1 p2 p : Point} : p ∈ outlineTriPts p0 p1 p2 ↔ p ∈ outlineTriPts p1 p0 p2 := by
  simp only [outlineTriPts, List.mem_append, edgePts_comm p1 p0, edgePts_comm p0 p2, edgePts_comm p2 p1]
  tauto

theorem mem_outlineTriPts_swap12 {p0 p1 p2 p : Point} : p ∈ outlineTriPts p0 p1 p2 ↔ p ∈ outlineTriPts p0 p2 p1 := by
  simp only [outlineTriPts, List.mem_append, edgePts_comm p1 p0, edgePts_comm p0 p2, edgePts_comm p2 p1]
  tauto

/-- Triangles of the same pixels leave the same state. -/
theorem State.drawn_congr {s : State} (hwf : s.fb.wf = true) {p q : List (Int × Int)} (v : Pixel)
    (h : ∀ a, a ∈ p ↔ a ∈ q) : s.drawn p v = s.drawn q v := by
  rw [State.drawn, State.drawn, Memory.draw_congr hwf v fun x y _ _ => h _]

/-- Settles O31: exchanged vertices give the same pixels, outline or filled. -/
theorem triangleVertexOrderDoesNotMatter : Obligations.TriangleVertexOrderDoesNotMatter := by
  intro x0 y0 x1 y1 x2 y2 f v s hwf
  simp only [exec_tri]
  cases f with
  | outline =>
    exact ⟨congrArg _ (State.drawn_congr hwf v fun _ => mem_outlineTriPts_swap01),
      congrArg _ (State.drawn_congr hwf v fun _ => mem_outlineTriPts_swap12)⟩
  | filled => exact ⟨by rw [triPts_filled_swap01], by rw [triPts_filled_swap12]⟩

/-! ## Two triangles on one edge (R132) -/

theorem edgeFn_reverse (a b p : Point) : edgeFn b a p = -edgeFn a b p := by
  simp only [edgeFn]
  ring

theorem edgeFn_eq_area2 (a b c : Point) : edgeFn a b c = area2 a b c := by
  simp only [edgeFn, area2]
  ring

/-- No pixel is inside an edge taken in both directions. -/
theorem insideEdge_reverse {a b p : Point} (h : insideEdge a b p = true) : ¬insideEdge b a p = true := by
  rw [insideEdge_iff] at h ⊢
  have := edgeFn_reverse a b p
  omega

/-- A pixel on an edge is inside it in one direction: the one in which it is a top or a left edge. -/
theorem insideEdge_of_edgeFn_eq_zero {a b p : Point} (hne : a ≠ b) (h : edgeFn a b p = 0) :
    insideEdge a b p = true ∨ insideEdge b a p = true := by
  rw [insideEdge_iff, insideEdge_iff]
  have := edgeFn_reverse a b p
  rw [Ne, Prod.ext_iff] at hne
  omega

/-- How far along the edge from `a` to `b` a pixel lies, in units of the edge's length. -/
def alongEdge (a b p : Point) : Int := (p.1 - a.1) * (b.1 - a.1) + (p.2 - a.2) * (b.2 - a.2)

theorem alongEdge_reverse (a b p : Point) : alongEdge b a p = sqLength a b - alongEdge a b p := by
  simp only [alongEdge, sqLength]
  ring

/-- A pixel on an edge, strictly between its ends, is strictly inside the two other edges of a triangle. -/
theorem edgeFn_pos_of_on_edge {a b c p : Point} (harea : 0 < area2 a b c) (hon : edgeFn a b p = 0)
    (hfrom : 0 < alongEdge a b p) (hto : alongEdge a b p < sqLength a b) : 0 < edgeFn b c p ∧ 0 < edgeFn c a p := by
  have hlen : 0 < sqLength a b := hfrom.trans hto
  have hb : sqLength a b * edgeFn b c p = (sqLength a b - alongEdge a b p) * area2 a b c := by
    simp only [sqLength, alongEdge, area2, edgeFn] at hon ⊢
    linear_combination ((b.1 - a.1) * (c.1 - b.1) + (b.2 - a.2) * (c.2 - b.2)) * hon
  have hc : sqLength a b * edgeFn c a p = alongEdge a b p * area2 a b c := by
    simp only [sqLength, alongEdge, area2, edgeFn] at hon ⊢
    linear_combination ((b.1 - a.1) * (a.1 - c.1) + (b.2 - a.2) * (a.2 - c.2)) * hon
  constructor
  · rw [← mul_pos_iff_of_pos_left hlen, hb]
    exact mul_pos (sub_pos.mpr hto) harea
  · rw [← mul_pos_iff_of_pos_left hlen, hc]
    exact mul_pos hfrom harea

/-- On the grid the scan finds the pixels of the triangle. -/
theorem mem_fillTriWound {p0 p1 p2 p : Point} (harea : 0 < area2 p0 p1 p2) (hp : InRange p.1 p.2) :
    p ∈ fillTriWound p0 p1 p2 ↔
      insideEdge p0 p1 p = true ∧ insideEdge p1 p2 p = true ∧ insideEdge p2 p0 p = true := by
  obtain ⟨x, y⟩ := p
  obtain ⟨hx, hy⟩ := hp.toNat_lt
  lift x to ℕ using hp.1.1
  lift y to ℕ using hp.2.1
  exact mem_fillTriWound_grid harea hx hy

/-- A pixel on an edge, strictly between its ends, is drawn by the triangle for which it is inside that edge. -/
theorem mem_fillTriWound_of_on_edge {a b c p : Point} (harea : 0 < area2 a b c) (hp : InRange p.1 p.2)
    (hinside : insideEdge a b p = true) (hon : edgeFn a b p = 0) (hfrom : 0 < alongEdge a b p)
    (hto : alongEdge a b p < sqLength a b) : p ∈ fillTriWound a b c := by
  obtain ⟨hb, hc⟩ := edgeFn_pos_of_on_edge harea hon hfrom hto
  exact (mem_fillTriWound harea hp).mpr ⟨hinside, insideEdge_iff.mpr (.inl hb), insideEdge_iff.mpr (.inl hc)⟩

/-- Settles O32: the two triangles take the edge in opposite directions. -/
theorem sharedEdgeIsDrawnOnce : Obligations.SharedEdgeIsDrawnOnce := by
  intro a b c d p hc hd hp
  have hareaC : 0 < area2 a b c := by rwa [← edgeFn_eq_area2]
  have hareaD : 0 < area2 b a d := by rw [area2_swap01, ← edgeFn_eq_area2]; omega
  have hptsC : triPts a b c .filled = fillTriWound a b c := triPts_filled_of_pos hareaC
  have hptsD : triPts a b d .filled = fillTriWound b a d := by
    rw [triPts_filled_swap01, triPts_filled_of_pos hareaD]
  rw [hptsC, hptsD]
  refine ⟨fun ⟨hinC, hinD⟩ => ?once, fun hon (hfrom : 0 < alongEdge a b p)
    (hto : alongEdge a b p < sqLength a b) => ?covered⟩
  case once =>
    obtain ⟨hab, -⟩ := (mem_fillTriWound hareaC hp).mp hinC
    obtain ⟨hba, -⟩ := (mem_fillTriWound hareaD hp).mp hinD
    exact insideEdge_reverse hab hba
  case covered =>
    have hne : a ≠ b := by
      rintro rfl
      simp [edgeFn] at hc
    have hon' : edgeFn b a p = 0 := by rw [edgeFn_reverse, hon, neg_zero]
    have halong := alongEdge_reverse a b p
    have hlen := sqLength_comm a b
    rcases insideEdge_of_edgeFn_eq_zero hne hon with hab | hba
    · exact .inl (mem_fillTriWound_of_on_edge hareaC hp hab hon hfrom hto)
    · exact .inr (mem_fillTriWound_of_on_edge hareaD hp hba hon' (by omega) (by omega))

end Sys2Proof.Machine
end

section
/-! What a completed `PRESENT` puts into the controller's graphics memory (`20_memory.md` R44 to R47): the trace read as
frames, the frames read as writes, and each write at the place `GdAddr` gives its pixels. -/

namespace Sys2Proof.Machine

/-! ## The trace as frames (`30_encoding.md` R82) -/

/-- The two nibbles of a frame are the source byte. -/
theorem highNibble_or_lowNibble (b : Byte) : (b &&& 0xF0) ||| (((b <<< (4 : Nat)) &&& 0xF0) >>> (4 : Nat)) = b := by
  revert b
  decide

theorem wireFrames_frameEvents (rs : Bool) (b : Byte) (es : List TxEvent) :
    wireFrames (frameEvents rs b ++ es) = (rs, b) :: wireFrames es := by
  have hsync : decide (syncBase ||| (if rs then 0x02 else 0x00) = 0xFA) = rs := by cases rs <;> decide
  simp only [frameEvents, frame, List.map_cons, List.map_nil, List.cons_append, List.nil_append, wireFrames, hsync,
    highNibble_or_lowNibble]

/-- Frames sent for each element of a list. -/
theorem wireFrames_flatMap {α : Type} (f : α → List TxEvent) (g : α → List (Bool × Byte))
    (h : ∀ a es, wireFrames (f a ++ es) = g a ++ wireFrames es) (l : List α) (es : List TxEvent) :
    wireFrames (l.flatMap f ++ es) = l.flatMap g ++ wireFrames es := by
  induction l with
  | nil => rfl
  | cons a l ih => rw [List.flatMap_cons, List.flatMap_cons, List.append_assoc, h, ih, List.append_assoc]

/-- The frames of a row of a `PRESENT`: its address, and its sixteen bytes. -/
def rowFrames (c : Config) (m : Memory) (y : Nat) : List (Bool × Byte) :=
  (false, c.cmdSetAddr ||| BitVec.ofNat 8 (y % 32)) ::
    (false, c.cmdSetAddr ||| BitVec.ofNat 8 (c.hBottom.toNat * (y / 32))) ::
    (List.range 16).map fun k => (true, m.fbByte y k)

/-- The frames of a `PRESENT` are its rows' frames. -/
theorem wireFrames_presentEvents (c : Config) (m : Memory) :
    wireFrames (presentEvents c m) = (List.range 64).flatMap (rowFrames c m) := by
  have hdata (y : Nat) (es : List TxEvent) :
      wireFrames (((List.range 16).flatMap fun k => frameEvents true (m.fbByte y k)) ++ es) =
        ((List.range 16).map fun k => (true, m.fbByte y k)) ++ wireFrames es := by
    rw [wireFrames_flatMap _ (fun k => [(true, m.fbByte y k)]) fun k es => wireFrames_frameEvents ..,
      List.map_eq_flatMap]
  have hrow (y : Nat) (es : List TxEvent) :
      wireFrames ((frameEvents false (c.cmdSetAddr ||| BitVec.ofNat 8 (y % 32)) ++
        frameEvents false (c.cmdSetAddr ||| BitVec.ofNat 8 (c.hBottom.toNat * (y / 32))) ++
        (List.range 16).flatMap fun k => frameEvents true (m.fbByte y k)) ++ es) =
      rowFrames c m y ++ wireFrames es := by
    rw [List.append_assoc, List.append_assoc, wireFrames_frameEvents, wireFrames_frameEvents, hdata]
    rfl
  have hopen (es : List TxEvent) : wireFrames (.sel :: es) = wireFrames es := by simp [wireFrames]
  rw [presentEvents, List.append_assoc, List.singleton_append, hopen, wireFrames_flatMap _ _ hrow]
  simp [wireFrames]

/-! ## The frames as writes (`20_memory.md` R44, R45) -/

/-- Data bytes go to the bytes of the words from the address on, left byte first. -/
theorem gdramWrites_data (f : Nat → Byte) (v h : Nat) (fs : List (Bool × Byte)) (n : Nat) : ∀ k : Nat,
    gdramWrites false v (h + k / 2) (decide (k % 2 = 1)) (((List.range' k n).map fun i => (true, f i)) ++ fs) =
      ((List.range' k n).map fun i => ((v, h + i / 2, i % 2), f i)) ++
        gdramWrites false v (h + (k + n) / 2) (decide ((k + n) % 2 = 1)) fs := by
  induction n with
  | zero => intro k; rfl
  | succ n ih =>
    intro k
    have hbyte : (decide (k % 2 = 1)).toNat = k % 2 := by
      rcases Nat.mod_two_eq_zero_or_one k with h0 | h1 <;> simp [*]
    have hword : (if decide (k % 2 = 1) = true then h + k / 2 + 1 else h + k / 2) = h + (k + 1) / 2 := by
      simp only [decide_eq_true_eq]
      split_ifs <;> omega
    have hright : (!decide (k % 2 = 1)) = decide ((k + 1) % 2 = 1) := by
      rw [← decide_not, decide_eq_decide]
      omega
    rw [List.range'_succ, List.map_cons, List.map_cons, List.cons_append, List.cons_append, gdramWrites, hbyte, hword,
      hright, ih (k + 1), show k + 1 + n = k + (n + 1) by omega]

/-- What a row of the frame buffer puts into the GDRAM: its sixteen bytes, into the eight words from its start. -/
def rowWrites (m : Memory) (y : Nat) : List ((Nat × Nat × Nat) × Byte) :=
  (List.range 16).map fun k => ((y % 32, 8 * (y / 32) + k / 2, k % 2), m.fbByte y k)

/-- The address frames of a row give its place, under the default command and bottom half. -/
theorem rowAddress_toNat {y : Nat} (hy : y < 64) :
    ((0x80 : Byte) ||| BitVec.ofNat 8 (y % 32)).toNat % 32 = y % 32 ∧
      ((0x80 : Byte) ||| BitVec.ofNat 8 (8 * (y / 32))).toNat % 16 = 8 * (y / 32) := by
  revert y
  decide

section
variable {c : Config} (haddr : c.cmdSetAddr = 0x80) (hbottom : c.hBottom = 8)
include haddr hbottom

/-- The frames of a row put the row there, wherever the row before it ended. -/
theorem gdramWrites_rowFrames (m : Memory) {y : Nat} (hy : y < 64) (v h : Nat) (right : Bool)
    (fs : List (Bool × Byte)) :
    ∃ h', gdramWrites false v h right (rowFrames c m y ++ fs) =
      rowWrites m y ++ gdramWrites false (y % 32) h' false fs := by
  obtain ⟨hrow, hstart⟩ := rowAddress_toNat hy
  have hdata := gdramWrites_data (m.fbByte y) (y % 32) (8 * (y / 32)) fs 16 0
  have h8 : (8 : BitVec 4).toNat = 8 := rfl
  refine ⟨8 * (y / 32) + 8, ?_⟩
  rw [rowFrames, haddr, hbottom, h8, List.cons_append, List.cons_append, gdramWrites, if_neg (by simp), gdramWrites,
    if_pos rfl, hrow, hstart, rowWrites, List.range_eq_range']
  exact hdata

/-- The rows, one after the other. -/
theorem gdramWrites_rows (m : Memory) (rows : List Nat) : (∀ y ∈ rows, y < 64) → ∀ (v h : Nat) (right : Bool),
    gdramWrites false v h right (rows.flatMap (rowFrames c m)) = rows.flatMap (rowWrites m) := by
  induction rows with
  | nil => intro _ v h right; rfl
  | cons y rows ih =>
    intro hrows v h right
    obtain ⟨hy, hrest⟩ := List.forall_mem_cons.mp hrows
    obtain ⟨h', hfirst⟩ := gdramWrites_rowFrames haddr hbottom m hy v h right (rows.flatMap (rowFrames c m))
    rw [List.flatMap_cons, List.flatMap_cons, hfirst, ih hrest]

/-- What the frames of a transfer put into the GDRAM. -/
theorem gdramWrites_presentEvents (m : Memory) :
    gdramWrites false 0 0 false (wireFrames (presentEvents c m)) = (List.range 64).flatMap (rowWrites m) := by
  rw [wireFrames_presentEvents]
  exact gdramWrites_rows haddr hbottom m _ (fun y hy => List.mem_range.mp hy) 0 0 false

end

/-! ## The writes as pixels (R46) -/

/-- The bytes put at a word are those of the rows and columns it stands for. -/
theorem mem_rowWrites {m : Memory} {place : Nat × Nat × Nat} {b : Byte} :
    (place, b) ∈ (List.range 64).flatMap (rowWrites m) ↔
      ∃ y k, y < 64 ∧ k < 16 ∧ place = (y % 32, 8 * (y / 32) + k / 2, k % 2) ∧ b = m.fbByte y k := by
  simp only [rowWrites, List.mem_flatMap, List.mem_map, List.mem_range, Prod.mk.injEq]
  constructor
  · rintro ⟨y, hy, k, hk, rfl, rfl⟩
    exact ⟨y, k, hy, hk, rfl, rfl⟩
  · rintro ⟨y, k, hy, hk, rfl, rfl⟩
    exact ⟨y, hy, k, hk, rfl, rfl⟩

/-- The byte put where `GdAddr` places a pixel is the pixel's byte of the packed view. -/
theorem mem_rowWrites_gdAddr {c : Config} (hbottom : c.hBottom = 8) {m : Memory} {x y : Nat} (hx : x < 128)
    (hy : y < 64) {b : Byte} :
    (((gdAddr c x y).v, (gdAddr c x y).h, (gdAddr c x y).byte), b) ∈ (List.range 64).flatMap (rowWrites m) ↔
      b = m.fbByte y (x / 8) := by
  rw [mem_rowWrites, gdAddr_eq hbottom]
  constructor
  · rintro ⟨y', k, hy', hk, hplace, rfl⟩
    simp only [Prod.mk.injEq] at hplace
    obtain rfl : y' = y := by omega
    obtain rfl : k = x / 8 := by omega
    rfl
  · rintro rfl
    refine ⟨y, x / 8, hy, by omega, ?_, rfl⟩
    simp only [Prod.mk.injEq, true_and, and_true]
    omega

theorem length_rowWrites (m : Memory) : ((List.range 64).flatMap (rowWrites m)).length = 1024 := by
  simp [rowWrites, List.length_flatMap]

/-! ## A completed `PRESENT` -/

theorem drop_append_append {α : Type} (a b c : List α) : (a ++ (b ++ c)).drop (a.length + b.length) = c := by
  rw [← List.append_assoc, ← List.length_append, List.drop_left]

/-- The trace of a completed `PRESENT`, past the automatic entry of `TEXT`, is the transfer. -/
theorem present_transfer {s t : State} {entry : Nat}
    (hmode : (s.mode = .graphics ∧ TxAccepts 3456 s ∧ entry = 0) ∨ (s.mode = .text ∧ TxAccepts 3459 s ∧ entry = 5))
    (h : exec .present s = .next t) : t.trace.drop (s.trace.length + entry) = presentEvents s.cfg s.fb := by
  obtain ⟨-, hpresent⟩ := presentSendsEveryRow
  obtain ⟨-, hgraphics, htext⟩ := hpresent s
  rcases hmode with ⟨hm, haccepts, rfl⟩ | ⟨hm, haccepts, rfl⟩
  · obtain ⟨answers, drawn, hnext⟩ := (hgraphics hm).1 haccepts
    cases hnext.symm.trans h
    exact List.drop_left
  · obtain ⟨answers, drawn, hnext⟩ := (htext hm).1 haccepts
    cases hnext.symm.trans h
    exact drop_append_append s.trace ([.sel] ++ frameEvents false s.cfg.cmdGfxOn ++ [.desel]) _

/-- Settles O43: the writes of the transfer, read at the place of each pixel. -/
theorem presentPutsEveryPixelWhereGdAddrSays : Obligations.PresentPutsEveryPixelWhereGdAddrSays := by
  intro s t advance pulse entry fb hcfg hmode h
  have haddr : s.cfg.cmdSetAddr = 0x80 := by rw [hcfg]; rfl
  have hbottom : s.cfg.hBottom = 8 := by rw [hcfg]; rfl
  rw [present_transfer hmode h, gdramWrites_presentEvents haddr hbottom]
  refine ⟨length_rowWrites s.fb, fun x y hx hy => ⟨⟨_, (mem_rowWrites_gdAddr hbottom hx hy).mpr rfl⟩, fun b hb => ?_⟩⟩
  rw [(mem_rowWrites_gdAddr hbottom hx hy).mp hb]
  rfl

end Sys2Proof.Machine
end
